-- ==== Sys2Proof/Word.lean ====
section
/-! DEFINITION. The word types of aper_bit_cursor (00_scope.md R4, R6; 30_encoding.md R51, R52). -/

namespace Sys2Proof

/-- One octet of the buffer or of the `din` channel (00_scope.md R4: octet size 8). -/
abbrev Octet := BitVec 8

/-- A 128-bit pattern: an operand `A`, `B`, `V`, or `rsp_result` (00_scope.md R4 `VAL_W`, R6). -/
abbrev Pattern := BitVec 128

/-- The command header `cmd_hdr` (30_encoding.md R51). -/
abbrev Header := BitVec 32

end Sys2Proof
end

