-- ==== Sys2Proof/Config.lean ====
section
/-! DEFINITION. The parameters the source leaves open (00_scope.md R5). Each is an opaque constant: no proof can
see its value, so whatever is proved of the reset state is proved for every legal value (log entry 1). -/

namespace Sys2Proof

/-- The two legal values of `ADVANCE_SOFT_POLICY` (00_scope.md R5, 40_bit_cursor.md R81). -/
inductive SoftPolicy where
  /-- `ADVANCE` with `f = 0` and too few bits leaves the position unchanged. -/
  | hold
  /-- `ADVANCE` with `f = 0` and too few bits moves the position to `bit_length`. -/
  | clamp
  deriving DecidableEq, Repr, Inhabited

namespace Config

/-- `CAP_BYTES - 1`: any natural number, so that `CAP_BYTES` is any integer of at least 1 (00_scope.md R5).
DESIGN CHOICE, log entry 1: a constant with no body. -/
opaque capBytesLessOne : Nat

/-- `CAP_BYTES` of the machine that `State.reset` is the reset state of (00_scope.md R5). -/
def capBytes : Nat := capBytesLessOne + 1

/-- `ADVANCE_SOFT_POLICY` of the machine that `State.reset` is the reset state of (00_scope.md R5).
DESIGN CHOICE, log entry 1: a constant with no body. -/
opaque softPolicy : SoftPolicy

end Config

end Sys2Proof
end

