-- ==== Sys2Proof/Syntax.lean ====
section
/-! DEFINITION. The 21 commands (30_encoding.md R54, opcode_table.json) with the operands their formats read
(R52, R53), and the command word a host presents (R50 to R52). -/

namespace Sys2Proof

/-- A command with its operands as the numbers R53 reads them to be; a field the format does not read (R57) is
no argument. The slice of `INIT_DEC` is not an operand field: its octets come on `din` (43_construction.md R133). -/
inductive Instr where
  /-- `INIT_DEC`, 43_construction.md R130; `nbytes = u128(A)`. -/
  | initDec (nbytes : Nat)
  /-- `INIT_ENC`, 43_construction.md R131. -/
  | initEnc
  /-- `DEC_BOOL`, 40_bit_cursor.md R78. -/
  | decBool
  /-- `DEC_BITS n`, 40_bit_cursor.md R79; `n = cmd_hdr[15:8]`. -/
  | decBits (n : Nat)
  /-- `DEC_ALIGN`, 40_bit_cursor.md R80. -/
  | decAlign
  /-- `DEC_NSLEN`, 42_length_determinant.md R110. -/
  | decNslen
  /-- `DEC_CLEN lb, ub`, 42_length_determinant.md R112; `lb = s128(A)`, `ub = s128(B)`. -/
  | decClen (lb ub : Int)
  /-- `DEC_ULEN`, 42_length_determinant.md R113. -/
  | decUlen
  /-- `DEC_CWN lb, ub`, 41_whole_number.md R95; `lb = s128(A)`, `ub = s128(B)`. -/
  | decCwn (lb ub : Int)
  /-- `DEC_SCWN lb`, 41_whole_number.md R96; `lb = s128(A)`. -/
  | decScwn (lb : Int)
  /-- `DEC_UWN`, 41_whole_number.md R97. -/
  | decUwn
  /-- `ADVANCE count, f`, 40_bit_cursor.md R81; `f = cmd_hdr[16]` (must succeed), `count = u128(A)`. -/
  | advance (count : Nat) (f : Bool)
  /-- `ENC_BOOL f`, 40_bit_cursor.md R82; `f = cmd_hdr[16]`, the bit to write. -/
  | encBool (f : Bool)
  /-- `ENC_BITS n, value`, 40_bit_cursor.md R83; `n = cmd_hdr[15:8]`, `value = u128(V)`. -/
  | encBits (n value : Nat)
  /-- `ENC_ALIGN`, 40_bit_cursor.md R84. -/
  | encAlign
  /-- `ENC_NSLEN value`, 42_length_determinant.md R114; `value = u128(V)`. -/
  | encNslen (value : Nat)
  /-- `ENC_CLEN value, lb, ub`, 42_length_determinant.md R115; `V`, `A`, `B` read signed. -/
  | encClen (value lb ub : Int)
  /-- `ENC_ULEN value`, 42_length_determinant.md R116; `value = u128(V)`. -/
  | encUlen (value : Nat)
  /-- `ENC_CWN value, lb, ub`, 41_whole_number.md R98; `V`, `A`, `B` read signed. -/
  | encCwn (value lb ub : Int)
  /-- `ENC_SCWN value, lb`, 41_whole_number.md R99; `V`, `A` read signed. -/
  | encScwn (value lb : Int)
  /-- `ENC_UWN value`, 41_whole_number.md R100; `value = u128(V)`. -/
  | encUwn (value : Nat)
  deriving DecidableEq, Repr

/-- What the host drives on the command channel (30_encoding.md R50): the header and the three operands. -/
structure Command where
  hdr : Header
  a : Pattern
  b : Pattern
  v : Pattern
  deriving DecidableEq, Repr

end Sys2Proof
end

