-- ==== Sys2Proof/WellFormed.lean ====
section
/-! DEFINITION. Which instructions have a command word: every operand lies in the range of the field that
carries it (30_encoding.md R51, R53). -/

namespace Sys2Proof

/-- The values `cmd_hdr[15:8]` can carry (30_encoding.md R51). -/
abbrev FitsN (n : Nat) : Prop := n < 2 ^ 8

/-- The values a 128-bit operand can carry read unsigned (30_encoding.md R53). -/
abbrev FitsU128 (x : Nat) : Prop := x < 2 ^ 128

/-- The values a 128-bit operand can carry read as two's complement (00_scope.md R6, 30_encoding.md R53). -/
abbrev FitsS128 (x : Int) : Prop :=
  -170141183460469231731687303715884105728 ≤ x ∧ x ≤ 170141183460469231731687303715884105727

/-- Every operand of the instruction fits the field that carries it (30_encoding.md R51 to R53). -/
def Instr.wellFormed : Instr → Bool
  | .initDec nbytes => decide (FitsU128 nbytes)
  | .initEnc => true
  | .decBool => true
  | .decBits n => decide (FitsN n)
  | .decAlign => true
  | .decNslen => true
  | .decClen lb ub => decide (FitsS128 lb ∧ FitsS128 ub)
  | .decUlen => true
  | .decCwn lb ub => decide (FitsS128 lb ∧ FitsS128 ub)
  | .decScwn lb => decide (FitsS128 lb)
  | .decUwn => true
  | .advance count _ => decide (FitsU128 count)
  | .encBool _ => true
  | .encBits n value => decide (FitsN n ∧ FitsU128 value)
  | .encAlign => true
  | .encNslen value => decide (FitsU128 value)
  | .encClen value lb ub => decide (FitsS128 value ∧ FitsS128 lb ∧ FitsS128 ub)
  | .encUlen value => decide (FitsU128 value)
  | .encCwn value lb ub => decide (FitsS128 value ∧ FitsS128 lb ∧ FitsS128 ub)
  | .encScwn value lb => decide (FitsS128 value ∧ FitsS128 lb)
  | .encUwn value => decide (FitsU128 value)

/-- `Instr.wellFormed` as a proposition. -/
abbrev WellFormed (i : Instr) : Prop := i.wellFormed = true

end Sys2Proof
end

