-- ==== Sys2Proof/Decode.lean ====
section
/-! DEFINITION. Decoding a command word to an instruction (30_encoding.md R51 to R57, 40_bit_cursor.md R77), and
after it the encoder, written from the same tables (R54, R59). -/

namespace Sys2Proof

/-- Why a header matches no row of the opcode map (30_encoding.md R56). The block answers both alike, with
`IllegalCommand`. -/
inductive DecodeError where
  /-- Some bit of `cmd_hdr[31:17]` is set. -/
  | reservedBitsSet
  /-- `cmd_hdr[7:0]` is none of the 21 opcodes. -/
  | unlistedOpcode (opcode : Nat)
  deriving DecidableEq, Repr

/-! ### Header fields (30_encoding.md R51) -/

/-- `cmd_hdr[7:0]`. -/
def hdrOpcode (h : Header) : Nat := (h.extractLsb' 0 8).toNat

/-- `cmd_hdr[15:8]`, unsigned (30_encoding.md R53). -/
def hdrN (h : Header) : Nat := (h.extractLsb' 8 8).toNat

/-- `cmd_hdr[16]`. -/
def hdrF (h : Header) : Bool := h.getLsbD 16

/-- `cmd_hdr[31:17]`, which must be 0. -/
def hdrZero (h : Header) : Nat := (h.extractLsb' 17 15).toNat

/-! ### Readings of a pattern (00_scope.md R6) -/

/-- `u128(p)`: the pattern read as an unsigned integer. -/
def u128 (p : Pattern) : Nat := p.toNat

/-- `s128(p)`: the pattern read as two's complement. -/
def s128 (p : Pattern) : Int := p.toInt

/-- `pat(x)`: the pattern with `u128(pat(x)) = x mod 2^128`. -/
def pat (x : Int) : Pattern := BitVec.ofInt 128 x

/-! ### Decoding -/

/-- The row of the opcode map that the opcode selects, with the operands its format reads (30_encoding.md R52 to
R54); the fields a format does not read are ignored (R57). -/
def decodeRow (c : Command) : Nat → Except DecodeError Instr
  | 0x01 => .ok (.initDec (u128 c.a))
  | 0x02 => .ok .initEnc
  | 0x10 => .ok .decBool
  | 0x11 => .ok (.decBits (hdrN c.hdr))
  | 0x12 => .ok .decAlign
  | 0x13 => .ok .decNslen
  | 0x14 => .ok (.decClen (s128 c.a) (s128 c.b))
  | 0x15 => .ok .decUlen
  | 0x16 => .ok (.decCwn (s128 c.a) (s128 c.b))
  | 0x17 => .ok (.decScwn (s128 c.a))
  | 0x18 => .ok .decUwn
  | 0x19 => .ok (.advance (u128 c.a) (hdrF c.hdr))
  | 0x20 => .ok (.encBool (hdrF c.hdr))
  | 0x21 => .ok (.encBits (hdrN c.hdr) (u128 c.v))
  | 0x22 => .ok .encAlign
  | 0x23 => .ok (.encNslen (u128 c.v))
  | 0x24 => .ok (.encClen (s128 c.v) (s128 c.a) (s128 c.b))
  | 0x25 => .ok (.encUlen (u128 c.v))
  | 0x26 => .ok (.encCwn (s128 c.v) (s128 c.a) (s128 c.b))
  | 0x27 => .ok (.encScwn (s128 c.v) (s128 c.a))
  | 0x28 => .ok (.encUwn (u128 c.v))
  | op => .error (.unlistedOpcode op)

/-- The instruction a command word is, or the reason it is none (30_encoding.md R54, R56). -/
def decode (c : Command) : Except DecodeError Instr :=
  if hdrZero c.hdr ≠ 0 then .error .reservedBitsSet else decodeRow c (hdrOpcode c.hdr)

/-- The command whose bits are `w`: the header is bits 31..0, then `A` bits 159..32, `B` bits 287..160, `V` bits
415..288 (log entry 10). -/
def commandOfBits (w : Nat) : Command where
  hdr := BitVec.ofNat 32 w
  a := BitVec.ofNat 128 (w >>> 32)
  b := BitVec.ofNat 128 (w >>> 160)
  v := BitVec.ofNat 128 (w >>> 288)

/-- What the decoder reads from an instruction whose low `nbits` bits are those of `w` and whose other bits are
0. -/
def decodeTableWord (nbits w : Nat) : Option Instr :=
  (decode (commandOfBits (w % 2 ^ nbits))).toOption

/-! ### Encoding -/

/-- The opcode of each command (30_encoding.md R54). -/
def opcodeOf : Instr → Nat
  | .initDec _ => 0x01
  | .initEnc => 0x02
  | .decBool => 0x10
  | .decBits _ => 0x11
  | .decAlign => 0x12
  | .decNslen => 0x13
  | .decClen _ _ => 0x14
  | .decUlen => 0x15
  | .decCwn _ _ => 0x16
  | .decScwn _ => 0x17
  | .decUwn => 0x18
  | .advance _ _ => 0x19
  | .encBool _ => 0x20
  | .encBits _ _ => 0x21
  | .encAlign => 0x22
  | .encNslen _ => 0x23
  | .encClen _ _ _ => 0x24
  | .encUlen _ => 0x25
  | .encCwn _ _ _ => 0x26
  | .encScwn _ _ => 0x27
  | .encUwn _ => 0x28

/-- `cmd_hdr = opcode | (n << 8) | (f << 16)` (30_encoding.md R59). -/
def header (opcode n : Nat) (f : Bool) : Header := BitVec.ofNat 32 (opcode + n * 256 + f.toNat * 65536)

/-- The command word of an instruction (30_encoding.md R59): fields a format does not read are written as 0. -/
def encode (i : Instr) : Command :=
  match i with
  | .initDec nbytes => ⟨header 0x01 0 false, pat nbytes, 0, 0⟩
  | .initEnc => ⟨header 0x02 0 false, 0, 0, 0⟩
  | .decBool => ⟨header 0x10 0 false, 0, 0, 0⟩
  | .decBits n => ⟨header 0x11 n false, 0, 0, 0⟩
  | .decAlign => ⟨header 0x12 0 false, 0, 0, 0⟩
  | .decNslen => ⟨header 0x13 0 false, 0, 0, 0⟩
  | .decClen lb ub => ⟨header 0x14 0 false, pat lb, pat ub, 0⟩
  | .decUlen => ⟨header 0x15 0 false, 0, 0, 0⟩
  | .decCwn lb ub => ⟨header 0x16 0 false, pat lb, pat ub, 0⟩
  | .decScwn lb => ⟨header 0x17 0 false, pat lb, 0, 0⟩
  | .decUwn => ⟨header 0x18 0 false, 0, 0, 0⟩
  | .advance count f => ⟨header 0x19 0 f, pat count, 0, 0⟩
  | .encBool f => ⟨header 0x20 0 f, 0, 0, 0⟩
  | .encBits n value => ⟨header 0x21 n false, 0, 0, pat value⟩
  | .encAlign => ⟨header 0x22 0 false, 0, 0, 0⟩
  | .encNslen value => ⟨header 0x23 0 false, 0, 0, pat value⟩
  | .encClen value lb ub => ⟨header 0x24 0 false, pat lb, pat ub, pat value⟩
  | .encUlen value => ⟨header 0x25 0 false, 0, 0, pat value⟩
  | .encCwn value lb ub => ⟨header 0x26 0 false, pat lb, pat ub, pat value⟩
  | .encScwn value lb => ⟨header 0x27 0 false, pat lb, 0, pat value⟩
  | .encUwn value => ⟨header 0x28 0 false, 0, 0, pat value⟩

end Sys2Proof
end

