-- ==== Sys2Proof/Machine/State.lean ====
section
/-! DEFINITION. The state of the block, its responses and its ports as plain data (10_state.md, 30_encoding.md R50,
R55), the state after reset (10_state.md R22), and the ways a step can stop. -/

namespace Sys2Proof.Machine

open Sys2Proof

/-- The `mode` register (10_state.md R14): three legal values of a 2-bit register; the value 3 is never taken. -/
inductive Mode where
  /-- `NONE = 0`: no pass started. -/
  | none
  /-- `DEC = 1`: the buffer holds a slice being decoded. -/
  | dec
  /-- `ENC = 2`: the buffer is being filled by an encoder. -/
  | enc
  deriving DecidableEq, Repr

/-- The response statuses (60_exceptions.md R140); the codes are `statusCode`. -/
inductive Status where
  | ok
  | outOfBits
  | invalidRange
  | invalidLengthMultiplier
  | unsupportedRange
  | widthTooLarge
  | valueOverflow
  | valueOutOfRange
  | wrongMode
  | illegalCommand
  deriving DecidableEq, Repr

/-- A response (30_encoding.md R55): the status, and the result pattern where there is one. `none` is "carries no
value", which is absent and not zero. -/
structure Response where
  status : Status
  result : Option Pattern
  deriving DecidableEq, Repr

/-- An `INIT_DEC` in flight that still waits for octets of its slice (43_construction.md R133): the announced
count and the octets taken so far, `S[0]` first. -/
structure Transfer where
  nbytes : Nat
  taken : List Octet
  deriving DecidableEq, Repr

/-- What the host does at the command and response channels and at `rst` (30_encoding.md R50). -/
inductive HostInput where
  /-- The host presents a command until it is accepted. -/
  | command (c : Command)
  /-- The host takes the response of the command in flight (`rsp_ready`). -/
  | takeResponse
  /-- The host pulses `rst` (70_reset_and_hazards.md R170). -/
  | rst
  deriving DecidableEq, Repr

/-- The buffer: octets by index (10_state.md R10), indices strictly rising. An index that is not listed holds no
value (10_state.md R22, log entry 3). -/
abbrev Memory := List Host.Cell

/-- The canonical form: indices strictly rising. No entry can equal what an unlisted index reads as, since that
is no value. -/
abbrev Memory.wf (m : Memory) : Prop := m.Pairwise (fun x y => x.1 < y.1)

/-- Everything the spec gives the machine, and the host's inputs. -/
structure State where
  /-- `CAP_BYTES` (00_scope.md R5); a parameter, no step changes it. -/
  capBytes : Nat
  /-- `ADVANCE_SOFT_POLICY` (00_scope.md R5); a parameter, no step changes it. -/
  softPolicy : SoftPolicy
  /-- `buffer` (10_state.md R10). -/
  buffer : Memory
  /-- `bit_position` (10_state.md R11). -/
  bitPosition : Nat
  /-- `bit_length` (10_state.md R12). -/
  bitLength : Nat
  /-- `mode` (10_state.md R14). -/
  mode : Mode
  /-- The response port: the response of the command in flight, until the host takes it (30_encoding.md R50). -/
  response : Option Response
  /-- The `INIT_DEC` in flight that waits for its slice, if any (43_construction.md R133). -/
  transfer : Option Transfer
  /-- The model's own: the octets the host presents on `din`, first octet first (log entry 7). -/
  din : List Octet
  /-- The model's own: what the host does next, oldest first (log entry 6). -/
  hostQueue : List HostInput
  deriving DecidableEq, Repr

/-- The state after reset (10_state.md R22, 70_reset_and_hazards.md R170): no pass, cursor and length 0, no octet
with a value, nothing in flight; the parameters are the opaque constants of Config, and the host has presented
nothing (log entries 1, 6, 7). -/
def State.reset : State where
  capBytes := Config.capBytes
  softPolicy := Config.softPolicy
  buffer := []
  bitPosition := 0
  bitLength := 0
  mode := .none
  response := Option.none
  transfer := Option.none
  din := []
  hostQueue := []

/-- Why the machine stops with a fault. -/
inductive Fault where
  /-- Raised by a read of an octet, or a write into part of an octet, that holds no value (10_state.md R22: no
  command reads such an octet). No state that meets `Inv` raises it. Safe: the model gives no value where the spec
  forbids one. -/
  | unwrittenOctet
  deriving DecidableEq, Repr

/-- Why an instruction has no meaning. -/
inductive Refusal where
  /-- Raised by an arm of `exec` whose instruction has no meaning yet; no arm raises it. Safe. -/
  | notModelled (mnemonic : String)
  deriving DecidableEq, Repr

/-- How a command body, or a primitive inside one, ends (00_scope.md R8). -/
inductive Res (α : Type) where
  /-- It yields a value; the next primitive runs from the state `s`. -/
  | done (a : α) (s : State)
  /-- `raise k`: the command ends with status `k`; what is written so far stays written (60_exceptions.md R150). -/
  | raised (k : Status) (s : State)
  /-- The machine stops. -/
  | stuck (f : Fault)
  deriving Repr

end Sys2Proof.Machine
end

