-- ==== Sys2Proof/Machine/Operands.lean ====
section
/-! DEFINITION. The numbers a command computes from its operands before and between its bit moves
(00_scope.md R6; 41_whole_number.md R90, R92, R94, R103; 42_length_determinant.md R117). -/

namespace Sys2Proof.Machine

open Sys2Proof

/-- The largest bit count of one primitive read or write, `MAX_N` (00_scope.md R4). -/
def maxN : Nat := 128

/-- `2^127 - 1`, the largest value read as signed 128-bit (00_scope.md R6). -/
def maxS128 : Int := 170141183460469231731687303715884105727

/-- `bitlen(x)`: the least `k` with `x < 2^k` (00_scope.md R6). -/
def bitlen (x : Nat) : Nat := if x = 0 then 0 else Nat.log2 x + 1

/-- `ceil(x / 8)` (00_scope.md R6): the octets that `x` bits take. -/
def octets (x : Nat) : Nat := (x + 7) / 8

/-- The next multiple of 8 at or above a bit offset (20_memory.md R34, 40_bit_cursor.md R72). -/
def alignUp (p : Nat) : Nat := 8 * octets p

/-- `CAP_BITS = 8 * CAP_BYTES` (00_scope.md R5). -/
def capBits (s : State) : Nat := 8 * s.capBytes

/-- `POS_W`: the least `w` with `2^w > CAP_BITS` (00_scope.md R5). -/
def posW (s : State) : Nat := bitlen (capBits s)

/-- `Range(lb, ub) = ub - lb + 1`, exact (41_whole_number.md R90). -/
def range (lb ub : Int) : Int := ub - lb + 1

/-- `RangeOK(range)` (41_whole_number.md R90). -/
abbrev RangeOK (r : Int) : Prop := 1 ≤ r ∧ r ≤ maxS128

/-- `bits_needed_for_range(range)` for `1 <= range <= 255`, by the source's boundary table (41_whole_number.md
R92). -/
def bitsNeededForRange (r : Nat) : Nat :=
  if r ≤ 1 then 0
  else if r ≤ 2 then 1
  else if r ≤ 4 then 2
  else if r ≤ 8 then 3
  else if r ≤ 16 then 4
  else if r ≤ 32 then 5
  else if r ≤ 64 then 6
  else if r ≤ 128 then 7
  else 8

/-- `bytes_needed(range) = ceil(bitlen(range) / 8)` (41_whole_number.md R94; log entry 13 on 90_conflicts.md C1). -/
def bytesNeeded (r : Nat) : Nat := octets (bitlen r)

/-- The octets of the value field the band-4 encoder writes: `max(2, ceil(bitlen(v) / 8))` (41_whole_number.md
R98). -/
def longBandOctets (v : Nat) : Nat := max 2 (octets (bitlen v))

/-- `MinOctets(v) = max(1, ceil(bitlen(v) / 8))` (41_whole_number.md R103). -/
def minOctets (v : Nat) : Nat := max 1 (octets (bitlen v))

/-- The unit of the fragment form of an unconstrained length determinant (00_scope.md R4). -/
def fragmentUnit : Nat := 16384

/-- `ULenOK(L)`: the lengths one unconstrained length determinant can carry (42_length_determinant.md R117). -/
abbrev ULenOK (l : Nat) : Prop := l ≤ 16383 ∨ l = 16384 ∨ l = 32768 ∨ l = 49152 ∨ l = 65536

end Sys2Proof.Machine
end

