-- ==== Sys2Proof/Machine/Flags.lean ====
section
/-! DEFINITION. The block has no flags and no condition codes (10_state.md R20). What it shows instead: the status
codes of a response (60_exceptions.md R140), and the three status outputs (10_state.md R18). -/

namespace Sys2Proof.Machine

open Sys2Proof

/-- `rsp_status` (60_exceptions.md R140). Codes 10 to 15 are never produced. -/
def statusCode : Status → BitVec 4
  | .ok => 0
  | .outOfBits => 1
  | .invalidRange => 2
  | .invalidLengthMultiplier => 3
  | .unsupportedRange => 4
  | .widthTooLarge => 5
  | .valueOverflow => 6
  | .valueOutOfRange => 7
  | .wrongMode => 8
  | .illegalCommand => 9

/-- The 2-bit code of `mode` (10_state.md R14). -/
def modeCode : Mode → BitVec 2
  | .none => 0
  | .dec => 1
  | .enc => 2

/-- A command is in flight: an `INIT_DEC` waits for its slice, or a response waits for the host
(30_encoding.md R50). -/
def inFlight (s : State) : Bool := s.transfer.isSome || s.response.isSome

/-- The output `st_mode`, `MODE`: valid when no command is in flight (10_state.md R18). -/
def stMode (s : State) : Option (BitVec 2) :=
  if inFlight s then Option.none else some (modeCode s.mode)

/-- The output `st_pos`, `BIT_POSITION`: `POS_W` bits, valid when no command is in flight (10_state.md R18). -/
def stPos (s : State) : Option (BitVec (posW s)) :=
  if inFlight s then Option.none else some (BitVec.ofNat (posW s) s.bitPosition)

/-- The output `st_len`, `BIT_LENGTH`: `POS_W` bits, valid when no command is in flight (10_state.md R18). -/
def stLen (s : State) : Option (BitVec (posW s)) :=
  if inFlight s then Option.none else some (BitVec.ofNat (posW s) s.bitLength)

/-- The outputs `rsp_valid`, `rsp_status` and `rsp_result` (30_encoding.md R50, R55): absent when no response is
pending. -/
def rspPort (s : State) : Option (BitVec 4 × Option Pattern) :=
  s.response.map fun r => (statusCode r.status, r.result)

end Sys2Proof.Machine
end

