-- ==== Sys2Proof/Machine/Ops.lean ====
section
/-! DEFINITION. The named operations every command is made of: the buffer's octets and bits (00_scope.md R7,
20_memory.md R32, R33), raising an error and ending a command (60_exceptions.md R150, 30_encoding.md R55), the
checked primitives (40_bit_cursor.md R70 to R76), the prelude (R77), the slice channel, reset and read-out
(43_construction.md R130 to R134, 70_reset_and_hazards.md R170). -/

namespace Sys2Proof.Machine

open Sys2Proof

/-! ### The buffer, octet by octet -/

/-- Octet `k` of the buffer, if it holds a value. -/
def octetAt : Memory → Nat → Option Octet
  | [], _ => none
  | c :: m, k => if c.1 = k then some c.2 else octetAt m k

/-- `buffer[k] <- b`. -/
def putOctet : Memory → Nat → Octet → Memory
  | [], k, b => [(k, b)]
  | c :: m, k, b =>
    if k < c.1 then (k, b) :: c :: m
    else if k = c.1 then (k, b) :: m
    else c :: putOctet m k b

/-- `buffer[k] <- S[0], buffer[k+1] <- S[1], ...` (43_construction.md R130). -/
def loadSlice (m : Memory) (k : Nat) : List Octet → Memory
  | [] => m
  | b :: bs => loadSlice (putOctet m k b) (k + 1) bs

/-- The `count` octets from index `first` on, each `0x00` (10_state.md R15). -/
def zeroFill (m : Memory) (first : Nat) : Nat → Memory
  | 0 => m
  | count + 1 => putOctet (zeroFill m first count) (first + count) 0

/-! ### The buffer, bit by bit -/

/-- Which bit of its octet the absolute offset `i` names: bit `7 - (i mod 8)` (00_scope.md R7). -/
def bitInOctet (i : Nat) : Nat := 7 - i % 8

/-- `bit(i)` (00_scope.md R7), where the octet holds a value. -/
def bitAt (m : Memory) (i : Nat) : Option Bool :=
  (octetAt m (i / 8)).map fun o => o.getLsbD (bitInOctet i)

/-- An octet with bit `j` set to `b` and its other bits as they were. -/
def withBit (o : Octet) (j : Nat) (b : Bool) : Octet :=
  if b then o ||| BitVec.twoPow 8 j else o &&& ~~~(BitVec.twoPow 8 j)

/-- The buffer with the bit at offset `i` set to `b`; none where that octet holds no value. -/
def setBitAt (m : Memory) (i : Nat) (b : Bool) : Option Memory :=
  (octetAt m (i / 8)).map fun o => putOctet m (i / 8) (withBit o (bitInOctet i) b)

/-- `RdBits(p, n)` (20_memory.md R32): the first bit is the most significant. None where one of the octets holds no
value. -/
def rdBits (m : Memory) (p : Nat) : Nat → Option Nat
  | 0 => some 0
  | n + 1 =>
    match rdBits m p n, bitAt m (p + n) with
    | some v, some b => some (2 * v + b.toNat)
    | _, _ => none

/-- The `n` low bits of `v` at offsets `p .. p+n-1`, most significant first; the octets must hold values. -/
def mergeBits (m : Memory) (p : Nat) : Nat → Nat → Option Memory
  | 0, _ => some m
  | n + 1, v =>
    match mergeBits m p n (v / 2) with
    | some m' => setBitAt m' (p + n) (v % 2 == 1)
    | none => none

/-- `WrBits(p, n, v)` (20_memory.md R33) on a buffer whose first `ceil(len / 8)` octets are in use: an octet first
reached by this write is `0x00` before the merge (10_state.md R15). -/
def wrBits (m : Memory) (len p n v : Nat) : Option Memory :=
  if n = 0 then some m
  else mergeBits (zeroFill m (octets len) (octets (p + n) - octets len)) p n v

/-! ### Sequencing, raising, ending -/

/-- Run `f` after a primitive that is done; a `raise` ends the whole command (60_exceptions.md R150, R154). -/
def Res.bind {α β : Type} (r : Res α) (f : α → State → Res β) : Res β :=
  match r with
  | .done a s => f a s
  | .raised k s => .raised k s
  | .stuck e => .stuck e

/-- A body whose result is the 128-bit pattern of an integer (30_encoding.md R55: `rsp_result = pat(result)`). -/
def Res.yieldInt (r : Res Int) : Res (Option Pattern) := r.bind fun x s => .done (some (pat x)) s

/-- A body whose result is the pattern of an unsigned number. -/
def Res.yieldNat (r : Res Nat) : Res (Option Pattern) := r.bind fun x s => .done (some (pat x)) s

/-- A body without a result. -/
def Res.yieldNone (r : Res Unit) : Res (Option Pattern) := r.bind fun _ s => .done none s

/-- Taking an exception, `raise k` (60_exceptions.md R150): the response is the status `k` without a result, and
nothing else is saved or changed. The way back is the next command (R153). -/
def raiseError (k : Status) (s : State) : State := { s with response := some ⟨k, none⟩ }

/-- `return`, `return v` (00_scope.md R8): the response is `OK` with the result, if there is one. -/
def endOk (result : Option Pattern) (s : State) : State := { s with response := some ⟨.ok, result⟩ }

/-- The one response of a command whose body has ended (30_encoding.md R55). -/
def finish (r : Res (Option Pattern)) : Host.Outcome State Fault Refusal :=
  match r with
  | .done v s => .next (endOk v s)
  | .raised k s => .next (raiseError k s)
  | .stuck f => .fault f

/-- A command that needs a mode (40_bit_cursor.md R77): the prelude's mode test, then the body. -/
def command (need : Mode) (body : State → Res (Option Pattern)) (s : State) : Host.Outcome State Fault Refusal :=
  if s.mode = need then finish (body s) else .next (raiseError .wrongMode s)

/-! ### Checked primitives, decode side -/

/-- `pos <- p`. -/
def setPos (p : Nat) (s : State) : State := { s with bitPosition := p }

/-- `ReadBit()` (40_bit_cursor.md R70). -/
def readBit (s : State) : Res Bool :=
  if s.bitPosition + 1 > s.bitLength then .raised .outOfBits s
  else
    match bitAt s.buffer s.bitPosition with
    | some b => .done b (setPos (s.bitPosition + 1) s)
    | none => .stuck .unwrittenOctet

/-- `ReadBits(n)` (40_bit_cursor.md R71). -/
def readBits (n : Nat) (s : State) : Res Nat :=
  if n > maxN then .raised .widthTooLarge s
  else if s.bitPosition + n > s.bitLength then .raised .outOfBits s
  else
    match rdBits s.buffer s.bitPosition n with
    | some v => .done v (setPos (s.bitPosition + n) s)
    | none => .stuck .unwrittenOctet

/-- `Align()` (40_bit_cursor.md R72): it never fails. -/
def align (s : State) : State := setPos (alignUp s.bitPosition) s

/-- `Skip(n)` (40_bit_cursor.md R76). -/
def skip (n : Nat) (s : State) : Res Unit :=
  if s.bitPosition + n > s.bitLength then .raised .outOfBits s
  else .done () (setPos (s.bitPosition + n) s)

/-! ### Checked primitives, encode side -/

/-- The buffer is `m` and the cursor, which is the end of what is written, is `p` (10_state.md R15). -/
def appended (m : Memory) (p : Nat) (s : State) : State :=
  { s with buffer := m, bitPosition := p, bitLength := p }

/-- `WrBits(pos, n, v) ; pos <- pos + n ; len <- pos`, with no test. -/
def appendBits (n v : Nat) (s : State) : Res Unit :=
  match wrBits s.buffer s.bitLength s.bitPosition n v with
  | some m => .done () (appended m (s.bitPosition + n) s)
  | none => .stuck .unwrittenOctet

/-- `WriteBit(b)` (40_bit_cursor.md R73). -/
def writeBit (b : Bool) (s : State) : Res Unit :=
  if s.bitPosition + 1 > capBits s then .raised .outOfBits s else appendBits 1 b.toNat s

/-- `WriteBits(n, v)` (40_bit_cursor.md R74): the width, then the value, then the bound. -/
def writeBits (n v : Nat) (s : State) : Res Unit :=
  if n > maxN then .raised .widthTooLarge s
  else if v ≥ 2 ^ n then .raised .valueOutOfRange s
  else if s.bitPosition + n > capBits s then .raised .outOfBits s
  else appendBits n v s

/-- `WriteAlign()` (40_bit_cursor.md R75): zero bits up to the next multiple of 8; it has no test. -/
def writeAlign (s : State) : Res Unit := appendBits ((8 - s.bitPosition % 8) % 8) 0 s

/-! ### The last step of a decode -/

/-- `AddLb(raw, lb)` (41_whole_number.md R102). -/
def addLb (raw : Nat) (lb : Int) (s : State) : Res Int :=
  if (raw : Int) + lb > maxS128 then .raised .valueOverflow s else .done (raw + lb) s

/-! ### The slice channel, reset, read-out -/

/-- The slice of an `INIT_DEC` that announces `nbytes` octets and has taken `taken` (43_construction.md R130, R133):
it takes what `din` presents, no more than it needs; with the whole slice it loads the buffer, starts the decode
pass and answers `OK`; else it stays in flight without a response. -/
def receiveSlice (nbytes : Nat) (taken : List Octet) (s : State) : State :=
  let got := taken ++ s.din.take (nbytes - taken.length)
  let rest := s.din.drop (nbytes - taken.length)
  if got.length < nbytes then { s with din := rest, transfer := some ⟨nbytes, got⟩ }
  else
    endOk none
      { s with
        din := rest
        transfer := none
        buffer := loadSlice s.buffer 0 got
        bitLength := 8 * nbytes
        bitPosition := 0
        mode := .dec }

/-- What the block does while it has no new command to accept: an `INIT_DEC` in flight goes on with its slice; a
response that waits stays as it is, and an idle block changes nothing (10_state.md R23). -/
def proceed (s : State) : State :=
  match s.transfer with
  | some t => receiveSlice t.nbytes t.taken s
  | none => s

/-- `rst` (70_reset_and_hazards.md R170, 10_state.md R22): no pass, no octet with a value, a command in flight is
dropped without a response, octets on `din` are not taken. -/
def applyRst (s : State) : State :=
  { s with
    buffer := []
    bitPosition := 0
    bitLength := 0
    mode := .none
    response := none
    transfer := none }

/-- The octets `buffer[k] .. buffer[k + n - 1]`, if all hold values. -/
def octetsFrom (m : Memory) (k : Nat) : Nat → Option (List Octet)
  | 0 => some []
  | n + 1 =>
    match octetAt m k, octetsFrom m (k + 1) n with
    | some o, some os => some (o :: os)
    | _, _ => none

/-- `MemRead(addr, n)`, the read-out port (43_construction.md R134): defined when no command is in flight and only
below `ceil(bit_length / 8)`; elsewhere no value. It changes no state. -/
def memRead (addr n : Nat) (s : State) : Option (List Octet) :=
  if inFlight s = false ∧ addr + n ≤ octets s.bitLength then octetsFrom s.buffer addr n else none

end Sys2Proof.Machine
end

