-- ==== Sys2Proof/Machine/Codec.lean ====
section
/-! DEFINITION. The bodies that commands call inside one command (41_whole_number.md R91, 42_length_determinant.md
R111): the bands of the constrained whole number, the constrained and unconstrained length determinants, and the
octets of the semi-constrained and unconstrained whole numbers. The mutual call of `DEC_CWN` and `DEC_CLEN` is one
level deep (R91) and is written out: `CLEN` admits only ranges below 65536, where `CWN` takes one of its bands 1
to 3 (log entry 11). -/

namespace Sys2Proof.Machine

open Sys2Proof

/-! ### Decode side -/

/-- The raw value of bands 1 to 3 (41_whole_number.md R93, R95): `range < 256`, `= 256`, `257 .. 65535`. -/
def readShortBand (r : Nat) (s : State) : Res Nat :=
  if r < 256 then readBits (bitsNeededForRange r) s
  else if r = 256 then readBits 8 (align s)
  else readBits 16 (align s)

/-- `DEC_CWN` for a range below 65536: bands 1 to 3 (41_whole_number.md R95). -/
def decCwnShort (lb ub : Int) (s : State) : Res Int :=
  if ¬RangeOK (range lb ub) then .raised .invalidRange s
  else (readShortBand (range lb ub).toNat s).bind fun raw s => addLb raw lb s

/-- The body of `DEC_CLEN` (42_length_determinant.md R112). -/
def decClen (lb ub : Int) (s : State) : Res Int :=
  if range lb ub ≥ 65536 then .raised .unsupportedRange s else decCwnShort lb ub s

/-- The raw value of band 4 (41_whole_number.md R95): the length field, alignment, `(length + 1) * 8` bits. -/
def readLongBand (r : Nat) (s : State) : Res Nat :=
  (decClen 1 (bytesNeeded r) s).bind fun length s => readBits ((length.toNat + 1) * 8) (align s)

/-- The body of `DEC_CWN` (41_whole_number.md R95). -/
def decCwn (lb ub : Int) (s : State) : Res Int :=
  if ¬RangeOK (range lb ub) then .raised .invalidRange s
  else
    (if range lb ub < 65536 then readShortBand (range lb ub).toNat s
      else readLongBand (range lb ub).toNat s).bind fun raw s => addLb raw lb s

/-- The body of `DEC_ULEN` (42_length_determinant.md R113). -/
def decUlen (s : State) : Res Nat :=
  (readBit (align s)).bind fun b1 s =>
    if b1 = false then readBits 7 s
    else
      (readBit s).bind fun b2 s =>
        if b2 = true then readBits 14 s
        else
          (readBits 6 s).bind fun m s =>
            if m < 1 ∨ m > 4 then .raised .invalidLengthMultiplier s else .done (m * fragmentUnit) s

/-- The body of `DEC_NSLEN` (42_length_determinant.md R110). -/
def decNslen (s : State) : Res Nat :=
  (readBit s).bind fun b s =>
    if b = false then (readBits 6 s).bind fun v s => .done (v + 1) s else decUlen s

/-- The value octets behind an unconstrained length determinant (41_whole_number.md R96, R97). -/
def readCountedOctets (s : State) : Res Nat := (decUlen s).bind fun length s => readBits (length * 8) s

/-- The body of `DEC_SCWN` (41_whole_number.md R96). -/
def decScwn (lb : Int) (s : State) : Res Int := (readCountedOctets s).bind fun raw s => addLb raw lb s

/-! ### Encode side -/

/-- Bands 1 to 3 of the value field (41_whole_number.md R93, R98). -/
def writeShortBand (r v : Nat) (s : State) : Res Unit :=
  if r < 256 then writeBits (bitsNeededForRange r) v s
  else if r = 256 then (writeAlign s).bind fun _ s => writeBits 8 v s
  else (writeAlign s).bind fun _ s => writeBits 16 v s

/-- `ENC_CWN` for a range below 65536: bands 1 to 3 (41_whole_number.md R98). -/
def encCwnShort (value lb ub : Int) (s : State) : Res Unit :=
  if ¬RangeOK (range lb ub) then .raised .invalidRange s
  else if value < lb ∨ value > ub then .raised .valueOutOfRange s
  else writeShortBand (range lb ub).toNat (value - lb).toNat s

/-- The body of `ENC_CLEN` (42_length_determinant.md R115). -/
def encClen (value lb ub : Int) (s : State) : Res Unit :=
  if range lb ub ≥ 65536 then .raised .unsupportedRange s else encCwnShort value lb ub s

/-- Band 4 of the value field (41_whole_number.md R98): the length `o - 1`, alignment, `8 * o` bits. -/
def writeLongBand (r v : Nat) (s : State) : Res Unit :=
  (encClen ((longBandOctets v : Int) - 1) 1 (bytesNeeded r) s).bind fun _ s =>
    (writeAlign s).bind fun _ s => writeBits (8 * longBandOctets v) v s

/-- The body of `ENC_CWN` (41_whole_number.md R98). -/
def encCwn (value lb ub : Int) (s : State) : Res Unit :=
  if ¬RangeOK (range lb ub) then .raised .invalidRange s
  else if value < lb ∨ value > ub then .raised .valueOutOfRange s
  else if range lb ub < 65536 then writeShortBand (range lb ub).toNat (value - lb).toNat s
  else writeLongBand (range lb ub).toNat (value - lb).toNat s

/-- The body of `ENC_ULEN` (42_length_determinant.md R116). -/
def encUlen (l : Nat) (s : State) : Res Unit :=
  if ¬ULenOK l then .raised .valueOutOfRange s
  else
    (writeAlign s).bind fun _ s =>
      if l ≤ 127 then (writeBit false s).bind fun _ s => writeBits 7 l s
      else if l ≤ 16383 then
        (writeBit true s).bind fun _ s => (writeBit true s).bind fun _ s => writeBits 14 l s
      else
        (writeBit true s).bind fun _ s =>
          (writeBit false s).bind fun _ s => writeBits 6 (l / fragmentUnit) s

/-- The body of `ENC_NSLEN` (42_length_determinant.md R114). -/
def encNslen (value : Nat) (s : State) : Res Unit :=
  if value = 0 then .raised .valueOutOfRange s
  else if value > 64 ∧ ¬ULenOK value then .raised .valueOutOfRange s
  else if value ≤ 64 then (writeBit false s).bind fun _ s => writeBits 6 (value - 1) s
  else (writeBit true s).bind fun _ s => encUlen value s

/-- An unconstrained length determinant and the octets of an unsigned number (41_whole_number.md R99, R100). -/
def writeCountedOctets (v : Nat) (s : State) : Res Unit :=
  (encUlen (minOctets v) s).bind fun _ s => writeBits (8 * minOctets v) v s

/-- The body of `ENC_SCWN` (41_whole_number.md R99). -/
def encScwn (value lb : Int) (s : State) : Res Unit :=
  if value < lb then .raised .valueOutOfRange s else writeCountedOctets (value - lb).toNat s

end Sys2Proof.Machine
end

