-- ==== Sys2Proof/Machine/BitCursor.lean ====
section
/-! DEFINITION. The Bit Cursor commands (40_bit_cursor.md R78 to R84). -/

namespace Sys2Proof.Machine

open Sys2Proof

/-- `DEC_BOOL` (40_bit_cursor.md R78): result 1 for a set bit, 0 for a clear one. -/
def execDecBool (s : State) : Host.Outcome State Fault Refusal :=
  command .dec (fun s => ((readBit s).bind fun b s => .done b.toNat s).yieldNat) s

/-- `DEC_BITS n` (40_bit_cursor.md R79). -/
def execDecBits (n : Nat) (s : State) : Host.Outcome State Fault Refusal :=
  command .dec (fun s => (readBits n s).yieldNat) s

/-- `DEC_ALIGN` (40_bit_cursor.md R80). -/
def execDecAlign (s : State) : Host.Outcome State Fault Refusal :=
  command .dec (fun s => .done none (align s)) s

/-- The body of `ADVANCE` (40_bit_cursor.md R81): with `f = 0` and too few bits it ends `OK`, and
`ADVANCE_SOFT_POLICY` says where the position is. -/
def advanceBody (count : Nat) (f : Bool) (s : State) : Res Unit :=
  if f = true ∨ s.bitPosition + count ≤ s.bitLength then skip count s
  else
    match s.softPolicy with
    | .hold => .done () s
    | .clamp => .done () (setPos s.bitLength s)

/-- `ADVANCE count, f` (40_bit_cursor.md R81). -/
def execAdvance (count : Nat) (f : Bool) (s : State) : Host.Outcome State Fault Refusal :=
  command .dec (fun s => (advanceBody count f s).yieldNone) s

/-- `ENC_BOOL f` (40_bit_cursor.md R82). -/
def execEncBool (f : Bool) (s : State) : Host.Outcome State Fault Refusal :=
  command .enc (fun s => (writeBit f s).yieldNone) s

/-- `ENC_BITS n, value` (40_bit_cursor.md R83). -/
def execEncBits (n value : Nat) (s : State) : Host.Outcome State Fault Refusal :=
  command .enc (fun s => (writeBits n value s).yieldNone) s

/-- `ENC_ALIGN` (40_bit_cursor.md R84). -/
def execEncAlign (s : State) : Host.Outcome State Fault Refusal :=
  command .enc (fun s => (writeAlign s).yieldNone) s

end Sys2Proof.Machine
end

