-- ==== Sys2Proof/Machine/Construction.lean ====
section
/-! DEFINITION. The construction commands (43_construction.md R130, R131): legal in every mode, they start a
pass. -/

namespace Sys2Proof.Machine

open Sys2Proof

/-- `INIT_DEC [slice]` (43_construction.md R130): the capacity test, before any octet is taken; then the slice. -/
def execInitDec (nbytes : Nat) (s : State) : Host.Outcome State Fault Refusal :=
  if nbytes > s.capBytes then .next (raiseError .outOfBits s) else .next (receiveSlice nbytes [] s)

/-- `INIT_ENC` (43_construction.md R131). -/
def execInitEnc (s : State) : Host.Outcome State Fault Refusal :=
  .next (endOk none { s with bitLength := 0, bitPosition := 0, mode := .enc })

end Sys2Proof.Machine
end

