-- ==== Sys2Proof/Machine/LengthDeterminant.lean ====
section
/-! DEFINITION. The Length-Determinant Codec commands (42_length_determinant.md R110 to R116). -/

namespace Sys2Proof.Machine

open Sys2Proof

/-- `DEC_NSLEN` (42_length_determinant.md R110). -/
def execDecNslen (s : State) : Host.Outcome State Fault Refusal :=
  command .dec (fun s => (decNslen s).yieldNat) s

/-- `DEC_CLEN lb, ub` (42_length_determinant.md R112). -/
def execDecClen (lb ub : Int) (s : State) : Host.Outcome State Fault Refusal :=
  command .dec (fun s => (decClen lb ub s).yieldInt) s

/-- `DEC_ULEN` (42_length_determinant.md R113). -/
def execDecUlen (s : State) : Host.Outcome State Fault Refusal :=
  command .dec (fun s => (decUlen s).yieldNat) s

/-- `ENC_NSLEN value` (42_length_determinant.md R114). -/
def execEncNslen (value : Nat) (s : State) : Host.Outcome State Fault Refusal :=
  command .enc (fun s => (encNslen value s).yieldNone) s

/-- `ENC_CLEN value, lb, ub` (42_length_determinant.md R115). -/
def execEncClen (value lb ub : Int) (s : State) : Host.Outcome State Fault Refusal :=
  command .enc (fun s => (encClen value lb ub s).yieldNone) s

/-- `ENC_ULEN value` (42_length_determinant.md R116). -/
def execEncUlen (value : Nat) (s : State) : Host.Outcome State Fault Refusal :=
  command .enc (fun s => (encUlen value s).yieldNone) s

end Sys2Proof.Machine
end

