-- ==== Sys2Proof/Machine/WholeNumber.lean ====
section
/-! DEFINITION. The Whole-Number Codec commands (41_whole_number.md R95 to R100). -/

namespace Sys2Proof.Machine

open Sys2Proof

/-- `DEC_CWN lb, ub` (41_whole_number.md R95). -/
def execDecCwn (lb ub : Int) (s : State) : Host.Outcome State Fault Refusal :=
  command .dec (fun s => (decCwn lb ub s).yieldInt) s

/-- `DEC_SCWN lb` (41_whole_number.md R96). -/
def execDecScwn (lb : Int) (s : State) : Host.Outcome State Fault Refusal :=
  command .dec (fun s => (decScwn lb s).yieldInt) s

/-- `DEC_UWN` (41_whole_number.md R97): the raw value, no `AddLb`. -/
def execDecUwn (s : State) : Host.Outcome State Fault Refusal :=
  command .dec (fun s => (readCountedOctets s).yieldNat) s

/-- `ENC_CWN value, lb, ub` (41_whole_number.md R98). -/
def execEncCwn (value lb ub : Int) (s : State) : Host.Outcome State Fault Refusal :=
  command .enc (fun s => (encCwn value lb ub s).yieldNone) s

/-- `ENC_SCWN value, lb` (41_whole_number.md R99). -/
def execEncScwn (value lb : Int) (s : State) : Host.Outcome State Fault Refusal :=
  command .enc (fun s => (encScwn value lb s).yieldNone) s

/-- `ENC_UWN value` (41_whole_number.md R100). -/
def execEncUwn (value : Nat) (s : State) : Host.Outcome State Fault Refusal :=
  command .enc (fun s => (writeCountedOctets value s).yieldNone) s

end Sys2Proof.Machine
end

