-- ==== Sys2Proof/Machine/Dispatch.lean ====
section
/-! DEFINITION. Which meaning each command has (30_encoding.md R54), one arm per constructor. -/

namespace Sys2Proof.Machine

open Sys2Proof

/-- The whole effect of one accepted command and its response. -/
def exec (i : Instr) (s : State) : Host.Outcome State Fault Refusal :=
  match i with
  | .initDec nbytes => Sys2Proof.Machine.execInitDec nbytes s
  | .initEnc => Sys2Proof.Machine.execInitEnc s
  | .decBool => Sys2Proof.Machine.execDecBool s
  | .decBits n => Sys2Proof.Machine.execDecBits n s
  | .decAlign => Sys2Proof.Machine.execDecAlign s
  | .decNslen => Sys2Proof.Machine.execDecNslen s
  | .decClen lb ub => Sys2Proof.Machine.execDecClen lb ub s
  | .decUlen => Sys2Proof.Machine.execDecUlen s
  | .decCwn lb ub => Sys2Proof.Machine.execDecCwn lb ub s
  | .decScwn lb => Sys2Proof.Machine.execDecScwn lb s
  | .decUwn => Sys2Proof.Machine.execDecUwn s
  | .advance count f => Sys2Proof.Machine.execAdvance count f s
  | .encBool f => Sys2Proof.Machine.execEncBool f s
  | .encBits n value => Sys2Proof.Machine.execEncBits n value s
  | .encAlign => Sys2Proof.Machine.execEncAlign s
  | .encNslen value => Sys2Proof.Machine.execEncNslen value s
  | .encClen value lb ub => Sys2Proof.Machine.execEncClen value lb ub s
  | .encUlen value => Sys2Proof.Machine.execEncUlen value s
  | .encCwn value lb ub => Sys2Proof.Machine.execEncCwn value lb ub s
  | .encScwn value lb => Sys2Proof.Machine.execEncScwn value lb s
  | .encUwn value => Sys2Proof.Machine.execEncUwn value s

end Sys2Proof.Machine
end

