-- ==== Sys2Proof/Machine/Accept.lean ====
section
/-! DEFINITION. How the block meets the host (30_encoding.md R50, 43_construction.md R133, R135, 70_reset_and_hazards.md
R170, R172): accepting a command, handing over a response, `rst`, and going on with a slice. -/

namespace Sys2Proof.Machine

open Sys2Proof

/-- An accepted command word: its instruction, or `IllegalCommand` (30_encoding.md R56, 40_bit_cursor.md R77). -/
def runCommand (c : Command) (s : State) : Host.Outcome State Fault Refusal :=
  match decode c with
  | .ok i => exec i s
  | .error _ => .next (raiseError .illegalCommand s)

/-- The host's queue without its first entry. -/
def dequeue (rest : List HostInput) (s : State) : State := { s with hostQueue := rest }

/-- The host takes the response (30_encoding.md R50: the command is then no longer in flight). -/
def clearResponse (s : State) : State := { s with response := none }

/-- One step of the block with what the host does next. A command is accepted when none is in flight
(70_reset_and_hazards.md R172); until then it waits, and an `INIT_DEC` in flight goes on with its slice. The host's
taking of a response waits for an `INIT_DEC` in flight to answer. `rst` acts at once. -/
def hostStep (s : State) : Host.Outcome State Fault Refusal :=
  match s.hostQueue with
  | [] => .next (proceed s)
  | .rst :: rest => .next (applyRst (dequeue rest s))
  | .takeResponse :: rest =>
    if s.transfer.isSome then .next (proceed s) else .next (clearResponse (dequeue rest s))
  | .command c :: rest => if inFlight s then .next (proceed s) else runCommand c (dequeue rest s)

/-- The host presents the command `c` before anything else it has queued, and no command is in flight. -/
def presenting (c : Command) (s : State) : State :=
  { s with hostQueue := .command c :: s.hostQueue, response := none, transfer := none }

end Sys2Proof.Machine
end

