-- ==== Sys2Proof/Machine/Step.lean ====
section
/-! DEFINITION. The step of the machine, and how one instruction is placed before it. -/

namespace Sys2Proof.Machine

open Sys2Proof

/-- One step: one accepted command whole (70_reset_and_hazards.md R179), one event of the host, or one more try of
an `INIT_DEC` that waits for its slice. -/
def step (s : State) : Host.Outcome State Fault Refusal := hostStep s

/-- The state in which the next step accepts the command whose low `nbits` bits are those of `w` (its other bits 0):
the host presents it next and no command is in flight (log entry 6). -/
def State.withFetchWord (s : State) (nbits w : Nat) : State := presenting (commandOfBits (w % 2 ^ nbits)) s

end Sys2Proof.Machine
end

