-- ==== Sys2Proof/Safety.lean ====
section
/-! DEFINITION. What counts as a good state and a good run, in the terms statements use: the invariant
(10_state.md R13, R15, R22), the columns of the opcode map (30_encoding.md R54), the statuses a command can end with
(60_exceptions.md R160), and the decode side of an encode run (40_bit_cursor.md R85, 41_whole_number.md R101,
42_length_determinant.md R118). -/

namespace Sys2Proof.Machine

open Sys2Proof

/-- The invariant every step keeps. -/
structure Inv (s : State) : Prop where
  /-- `CAP_BYTES >= 1` (00_scope.md R5). -/
  capPositive : 1 ≤ s.capBytes
  /-- `bit_position <= bit_length` (10_state.md R13). -/
  posLeLen : s.bitPosition ≤ s.bitLength
  /-- `bit_length <= CAP_BITS` (10_state.md R13). -/
  lenLeCap : s.bitLength ≤ capBits s
  /-- The buffer has its canonical form. -/
  bufferWf : Memory.wf s.buffer
  /-- No octet beyond the capacity exists (10_state.md R10, 20_memory.md R40). -/
  bufferInCap : ∀ k, s.capBytes ≤ k → octetAt s.buffer k = none
  /-- Every octet below `ceil(bit_length / 8)` holds a value (10_state.md R22). -/
  octetsHold : ∀ k, k < octets s.bitLength → (octetAt s.buffer k).isSome = true
  /-- Without a pass there is no length (10_state.md R22). -/
  nonePass : s.mode = .none → s.bitLength = 0
  /-- In mode `DEC` the length is a whole number of octets (10_state.md R12). -/
  decOctets : s.mode = .dec → s.bitLength % 8 = 0
  /-- In mode `ENC` the cursor stands at the end of what is written (10_state.md R15). -/
  encAtEnd : s.mode = .enc → s.bitLength = s.bitPosition
  /-- In mode `ENC` the bits of the last octet behind the length are 0 (10_state.md R15). -/
  encTailZero : s.mode = .enc → ∀ i, s.bitLength ≤ i → i < alignUp s.bitLength → bitAt s.buffer i = some false
  /-- An `INIT_DEC` in flight fits the buffer, still wants octets, and has no response (43_construction.md R133). -/
  transferOpen : ∀ t, s.transfer = some t →
    t.nbytes ≤ s.capBytes ∧ t.taken.length < t.nbytes ∧ s.response = none
  /-- A response that is not `OK` carries no result (30_encoding.md R55). -/
  noResultOnError : ∀ r, s.response = some r → r.status ≠ .ok → r.result = none

/-- The "mode needed" column of the opcode map (30_encoding.md R54); none for "any". -/
def modeNeeded : Instr → Option Mode
  | .initDec _ => none
  | .initEnc => none
  | .decBool => some .dec
  | .decBits _ => some .dec
  | .decAlign => some .dec
  | .decNslen => some .dec
  | .decClen _ _ => some .dec
  | .decUlen => some .dec
  | .decCwn _ _ => some .dec
  | .decScwn _ => some .dec
  | .decUwn => some .dec
  | .advance _ _ => some .dec
  | .encBool _ => some .enc
  | .encBits _ _ => some .enc
  | .encAlign => some .enc
  | .encNslen _ => some .enc
  | .encClen _ _ _ => some .enc
  | .encUlen _ => some .enc
  | .encCwn _ _ _ => some .enc
  | .encScwn _ _ => some .enc
  | .encUwn _ => some .enc

/-- The "result" column of the opcode map (30_encoding.md R54): the command has a result. -/
def hasResult : Instr → Bool
  | .initDec _ => false
  | .initEnc => false
  | .decBool => true
  | .decBits _ => true
  | .decAlign => false
  | .decNslen => true
  | .decClen _ _ => true
  | .decUlen => true
  | .decCwn _ _ => true
  | .decScwn _ => true
  | .decUwn => true
  | .advance _ _ => false
  | .encBool _ => false
  | .encBits _ _ => false
  | .encAlign => false
  | .encNslen _ => false
  | .encClen _ _ _ => false
  | .encUlen _ => false
  | .encCwn _ _ _ => false
  | .encScwn _ _ => false
  | .encUwn _ => false

/-- The errors a command can end with (60_exceptions.md R160); `OK` is possible for every command. -/
def possibleErrors : Instr → List Status
  | .initDec _ => [.outOfBits]
  | .initEnc => []
  | .decBool => [.outOfBits, .wrongMode]
  | .decBits _ => [.outOfBits, .widthTooLarge, .wrongMode]
  | .decAlign => [.wrongMode]
  | .advance _ _ => [.outOfBits, .wrongMode]
  | .decNslen => [.outOfBits, .invalidLengthMultiplier, .wrongMode]
  | .decClen _ _ => [.outOfBits, .invalidRange, .unsupportedRange, .valueOverflow, .wrongMode]
  | .decUlen => [.outOfBits, .invalidLengthMultiplier, .wrongMode]
  | .decCwn _ _ => [.outOfBits, .invalidRange, .widthTooLarge, .valueOverflow, .wrongMode]
  | .decScwn _ => [.outOfBits, .invalidLengthMultiplier, .widthTooLarge, .valueOverflow, .wrongMode]
  | .decUwn => [.outOfBits, .invalidLengthMultiplier, .widthTooLarge, .wrongMode]
  | .encBool _ => [.outOfBits, .wrongMode]
  | .encBits _ _ => [.outOfBits, .widthTooLarge, .valueOutOfRange, .wrongMode]
  | .encAlign => [.wrongMode]
  | .encNslen _ => [.outOfBits, .valueOutOfRange, .wrongMode]
  | .encClen _ _ _ => [.outOfBits, .invalidRange, .unsupportedRange, .valueOutOfRange, .wrongMode]
  | .encUlen _ => [.outOfBits, .valueOutOfRange, .wrongMode]
  | .encCwn _ _ _ => [.outOfBits, .invalidRange, .valueOutOfRange, .wrongMode]
  | .encScwn _ _ => [.outOfBits, .valueOutOfRange, .wrongMode]
  | .encUwn _ => [.outOfBits, .wrongMode]

/-- The decode command that reads back what an encode command writes (30_encoding.md R54: the opcode less `0x10`);
none for the others. -/
def mirror : Instr → Option Instr
  | .encBool _ => some .decBool
  | .encBits n _ => some (.decBits n)
  | .encAlign => some .decAlign
  | .encNslen _ => some .decNslen
  | .encClen _ lb ub => some (.decClen lb ub)
  | .encUlen _ => some .decUlen
  | .encCwn _ lb ub => some (.decCwn lb ub)
  | .encScwn _ lb => some (.decScwn lb)
  | .encUwn _ => some .decUwn
  | .initDec _ => none
  | .initEnc => none
  | .decBool => none
  | .decBits _ => none
  | .decAlign => none
  | .decNslen => none
  | .decClen _ _ => none
  | .decUlen => none
  | .decCwn _ _ => none
  | .decScwn _ => none
  | .decUwn => none
  | .advance _ _ => none

/-- The result the mirror of an encode command must give: the value that was encoded. -/
def encodedValue : Instr → Option Pattern
  | .encBool f => some (pat f.toNat)
  | .encBits _ value => some (pat value)
  | .encAlign => none
  | .encNslen value => some (pat value)
  | .encClen value _ _ => some (pat value)
  | .encUlen value => some (pat value)
  | .encCwn value _ _ => some (pat value)
  | .encScwn value _ => some (pat value)
  | .encUwn value => some (pat value)
  | .initDec _ => none
  | .initEnc => none
  | .decBool => none
  | .decBits _ => none
  | .decAlign => none
  | .decNslen => none
  | .decClen _ _ => none
  | .decUlen => none
  | .decCwn _ _ => none
  | .decScwn _ => none
  | .decUwn => none
  | .advance _ _ => none

/-! ### Formats (30_encoding.md R52, R54) -/

/-- Which fields of a command word a format reads (30_encoding.md R52): `n`, `f`, `A`, `B`, `V`. -/
structure Format where
  n : Bool := false
  f : Bool := false
  a : Bool := false
  b : Bool := false
  v : Bool := false
  deriving DecidableEq, Repr

/-- The "format" column of the opcode map (30_encoding.md R54), as the fields R52 says it reads. -/
def formatOf : Instr → Format
  | .initDec _ => { a := true }
  | .initEnc => {}
  | .decBool => {}
  | .decBits _ => { n := true }
  | .decAlign => {}
  | .decNslen => {}
  | .decClen _ _ => { a := true, b := true }
  | .decUlen => {}
  | .decCwn _ _ => { a := true, b := true }
  | .decScwn _ => { a := true }
  | .decUwn => {}
  | .advance _ _ => { f := true, a := true }
  | .encBool _ => { f := true }
  | .encBits _ _ => { n := true, v := true }
  | .encAlign => {}
  | .encNslen _ => { v := true }
  | .encClen _ _ _ => { a := true, b := true, v := true }
  | .encUlen _ => { v := true }
  | .encCwn _ _ _ => { a := true, b := true, v := true }
  | .encScwn _ _ => { a := true, v := true }
  | .encUwn _ => { v := true }

/-- The opcodes that no row of the opcode map has (30_encoding.md R56). -/
abbrev UnlistedOpcode (op : Nat) : Prop :=
  op = 0x00 ∨ (0x03 ≤ op ∧ op ≤ 0x0F) ∨ (0x1A ≤ op ∧ op ≤ 0x1F) ∨ 0x29 ≤ op

/-- A header that matches no row (30_encoding.md R56): bits 31:17 not all 0, or an unlisted opcode in bits 7:0. -/
abbrev IllegalHeader (h : Header) : Prop := h.toNat / 2 ^ 17 ≠ 0 ∨ UnlistedOpcode (h.toNat % 2 ^ 8)

/-! ### What stands in the buffer -/

/-- The unconstrained length determinant that begins at octet `k`, by the table of first octets
(42_length_determinant.md R113): the length and how many octets it takes; none for a bad multiplier or where an octet
has no value. -/
def lengthAt (m : Memory) (k : Nat) : Option (Nat × Nat) :=
  match octetAt m k with
  | none => none
  | some o =>
    if o.toNat ≤ 0x7F then some (o.toNat, 1)
    else if 0xC0 ≤ o.toNat then (octetAt m (k + 1)).map fun o' => (o.toNat % 64 * 256 + o'.toNat, 2)
    else if 0x81 ≤ o.toNat ∧ o.toNat ≤ 0x84 then some (o.toNat % 64 * 16384, 1)
    else none

/-- The octets of the shortest form of a length (42_length_determinant.md R116). -/
def lengthOctets (l : Nat) : Nat := if 128 ≤ l ∧ l ≤ 16383 then 2 else 1

/-- `t` is `s` after an encode command that ended `OK` with the cursor at `q`: the bits below the old cursor, every
octet wholly below it and every octet at or beyond `ceil(q / 8)` are as before (that the latter keep what they held is
the model's choice, log entry 5); nothing else but the length, which follows the cursor, and the response has changed
(10_state.md R15). -/
structure WroteTo (s t : State) (q : Nat) : Prop where
  only : t = { s with buffer := t.buffer, bitPosition := q, bitLength := q, response := some ⟨.ok, none⟩ }
  bitsBelow : ∀ i, i < s.bitPosition → bitAt t.buffer i = bitAt s.buffer i
  octetsBelow : ∀ k, k < s.bitPosition / 8 → octetAt t.buffer k = octetAt s.buffer k
  octetsBeyond : ∀ k, octets q ≤ k → octetAt t.buffer k = octetAt s.buffer k

/-- The bits from offset `p` up to `q` are pad bits: all 0 (40_bit_cursor.md R75). -/
def PadZero (m : Memory) (p q : Nat) : Prop := ∀ i, p ≤ i → i < q → bitAt m i = some false

/-! ### Runs -/

/-- `d` is a decode pass whose cursor stands at `p` and whose slice begins with every bit the encode pass `t` has
written (40_bit_cursor.md R85, 41_whole_number.md R101). -/
structure ReadsBack (t d : State) (p : Nat) : Prop where
  mode : d.mode = .dec
  position : d.bitPosition = p
  length : t.bitLength ≤ d.bitLength
  bits : ∀ i, i < t.bitLength → bitAt d.buffer i = bitAt t.buffer i

/-- Run commands one after another, each ending `OK`: each command's result and the position after it, and the last
state. -/
def runOk : List Instr → State → Option (List (Option Pattern × Nat) × State)
  | [], s => some ([], s)
  | i :: is, s =>
    match exec i s with
    | .next t =>
      match t.response with
      | some ⟨.ok, r⟩ => (runOk is t).map fun x => ((r, t.bitPosition) :: x.1, x.2)
      | _ => none
    | _ => none

end Sys2Proof.Machine
end

