-- ==== Sys2Proof/Certificates/Slice0/Obligations.lean ====
section
/-! DEFINITION. The statements about the model for the provers. Each docstring names the rule or the section of spec/
it formalises. A statement about a next state that writes it as `{ s with … }` is at once the statement of its frame:
every field not named is unchanged. -/

open Sys2Proof Sys2Proof.Machine

/-! ### Encoding -/

/-- 30_encoding.md sections 2, 3 and 6: the decoder reads back every well-formed instruction from its command word, with
every operand at every value the word admits. -/
def Obligations.DecodeOfEncodeIsTheInstruction : Prop :=
  ∀ i : Instr, WellFormed i → decode (encode i) = .ok i

/-- 30_encoding.md R57: fields the format does not read never change what a command word is, and an `n` of 129 to 255
is no illegal encoding but a command that raises `WidthTooLarge`. -/
def Obligations.DecodeIgnoresUnreadFields : Prop :=
  (∀ (c c' : Command) (i : Instr), decode c = .ok i →
    hdrOpcode c'.hdr = hdrOpcode c.hdr → hdrZero c'.hdr = hdrZero c.hdr →
    ((formatOf i).n = true → hdrN c'.hdr = hdrN c.hdr) → ((formatOf i).f = true → hdrF c'.hdr = hdrF c.hdr) →
    ((formatOf i).a = true → c'.a = c.a) → ((formatOf i).b = true → c'.b = c.b) →
    ((formatOf i).v = true → c'.v = c.v) → decode c' = .ok i) ∧
  (∀ (c : Command) (s : State), hdrZero c.hdr = 0 → 129 ≤ hdrN c.hdr →
    (hdrOpcode c.hdr = 0x11 → s.mode = .dec →
      decode c = .ok (.decBits (hdrN c.hdr)) ∧
        exec (.decBits (hdrN c.hdr)) s = .next { s with response := some ⟨.widthTooLarge, none⟩ }) ∧
    (hdrOpcode c.hdr = 0x21 → s.mode = .enc →
      decode c = .ok (.encBits (hdrN c.hdr) (u128 c.v)) ∧
        exec (.encBits (hdrN c.hdr) (u128 c.v)) s = .next { s with response := some ⟨.widthTooLarge, none⟩ }))

/-- 30_encoding.md R56: a header that matches no row answers `IllegalCommand`; nothing but the response changes, and no
octet of `din` is taken. A header that matches a row is decoded to a well-formed instruction of that row's opcode. -/
def Obligations.IllegalHeaderAnswersIllegalCommand : Prop :=
  (∀ (s : State) (c : Command) (rest : List HostInput), s.hostQueue = .command c :: rest → inFlight s = false →
    IllegalHeader c.hdr →
    step s = .next { s with hostQueue := rest, response := some ⟨.illegalCommand, none⟩ }) ∧
  (∀ c : Command, ¬IllegalHeader c.hdr →
    ∃ i, decode c = .ok i ∧ WellFormed i ∧ opcodeOf i = c.hdr.toNat % 2 ^ 8)

/-- 95_test_vectors.md section 5 (C9, C10, C12, C19, C24) and section 7 (P1 step 7): command words written out there
decode to the commands they stand for. -/
def Obligations.WrittenOutWordsDecode : Prop :=
  decode ⟨0x00015510, -1, 0, 0⟩ = .ok .decBool ∧
  decode ⟨0x00020010, 0, 0, 0⟩ = .error .reservedBitsSet ∧
  decode ⟨0x00000003, 0, 0, 0⟩ = .error (.unlistedOpcode 3) ∧
  decode ⟨0x00000821, 0, 0, 0xAB⟩ = .ok (.encBits 8 0xAB) ∧
  decode ⟨0x00000016, 9, 9, 0⟩ = .ok (.decCwn 9 9) ∧
  decode ⟨0x00000026, 0, 0xFA00, 0x3E8⟩ = .ok (.encCwn 1000 0 64000) ∧
  decode ⟨0x00010019, 0xC, 0, 0⟩ = .ok (.advance 12 true)

/-! ### The step and the host -/

/-- 00_scope.md section 4 and 20_memory.md section 6: an accepted command runs whole as one step; around it the step
does nothing but take the command from the host's list. That list is the model's own (log entry 6). -/
def Obligations.StepRunsDecodedCommand : Prop :=
  ∀ (s : State) (c : Command) (rest : List HostInput) (i : Instr), s.hostQueue = .command c :: rest →
    inFlight s = false → decode c = .ok i → step s = exec i { s with hostQueue := rest }

/-- 30_encoding.md section 1 and 70_reset_and_hazards.md section 3: no command is accepted while a response waits; the
response waits until the host takes it, and taking it changes nothing else. How the host's taking is an entry of its
list is the model's choice (log entry 8). -/
def Obligations.ResponseWaitsForTheHost : Prop :=
  ∀ (s : State) (r : Response), s.response = some r → s.transfer = none →
    (s.hostQueue = [] → step s = .next s) ∧
    (∀ c rest, s.hostQueue = .command c :: rest → step s = .next s) ∧
    (∀ rest, s.hostQueue = .takeResponse :: rest →
      step s = .next { s with hostQueue := rest, response := none })

/-- 70_reset_and_hazards.md section 1: `rst` leaves no pass and nothing in flight and takes no octet from `din`, also
when an `INIT_DEC` waits. That no octet holds a value afterwards is the model's form of "unspecified" (log entries 3
and 4). -/
def Obligations.RstLeavesNoPassAndNothingInFlight : Prop :=
  ∀ (s : State) (rest : List HostInput), s.hostQueue = .rst :: rest →
    ∃ t, step s = .next t ∧ t.mode = .none ∧ t.bitPosition = 0 ∧ t.bitLength = 0 ∧ inFlight t = false ∧
      (∀ k, octetAt t.buffer k = none) ∧ t.din = s.din ∧ t.hostQueue = rest ∧ t.capBytes = s.capBytes ∧
      t.softPolicy = s.softPolicy

/-- 10_state.md section 3: the reset state has no pass, cursor and length 0, and nothing in flight. That no octet
holds a value is the model's form of "unspecified" (log entry 3). -/
def Obligations.ResetHasNoPass : Prop :=
  State.reset.mode = .none ∧ State.reset.bitPosition = 0 ∧ State.reset.bitLength = 0 ∧
    State.reset.response = none ∧ State.reset.transfer = none ∧ ∀ k, octetAt State.reset.buffer k = none

/-- 10_state.md section 3, R13 and 00_scope.md section 3: the reset state meets the invariant. -/
def Obligations.ResetMeetsInv : Prop := Inv State.reset

/-! ### Invariants of every step -/

/-- 10_state.md R13, R12, R15, R22, 43_construction.md R133 and 30_encoding.md R55 together: whatever the host does,
every step from a state that meets the invariant leads to one that meets it. -/
def Obligations.StepKeepsInv : Prop :=
  ∀ s t : State, Inv s → step s = .next t → Inv t

/-- 60_exceptions.md R159: from a state that meets the invariant no step stops, whatever the command and its operands:
every accepted command gets its one response, with the one wait of `INIT_DEC` for octets of its slice. -/
def Obligations.NoCommandStopsTheBlock : Prop :=
  (∀ s : State, Inv s → ∃ t, step s = .next t) ∧
  (∀ (i : Instr) (s : State), Inv s → s.response = none → s.transfer = none →
    ∃ t, exec i s = .next t ∧
      (t.response.isSome = true ∨
        ∃ n, i = .initDec n ∧ n ≤ s.capBytes ∧ s.din.length < n ∧ t.transfer = some ⟨n, s.din⟩))

/-- 00_scope.md section 3 (`POS_W`) and 10_state.md section 1: the cursor and the length fit registers of `POS_W` bits,
the least width that holds `CAP_BITS`. -/
def Obligations.CursorFitsPosWBits : Prop :=
  ∀ s : State, Inv s →
    s.bitPosition < 2 ^ posW s ∧ s.bitLength < 2 ^ posW s ∧ ∀ w, capBits s < 2 ^ w → posW s ≤ w

/-- 10_state.md R11: `bit_position` never falls but at the start of a pass. -/
def Obligations.PositionNeverFallsWithinAPass : Prop :=
  ∀ (i : Instr) (s t : State), modeNeeded i ≠ none → s.bitPosition ≤ s.bitLength → exec i s = .next t →
    s.bitPosition ≤ t.bitPosition

/-- 43_construction.md R132: `mode` changes only by `rst`, by `INIT_ENC`, and by an `INIT_DEC` that ends `OK`. -/
def Obligations.ModeChangesOnlyAtConstruction : Prop :=
  ∀ s t : State, step s = .next t → t.mode ≠ s.mode →
    (t.mode = .none ∧ s.hostQueue.head? = some .rst) ∨
    (t.mode = .enc ∧ ∃ c, s.hostQueue.head? = some (.command c) ∧ decode c = .ok .initEnc) ∨
    (t.mode = .dec ∧ t.response = some ⟨.ok, none⟩ ∧
      (s.transfer.isSome = true ∨
        ∃ c n, s.hostQueue.head? = some (.command c) ∧ decode c = .ok (.initDec n)))

/-- 00_scope.md section 3 and 43_construction.md R133: no step changes a parameter of the machine, and `din` is taken
from only at its head, by an `INIT_DEC`. -/
def Obligations.ParametersAndSliceChannelFrame : Prop :=
  (∀ s t : State, step s = .next t → t.capBytes = s.capBytes ∧ t.softPolicy = s.softPolicy) ∧
  (∀ (i : Instr) (s t : State), exec i s = .next t →
    t.hostQueue = s.hostQueue ∧
      (t.din = s.din ∨ ∃ n, i = .initDec n ∧ n ≤ s.capBytes ∧ t.din = s.din.drop n))

/-! ### Frames -/

/-- 20_memory.md section 4: a decode command (`DEC_BOOL` to `ADVANCE`) changes nothing but the cursor and the response:
no octet of the buffer, not the length, not the mode. That this holds of octets behind the slice too is the model's
choice (log entry 5). -/
def Obligations.DecodeCommandsChangeOnlyTheCursor : Prop :=
  ∀ (i : Instr) (s t : State), modeNeeded i = some .dec → exec i s = .next t →
    t = { s with bitPosition := t.bitPosition, response := t.response }

/-- 10_state.md section 1 (R15) and 20_memory.md section 4: an encode command (`ENC_BOOL` to `ENC_UWN`) appends: it
stores at the cursor `s.bitPosition` and on up to the new cursor, whether it ends `OK` or with an error. Every bit
below the old cursor, every octet wholly below it, and every octet at or beyond `ceil(t.bitPosition / 8)` read as
before; nothing else but the length, which follows the cursor, and the response changes. The bits of the
last octet in use at or past the new cursor are 0. That the octets behind it keep what they held is the
model's choice (log entry 5). -/
def Obligations.EncodeCommandsOnlyAppend : Prop :=
  ∀ (i : Instr) (s t : State), modeNeeded i = some .enc → Inv s → s.mode = .enc → exec i s = .next t →
    t = { s with buffer := t.buffer, bitPosition := t.bitPosition, bitLength := t.bitPosition, response := t.response } ∧
      s.bitPosition ≤ t.bitPosition ∧
      (∀ j, j < s.bitPosition → bitAt t.buffer j = bitAt s.buffer j) ∧
      (∀ k, k < s.bitPosition / 8 → octetAt t.buffer k = octetAt s.buffer k) ∧
      (∀ j, t.bitPosition ≤ j → j < alignUp t.bitPosition → bitAt t.buffer j = some false) ∧
      (∀ k, octets t.bitPosition ≤ k → octetAt t.buffer k = octetAt s.buffer k)

/-! ### Errors -/

/-- 60_exceptions.md R148: a command in a mode other than the one it needs answers `WrongMode` and nothing else
changes. -/
def Obligations.WrongModeChangesNothing : Prop :=
  ∀ (i : Instr) (s : State) (m : Mode), modeNeeded i = some m → s.mode ≠ m →
    exec i s = .next { s with response := some ⟨.wrongMode, none⟩ }

/-- 60_exceptions.md section 1 (the table R160): a command ends with `OK` or with an error of its row. -/
def Obligations.CommandsEndOnlyWithTheirStatuses : Prop :=
  ∀ (i : Instr) (s t : State) (r : Response), WellFormed i → s.response = none → exec i s = .next t →
    t.response = some r → r.status = .ok ∨ r.status ∈ possibleErrors i

/-- 30_encoding.md section 4 (R55): a response carries a result exactly when it is `OK` and the command has one. -/
def Obligations.ResultExactlyWhenOkAndDefined : Prop :=
  ∀ (i : Instr) (s t : State) (r : Response), s.response = none → exec i s = .next t → t.response = some r →
    (r.result.isSome = true ↔ r.status = .ok ∧ hasResult i = true)

/-- 60_exceptions.md section 1 (R142) and section 2 (R152): a constraint whose range is not in `[1, 2^127 - 1]` is
refused before any bit is read or written, before the value is looked at. Through `CLEN` only the non-positive ranges
are `InvalidRange`, since `UnsupportedRange` comes first. -/
def Obligations.InvalidRangeMovesNoBit : Prop :=
  ∀ (lb ub value : Int) (s : State),
    (s.mode = .dec → ¬RangeOK (range lb ub) →
      exec (.decCwn lb ub) s = .next { s with response := some ⟨.invalidRange, none⟩ }) ∧
    (s.mode = .enc → ¬RangeOK (range lb ub) →
      exec (.encCwn value lb ub) s = .next { s with response := some ⟨.invalidRange, none⟩ }) ∧
    (s.mode = .dec → range lb ub ≤ 0 →
      exec (.decClen lb ub) s = .next { s with response := some ⟨.invalidRange, none⟩ }) ∧
    (s.mode = .enc → range lb ub ≤ 0 →
      exec (.encClen value lb ub) s = .next { s with response := some ⟨.invalidRange, none⟩ })

/-- 60_exceptions.md section 1: `UnsupportedRange` comes from the constrained length determinants when the range is 65536
or more, before any bit moves; the constrained whole numbers never raise it, whatever the range (R144). No other command
ends with it, and a constrained length determinant does so for no range below 65536: that is read off the table R160,
which the spec marks as its own inference ("derived: from rules R141 to R149"). A command that needs no mode can only
leave an older response standing. -/
def Obligations.UnsupportedRangeOnlyFromConstrainedLength : Prop :=
  (∀ (lb ub value : Int) (s : State),
    (s.mode = .dec → 65536 ≤ range lb ub →
      exec (.decClen lb ub) s = .next { s with response := some ⟨.unsupportedRange, none⟩ }) ∧
    (s.mode = .enc → 65536 ≤ range lb ub →
      exec (.encClen value lb ub) s = .next { s with response := some ⟨.unsupportedRange, none⟩ }) ∧
    (∀ t r, exec (.decCwn lb ub) s = .next t → t.response ≠ some ⟨.unsupportedRange, r⟩) ∧
    (∀ t r, exec (.encCwn value lb ub) s = .next t → t.response ≠ some ⟨.unsupportedRange, r⟩)) ∧
  (∀ (i : Instr) (s t : State) (r : Option Pattern), s.response = none ∨ modeNeeded i ≠ none →
    exec i s = .next t → t.response = some ⟨.unsupportedRange, r⟩ →
    ∃ lb ub, 65536 ≤ range lb ub ∧
      (i = .decClen lb ub ∧ s.mode = .dec ∨ ∃ value, i = .encClen value lb ub ∧ s.mode = .enc))

/-- 60_exceptions.md section 1 (R147): `ValueOutOfRange` comes only from encode commands, and then nothing was written:
only the response has changed. -/
def Obligations.ValueOutOfRangeWritesNothing : Prop :=
  ∀ (i : Instr) (s t : State), WellFormed i → s.response = none → exec i s = .next t →
    t.response = some ⟨.valueOutOfRange, none⟩ →
    modeNeeded i = some .enc ∧ t = { s with response := some ⟨.valueOutOfRange, none⟩ }

/-- 60_exceptions.md section 1 (R147): the values each encode command refuses with `ValueOutOfRange`; nothing else
changes. -/
def Obligations.EncodersRefuseValuesTheyCannotCarry : Prop :=
  ∀ s : State, s.mode = .enc →
    (∀ n v, n ≤ 128 → 2 ^ n ≤ v →
      exec (.encBits n v) s = .next { s with response := some ⟨.valueOutOfRange, none⟩ }) ∧
    (∀ value lb ub, RangeOK (range lb ub) → (value < lb ∨ ub < value) →
      exec (.encCwn value lb ub) s = .next { s with response := some ⟨.valueOutOfRange, none⟩ }) ∧
    (∀ value lb ub, 1 ≤ range lb ub → range lb ub < 65536 → (value < lb ∨ ub < value) →
      exec (.encClen value lb ub) s = .next { s with response := some ⟨.valueOutOfRange, none⟩ }) ∧
    (∀ value lb, value < lb →
      exec (.encScwn value lb) s = .next { s with response := some ⟨.valueOutOfRange, none⟩ }) ∧
    (∀ v, v = 0 ∨ ¬ULenOK v →
      exec (.encNslen v) s = .next { s with response := some ⟨.valueOutOfRange, none⟩ }) ∧
    (∀ v, ¬ULenOK v → exec (.encUlen v) s = .next { s with response := some ⟨.valueOutOfRange, none⟩ })

/-! ### Construction and read-out -/

/-- 43_construction.md section 1 (R130): with the whole slice on `din`, `INIT_DEC` loads it at the start of the buffer
and starts a decode pass; the octets behind it keep what they held. -/
def Obligations.InitDecLoadsTheSlice : Prop :=
  ∀ (n : Nat) (s : State), n ≤ s.capBytes → n ≤ s.din.length →
    ∃ m, exec (.initDec n) s = .next
        { s with
          buffer := m, bitPosition := 0, bitLength := 8 * n, mode := .dec, transfer := none
          din := s.din.drop n, response := some ⟨.ok, none⟩ } ∧
      (∀ k, k < n → octetAt m k = s.din[k]?) ∧ (∀ k, n ≤ k → octetAt m k = octetAt s.buffer k) ∧
      (Memory.wf s.buffer → Memory.wf m)

/-- 43_construction.md section 1 (R130): a slice longer than the buffer is refused; nothing but the response changes and
no octet is taken. -/
def Obligations.InitDecRefusesALongSlice : Prop :=
  ∀ (n : Nat) (s : State), s.capBytes < n →
    exec (.initDec n) s = .next { s with response := some ⟨.outOfBits, none⟩ }

/-- 43_construction.md section 2 (R133) and section 3 (R135 duty 2): with too few octets on `din` the command stays in
flight without a response and the old pass stands; when the host presents more, the next step does what `INIT_DEC`
would have done with all of them at once. That the octets are taken as they come is the model's reading (log entry
7). -/
def Obligations.InitDecWaitsForItsSlice : Prop :=
  ∀ (n : Nat) (s : State), n ≤ s.capBytes → s.din.length < n →
    exec (.initDec n) s = .next { s with din := [], transfer := some ⟨n, s.din⟩ } ∧
    (s.hostQueue.head? ≠ some .rst →
      ∀ more, step { s with din := more, transfer := some ⟨n, s.din⟩ } =
        exec (.initDec n) { s with din := s.din ++ more, transfer := some ⟨n, s.din⟩ })

/-- 43_construction.md R131: `INIT_ENC` starts an empty encode pass in every mode. -/
def Obligations.InitEncStartsAnEmptyPass : Prop :=
  ∀ s : State, exec .initEnc s = .next
    { s with bitPosition := 0, bitLength := 0, mode := .enc, response := some ⟨.ok, none⟩ }

/-- 43_construction.md section 2: when no command is in flight, read-out gives exactly the octets below
`ceil(bit_length / 8)`, and beyond them it gives no value. In an encode pass the unused low bits of the last octet are 0.
That it gives no value while a command is in flight is the model's choice, since the spec only says when
the host may read (log entry 19). -/
def Obligations.ReadOutGivesTheOctetsInUse : Prop :=
  ∀ (s : State) (addr n : Nat), Inv s →
    (inFlight s = false → addr + n ≤ octets s.bitLength →
      ∃ os, memRead addr n s = some os ∧ os.length = n ∧ ∀ j, j < n → os[j]? = octetAt s.buffer (addr + j)) ∧
    (octets s.bitLength < addr + n → memRead addr n s = none) ∧
    (inFlight s = true → memRead addr n s = none) ∧
    (s.mode = .enc → PadZero s.buffer s.bitLength (alignUp s.bitLength))

/-- 10_state.md section 2, 30_encoding.md sections 1 and 4: when no command is in flight the status outputs show the mode,
the cursor and the length. The response port is empty where no response is pending, also while an `INIT_DEC` waits for
its slice; a pending response it shows with its code and its result, and with no result where it is not `OK`. That the
status outputs give no value while a command is in flight is the model's choice, its form of "valid when no command is
in flight" (log entry 19). -/
def Obligations.StatusOutputsShowTheState : Prop :=
  ∀ s : State, Inv s →
    (inFlight s = false →
      stMode s = some (modeCode s.mode) ∧ (stPos s).map BitVec.toNat = some s.bitPosition ∧
        (stLen s).map BitVec.toNat = some s.bitLength) ∧
    (inFlight s = true → stMode s = none ∧ stPos s = none ∧ stLen s = none) ∧
    (s.response = none → rspPort s = none) ∧
    (s.transfer.isSome = true → rspPort s = none) ∧
    (∀ x, s.response = some ⟨.ok, x⟩ → rspPort s = some (0, x)) ∧
    (∀ k x, s.response = some ⟨k, x⟩ → k ≠ .ok → rspPort s = some (statusCode k, none))

/-! ### Bit Cursor commands, decode side -/

/-- 40_bit_cursor.md section 3 (R78): `DEC_BOOL` gives the bit at the cursor as 0 or 1 and moves the cursor past it; at
the end of the slice it answers `OutOfBits` and nothing else changes. -/
def Obligations.DecBoolReadsTheNextBit : Prop :=
  ∀ (s : State) (b : Bool), s.mode = .dec →
    (s.bitPosition + 1 ≤ s.bitLength → bitAt s.buffer s.bitPosition = some b →
      exec .decBool s = .next
        { s with bitPosition := s.bitPosition + 1, response := some ⟨.ok, some (if b then 1 else 0)⟩ }) ∧
    (s.bitLength < s.bitPosition + 1 → exec .decBool s = .next { s with response := some ⟨.outOfBits, none⟩ })

/-- 40_bit_cursor.md section 3 (R79): `DEC_BITS` gives the number whose bits, most significant first, stand at the cursor
and moves the cursor past them; more than 128 bits are `WidthTooLarge`, then too few bits `OutOfBits`, and nothing else
changes. -/
def Obligations.DecBitsReadsTheNextBits : Prop :=
  ∀ (n v : Nat) (s : State), s.mode = .dec →
    (n ≤ 128 → s.bitPosition + n ≤ s.bitLength → v < 2 ^ n →
      (∀ k, k < n → bitAt s.buffer (s.bitPosition + k) = some (v.testBit (n - 1 - k))) →
      exec (.decBits n) s = .next
        { s with bitPosition := s.bitPosition + n, response := some ⟨.ok, some (pat v)⟩ }) ∧
    (128 < n → exec (.decBits n) s = .next { s with response := some ⟨.widthTooLarge, none⟩ }) ∧
    (n ≤ 128 → s.bitLength < s.bitPosition + n →
      exec (.decBits n) s = .next { s with response := some ⟨.outOfBits, none⟩ })

/-- 40_bit_cursor.md section 3 (R80): `DEC_ALIGN` moves the cursor to the next multiple of 8 and looks at no bit. -/
def Obligations.DecAlignMovesToTheNextOctet : Prop :=
  ∀ s : State, s.mode = .dec →
    ∃ p, exec .decAlign s = .next { s with bitPosition := p, response := some ⟨.ok, none⟩ } ∧
      p % 8 = 0 ∧ s.bitPosition ≤ p ∧ p < s.bitPosition + 8

/-- 40_bit_cursor.md section 3 (R81): `ADVANCE` moves the cursor by its count; with too few bits it answers `OutOfBits`
where it must succeed, else `OK` with the cursor unchanged or at the length, as the policy says. -/
def Obligations.AdvanceSkipsOrObeysThePolicy : Prop :=
  ∀ (count : Nat) (s : State), s.mode = .dec →
    (s.bitPosition + count ≤ s.bitLength → ∀ f, exec (.advance count f) s = .next
      { s with bitPosition := s.bitPosition + count, response := some ⟨.ok, none⟩ }) ∧
    (s.bitLength < s.bitPosition + count →
      exec (.advance count true) s = .next { s with response := some ⟨.outOfBits, none⟩ } ∧
      (s.softPolicy = .hold →
        exec (.advance count false) s = .next { s with response := some ⟨.ok, none⟩ }) ∧
      (s.softPolicy = .clamp →
        exec (.advance count false) s = .next
          { s with bitPosition := s.bitLength, response := some ⟨.ok, none⟩ }))

/-! ### Bit Cursor commands, encode side -/

/-- 40_bit_cursor.md section 4 (R82): `ENC_BOOL` appends its bit; in a full buffer it answers `OutOfBits` and nothing else
changes. -/
def Obligations.EncBoolAppendsItsBit : Prop :=
  ∀ (f : Bool) (s : State), Inv s → s.mode = .enc →
    (s.bitPosition + 1 ≤ capBits s →
      ∃ t, exec (.encBool f) s = .next t ∧ WroteTo s t (s.bitPosition + 1) ∧
        bitAt t.buffer s.bitPosition = some f) ∧
    (capBits s < s.bitPosition + 1 →
      exec (.encBool f) s = .next { s with response := some ⟨.outOfBits, none⟩ })

/-- 40_bit_cursor.md section 4 (R83): `ENC_BITS` appends its value in `n` bits, most significant first; where they do not
fit the buffer it answers `OutOfBits` and nothing else changes. -/
def Obligations.EncBitsAppendsTheValue : Prop :=
  ∀ (n v : Nat) (s : State), Inv s → s.mode = .enc → n ≤ 128 → v < 2 ^ n →
    (s.bitPosition + n ≤ capBits s →
      ∃ t, exec (.encBits n v) s = .next t ∧ WroteTo s t (s.bitPosition + n) ∧
        ∀ k, k < n → bitAt t.buffer (s.bitPosition + k) = some (v.testBit (n - 1 - k))) ∧
    (capBits s < s.bitPosition + n →
      exec (.encBits n v) s = .next { s with response := some ⟨.outOfBits, none⟩ })

/-- 40_bit_cursor.md section 4 (R84): `ENC_ALIGN` pads with zero bits to the next multiple of 8; it never fails. -/
def Obligations.EncAlignPadsWithZeros : Prop :=
  ∀ s : State, Inv s → s.mode = .enc →
    ∃ t, exec .encAlign s = .next t ∧ WroteTo s t (alignUp s.bitPosition) ∧
      PadZero t.buffer s.bitPosition (alignUp s.bitPosition)

/-! ### Length determinants -/

/-- 42_length_determinant.md section 2 (R113): `DEC_ULEN` aligns and reads the determinant that the table of first
octets gives; a bad multiplier is refused after its octet is consumed. -/
def Obligations.DecUlenReadsTheTableOfFirstOctets : Prop :=
  ∀ s : State, s.mode = .dec →
    (∀ l c, lengthAt s.buffer (octets s.bitPosition) = some (l, c) →
      alignUp s.bitPosition + 8 * c ≤ s.bitLength →
      exec .decUlen s = .next
        { s with bitPosition := alignUp s.bitPosition + 8 * c, response := some ⟨.ok, some (pat l)⟩ }) ∧
    (∀ o : Octet, octetAt s.buffer (octets s.bitPosition) = some o →
      (o.toNat = 0x80 ∨ 0x85 ≤ o.toNat ∧ o.toNat ≤ 0xBF) → alignUp s.bitPosition + 8 ≤ s.bitLength →
      exec .decUlen s = .next
        { s with bitPosition := alignUp s.bitPosition + 8, response := some ⟨.invalidLengthMultiplier, none⟩ })

/-- 42_length_determinant.md section 2 (R113) and 60_exceptions.md section 2 (R150): `DEC_ULEN` without enough bits:
the alignment stays, and of a 2-octet form whose second octet is missing the two discriminator bits stay consumed. -/
def Obligations.DecUlenShortInputKeepsWhatItConsumed : Prop :=
  ∀ s : State, s.mode = .dec →
    (s.bitLength < alignUp s.bitPosition + 1 →
      exec .decUlen s = .next
        { s with bitPosition := alignUp s.bitPosition, response := some ⟨.outOfBits, none⟩ }) ∧
    (∀ o : Octet, octetAt s.buffer (octets s.bitPosition) = some o → 0xC0 ≤ o.toNat →
      s.bitLength = alignUp s.bitPosition + 8 →
      exec .decUlen s = .next
        { s with bitPosition := alignUp s.bitPosition + 2, response := some ⟨.outOfBits, none⟩ })

/-- 42_length_determinant.md section 2 (R110) and 60_exceptions.md section 2 (R150): `DEC_NSLEN`, both forms; the large
form is `DEC_ULEN` behind the flag, however that ends; the small form without enough bits keeps the flag it
consumed. -/
def Obligations.DecNslenReadsBothForms : Prop :=
  ∀ s : State, s.mode = .dec →
    (∀ v, bitAt s.buffer s.bitPosition = some false → s.bitPosition + 7 ≤ s.bitLength →
      rdBits s.buffer (s.bitPosition + 1) 6 = some v →
      exec .decNslen s = .next
        { s with bitPosition := s.bitPosition + 7, response := some ⟨.ok, some (pat (v + 1))⟩ }) ∧
    (∀ l c, bitAt s.buffer s.bitPosition = some true →
      lengthAt s.buffer (octets (s.bitPosition + 1)) = some (l, c) →
      alignUp (s.bitPosition + 1) + 8 * c ≤ s.bitLength →
      exec .decNslen s = .next
        { s with bitPosition := alignUp (s.bitPosition + 1) + 8 * c, response := some ⟨.ok, some (pat l)⟩ }) ∧
    (bitAt s.buffer s.bitPosition = some true → s.bitPosition + 1 ≤ s.bitLength →
      exec .decNslen s = exec .decUlen { s with bitPosition := s.bitPosition + 1 }) ∧
    (s.bitLength < s.bitPosition + 1 →
      exec .decNslen s = .next { s with response := some ⟨.outOfBits, none⟩ }) ∧
    (bitAt s.buffer s.bitPosition = some false → s.bitPosition + 1 ≤ s.bitLength →
      s.bitLength < s.bitPosition + 7 →
      exec .decNslen s = .next
        { s with bitPosition := s.bitPosition + 1, response := some ⟨.outOfBits, none⟩ })

/-- 42_length_determinant.md R117: the lengths `ULenOK` admits are exactly those `DEC_ULEN` can return. -/
def Obligations.ULenOKIsWhatDecUlenCanReturn : Prop :=
  ∀ l : Nat, ULenOK l ↔ ∃ s t, decUlen s = .done l t

/-- 42_length_determinant.md section 3 (R116): `ENC_ULEN` pads to the octet boundary and writes the shortest form of
every length it can carry; in a full buffer the padding stays, and where only the second octet of a 2-octet form is
missing the two discriminator bits stay too (60_exceptions.md R150). -/
def Obligations.EncUlenWritesTheShortestForm : Prop :=
  ∀ (l : Nat) (s : State), Inv s → s.mode = .enc → ULenOK l →
    (alignUp s.bitPosition + 8 * lengthOctets l ≤ capBits s →
      ∃ t, exec (.encUlen l) s = .next t ∧ WroteTo s t (alignUp s.bitPosition + 8 * lengthOctets l) ∧
        PadZero t.buffer s.bitPosition (alignUp s.bitPosition) ∧
        lengthAt t.buffer (octets s.bitPosition) = some (l, lengthOctets l)) ∧
    (capBits s < alignUp s.bitPosition + 8 →
      ∃ t, exec (.encUlen l) s = .next t ∧ t.bitPosition = alignUp s.bitPosition ∧
        t.response = some ⟨.outOfBits, none⟩ ∧ PadZero t.buffer s.bitPosition (alignUp s.bitPosition)) ∧
    (lengthOctets l = 2 → capBits s = alignUp s.bitPosition + 8 →
      ∃ t, exec (.encUlen l) s = .next t ∧ t.bitPosition = alignUp s.bitPosition + 2 ∧
        t.response = some ⟨.outOfBits, none⟩ ∧ rdBits t.buffer (alignUp s.bitPosition) 2 = some 3)

/-- 42_length_determinant.md section 3 (R114): `ENC_NSLEN` takes the small form up to 64 and the large form above. Short
of room it answers `OutOfBits` and keeps what it wrote (60_exceptions.md R150): nothing in a full buffer; the flag of the
small form; the flag and the padding of the large form, and of a 2-octet determinant its two discriminator bits where
only its second octet is missing. -/
def Obligations.EncNslenChoosesTheForm : Prop :=
  ∀ (v : Nat) (s : State), Inv s → s.mode = .enc →
    (1 ≤ v → v ≤ 64 → s.bitPosition + 7 ≤ capBits s →
      ∃ t, exec (.encNslen v) s = .next t ∧ WroteTo s t (s.bitPosition + 7) ∧
        bitAt t.buffer s.bitPosition = some false ∧ rdBits t.buffer (s.bitPosition + 1) 6 = some (v - 1)) ∧
    (64 < v → ULenOK v → alignUp (s.bitPosition + 1) + 8 * lengthOctets v ≤ capBits s →
      ∃ t, exec (.encNslen v) s = .next t ∧ WroteTo s t (alignUp (s.bitPosition + 1) + 8 * lengthOctets v) ∧
        bitAt t.buffer s.bitPosition = some true ∧
        PadZero t.buffer (s.bitPosition + 1) (alignUp (s.bitPosition + 1)) ∧
        lengthAt t.buffer (octets (s.bitPosition + 1)) = some (v, lengthOctets v)) ∧
    (1 ≤ v → ULenOK v → capBits s < s.bitPosition + 1 →
      exec (.encNslen v) s = .next { s with response := some ⟨.outOfBits, none⟩ }) ∧
    (1 ≤ v → v ≤ 64 → s.bitPosition + 1 ≤ capBits s → capBits s < s.bitPosition + 7 →
      ∃ t, exec (.encNslen v) s = .next t ∧ t.bitPosition = s.bitPosition + 1 ∧
        t.response = some ⟨.outOfBits, none⟩ ∧ bitAt t.buffer s.bitPosition = some false) ∧
    (64 < v → ULenOK v → s.bitPosition + 1 ≤ capBits s → capBits s < alignUp (s.bitPosition + 1) + 8 →
      ∃ t, exec (.encNslen v) s = .next t ∧ t.bitPosition = alignUp (s.bitPosition + 1) ∧
        t.response = some ⟨.outOfBits, none⟩ ∧ bitAt t.buffer s.bitPosition = some true ∧
        PadZero t.buffer (s.bitPosition + 1) (alignUp (s.bitPosition + 1))) ∧
    (64 < v → lengthOctets v = 2 → capBits s = alignUp (s.bitPosition + 1) + 8 →
      ∃ t, exec (.encNslen v) s = .next t ∧ t.bitPosition = alignUp (s.bitPosition + 1) + 2 ∧
        t.response = some ⟨.outOfBits, none⟩ ∧ bitAt t.buffer s.bitPosition = some true ∧
        PadZero t.buffer (s.bitPosition + 1) (alignUp (s.bitPosition + 1)) ∧
        rdBits t.buffer (alignUp (s.bitPosition + 1)) 2 = some 3)

/-- 42_length_determinant.md sections 2 and 3 (R112, R115): below a range of 65536 the constrained length commands are
the constrained whole-number commands. -/
def Obligations.ConstrainedLengthIsConstrainedWholeNumber : Prop :=
  ∀ (lb ub value : Int) (s : State), range lb ub < 65536 →
    exec (.decClen lb ub) s = exec (.decCwn lb ub) s ∧
      exec (.encClen value lb ub) s = exec (.encCwn value lb ub) s

/-! ### Whole numbers, decode side -/

/-- 41_whole_number.md section 2 (R95) band 1, and 42_length_determinant.md section 2 (R112): unaligned, the width of
the table, then `lb` added. -/
def Obligations.DecCwnBandOne : Prop :=
  ∀ (i : Instr) (lb ub : Int) (w : Nat) (s : State), (i = .decCwn lb ub ∨ i = .decClen lb ub) → s.mode = .dec →
    1 ≤ range lb ub → range lb ub < 256 → w = bitsNeededForRange (range lb ub).toNat →
    (∀ raw : Nat, s.bitPosition + w ≤ s.bitLength → rdBits s.buffer s.bitPosition w = some raw →
      (raw + lb ≤ 2 ^ 127 - 1 → exec i s = .next
        { s with bitPosition := s.bitPosition + w, response := some ⟨.ok, some (pat (raw + lb))⟩ }) ∧
      (2 ^ 127 - 1 < raw + lb → exec i s = .next
        { s with bitPosition := s.bitPosition + w, response := some ⟨.valueOverflow, none⟩ })) ∧
    (s.bitLength < s.bitPosition + w → exec i s = .next { s with response := some ⟨.outOfBits, none⟩ })

/-- 41_whole_number.md section 2 (R95) bands 2 and 3, and 42_length_determinant.md section 2 (R112): aligned, 8 bits
for a range of exactly 256, else 16, then `lb` added; where the field is not there the alignment stays
(60_exceptions.md R150). -/
def Obligations.DecCwnBandsTwoAndThree : Prop :=
  ∀ (i : Instr) (lb ub : Int) (w q : Nat) (s : State), (i = .decCwn lb ub ∨ i = .decClen lb ub) → s.mode = .dec →
    (range lb ub = 256 ∧ w = 8 ∨ 256 < range lb ub ∧ range lb ub < 65536 ∧ w = 16) → q = alignUp s.bitPosition →
    (∀ raw : Nat, q + w ≤ s.bitLength → rdBits s.buffer q w = some raw →
      (raw + lb ≤ 2 ^ 127 - 1 → exec i s = .next
        { s with bitPosition := q + w, response := some ⟨.ok, some (pat (raw + lb))⟩ }) ∧
      (2 ^ 127 - 1 < raw + lb → exec i s = .next
        { s with bitPosition := q + w, response := some ⟨.valueOverflow, none⟩ })) ∧
    (s.bitLength < q + w → exec i s = .next { s with bitPosition := q, response := some ⟨.outOfBits, none⟩ })

/-- 41_whole_number.md section 2 (R95) band 4: the length field of the width for `bytes_needed`, alignment, and
`length + 1` octets, `length` being the field plus 1; 17 octets are `WidthTooLarge`, missing octets `OutOfBits`, both
after the field and the alignment are consumed (60_exceptions.md R150). -/
def Obligations.DecCwnBandFour : Prop :=
  ∀ (lb ub : Int) (lw q : Nat) (s : State), s.mode = .dec → 65536 ≤ range lb ub → range lb ub ≤ 2 ^ 127 - 1 →
    lw = bitsNeededForRange (bytesNeeded (range lb ub).toNat) → q = alignUp (s.bitPosition + lw) →
    (s.bitLength < s.bitPosition + lw →
      exec (.decCwn lb ub) s = .next { s with response := some ⟨.outOfBits, none⟩ }) ∧
    (∀ k, s.bitPosition + lw ≤ s.bitLength → rdBits s.buffer s.bitPosition lw = some k →
      (∀ raw : Nat, k ≤ 14 → q + 8 * (k + 2) ≤ s.bitLength → rdBits s.buffer q (8 * (k + 2)) = some raw →
        (raw + lb ≤ 2 ^ 127 - 1 → exec (.decCwn lb ub) s = .next
          { s with bitPosition := q + 8 * (k + 2), response := some ⟨.ok, some (pat (raw + lb))⟩ }) ∧
        (2 ^ 127 - 1 < raw + lb → exec (.decCwn lb ub) s = .next
          { s with bitPosition := q + 8 * (k + 2), response := some ⟨.valueOverflow, none⟩ })) ∧
      (k ≤ 14 → s.bitLength < q + 8 * (k + 2) →
        exec (.decCwn lb ub) s = .next { s with bitPosition := q, response := some ⟨.outOfBits, none⟩ }) ∧
      (14 < k → exec (.decCwn lb ub) s = .next
        { s with bitPosition := q, response := some ⟨.widthTooLarge, none⟩ }))

/-- 41_whole_number.md section 2 (R96, R97): `DEC_SCWN` and `DEC_UWN` read a length determinant and that many octets;
more than 16 octets are `WidthTooLarge` after the determinant. Whatever error `DEC_ULEN` would end with is theirs, with
all it consumed: a bad multiplier after its octet, and too few bits for the determinant. -/
def Obligations.DecScwnAndUwnReadCountedOctets : Prop :=
  ∀ (lb : Int) (s : State), s.mode = .dec →
    (∀ l c p, lengthAt s.buffer (octets s.bitPosition) = some (l, c) → p = alignUp s.bitPosition + 8 * c →
      p ≤ s.bitLength →
      (∀ raw, l ≤ 16 → p + 8 * l ≤ s.bitLength → rdBits s.buffer p (8 * l) = some raw →
        exec .decUwn s = .next
            { s with bitPosition := p + 8 * l, response := some ⟨.ok, some (pat raw)⟩ } ∧
          (raw + lb ≤ 2 ^ 127 - 1 →
            exec (.decScwn lb) s = .next
              { s with bitPosition := p + 8 * l, response := some ⟨.ok, some (pat (raw + lb))⟩ }) ∧
          (2 ^ 127 - 1 < raw + lb →
            exec (.decScwn lb) s = .next
              { s with bitPosition := p + 8 * l, response := some ⟨.valueOverflow, none⟩ })) ∧
      (l ≤ 16 → s.bitLength < p + 8 * l →
        exec .decUwn s = .next { s with bitPosition := p, response := some ⟨.outOfBits, none⟩ } ∧
          exec (.decScwn lb) s = .next { s with bitPosition := p, response := some ⟨.outOfBits, none⟩ }) ∧
      (16 < l →
        exec .decUwn s = .next { s with bitPosition := p, response := some ⟨.widthTooLarge, none⟩ } ∧
          exec (.decScwn lb) s = .next { s with bitPosition := p, response := some ⟨.widthTooLarge, none⟩ })) ∧
    (∀ i, i = .decUwn ∨ i = .decScwn lb →
      (∀ t k, exec .decUlen s = .next t → t.response = some ⟨k, none⟩ → k ≠ .ok → exec i s = .next t) ∧
      (∀ o : Octet, octetAt s.buffer (octets s.bitPosition) = some o →
        (o.toNat = 0x80 ∨ 0x85 ≤ o.toNat ∧ o.toNat ≤ 0xBF) → alignUp s.bitPosition + 8 ≤ s.bitLength →
        exec i s = .next
          { s with bitPosition := alignUp s.bitPosition + 8, response := some ⟨.invalidLengthMultiplier, none⟩ }) ∧
      (s.bitLength < alignUp s.bitPosition + 1 →
        exec i s = .next { s with bitPosition := alignUp s.bitPosition, response := some ⟨.outOfBits, none⟩ }) ∧
      (∀ o : Octet, octetAt s.buffer (octets s.bitPosition) = some o → 0xC0 ≤ o.toNat →
        s.bitLength = alignUp s.bitPosition + 8 →
        exec i s = .next
          { s with bitPosition := alignUp s.bitPosition + 2, response := some ⟨.outOfBits, none⟩ }))

/-! ### Whole numbers, encode side -/

/-- 41_whole_number.md section 3 (R98) band 1, and 42_length_determinant.md section 3 (R115): the value less `lb` in the
width of the table, unaligned; where it does not fit nothing is written. -/
def Obligations.EncCwnBandOne : Prop :=
  ∀ (i : Instr) (value lb ub : Int) (w : Nat) (s : State),
    (i = .encCwn value lb ub ∨ i = .encClen value lb ub) → Inv s → s.mode = .enc → range lb ub < 256 →
    lb ≤ value → value ≤ ub → w = bitsNeededForRange (range lb ub).toNat →
    (s.bitPosition + w ≤ capBits s →
      ∃ t, exec i s = .next t ∧ WroteTo s t (s.bitPosition + w) ∧
        rdBits t.buffer s.bitPosition w = some (value - lb).toNat) ∧
    (capBits s < s.bitPosition + w → exec i s = .next { s with response := some ⟨.outOfBits, none⟩ })

/-- 41_whole_number.md section 3 (R98) bands 2 and 3, and 42_length_determinant.md section 3 (R115): zero bits up to the
octet boundary, then the value less `lb`; where the field does not fit the padding stays (60_exceptions.md R150). -/
def Obligations.EncCwnBandsTwoAndThree : Prop :=
  ∀ (i : Instr) (value lb ub : Int) (w q : Nat) (s : State),
    (i = .encCwn value lb ub ∨ i = .encClen value lb ub) → Inv s → s.mode = .enc →
    (range lb ub = 256 ∧ w = 8 ∨ 256 < range lb ub ∧ range lb ub < 65536 ∧ w = 16) →
    lb ≤ value → value ≤ ub → q = alignUp s.bitPosition →
    (q + w ≤ capBits s →
      ∃ t, exec i s = .next t ∧ WroteTo s t (q + w) ∧ PadZero t.buffer s.bitPosition q ∧
        rdBits t.buffer q w = some (value - lb).toNat) ∧
    (capBits s < q + w →
      ∃ t, exec i s = .next t ∧ t.bitPosition = q ∧ t.response = some ⟨.outOfBits, none⟩ ∧
        PadZero t.buffer s.bitPosition q)

/-- 41_whole_number.md section 3 (R98) band 4: the least value field of at least 2 octets, its length less 1 in the
length field, then alignment. Without room for the length field nothing is written; where only the value octets do not
fit, the length field and the padding stay (60_exceptions.md R150). -/
def Obligations.EncCwnBandFour : Prop :=
  ∀ (value lb ub : Int) (o lw q : Nat) (s : State), Inv s → s.mode = .enc →
    65536 ≤ range lb ub → range lb ub ≤ 2 ^ 127 - 1 → lb ≤ value → value ≤ ub →
    o = longBandOctets (value - lb).toNat → lw = bitsNeededForRange (bytesNeeded (range lb ub).toNat) →
    q = alignUp (s.bitPosition + lw) →
    (2 ≤ o ∧ (value - lb).toNat < 2 ^ (8 * o) ∧ ∀ o', 2 ≤ o' → (value - lb).toNat < 2 ^ (8 * o') → o ≤ o') ∧
    (q + 8 * o ≤ capBits s →
      ∃ t, exec (.encCwn value lb ub) s = .next t ∧ WroteTo s t (q + 8 * o) ∧
        rdBits t.buffer s.bitPosition lw = some (o - 2) ∧ PadZero t.buffer (s.bitPosition + lw) q ∧
        rdBits t.buffer q (8 * o) = some (value - lb).toNat) ∧
    (s.bitPosition + lw ≤ capBits s → capBits s < q + 8 * o →
      ∃ t, exec (.encCwn value lb ub) s = .next t ∧ t.bitPosition = q ∧ t.response = some ⟨.outOfBits, none⟩ ∧
        rdBits t.buffer s.bitPosition lw = some (o - 2) ∧ PadZero t.buffer (s.bitPosition + lw) q) ∧
    (capBits s < s.bitPosition + lw →
      exec (.encCwn value lb ub) s = .next { s with response := some ⟨.outOfBits, none⟩ })

/-- 41_whole_number.md section 3 (R99): `ENC_SCWN` writes the least octet count of at least 1 and the octets; where only
the determinant fits it stays written, and in a full buffer the padding stays (60_exceptions.md R150). -/
def Obligations.EncScwnWritesTheLeastOctets : Prop :=
  ∀ (value lb : Int) (o p : Nat) (s : State), Inv s → s.mode = .enc → lb ≤ value → value - lb < 2 ^ 128 →
    o = minOctets (value - lb).toNat → p = alignUp s.bitPosition + 8 →
    (p + 8 * o ≤ capBits s →
      ∃ t, exec (.encScwn value lb) s = .next t ∧ WroteTo s t (p + 8 * o) ∧
        PadZero t.buffer s.bitPosition (alignUp s.bitPosition) ∧
        lengthAt t.buffer (octets s.bitPosition) = some (o, 1) ∧
        rdBits t.buffer p (8 * o) = some (value - lb).toNat) ∧
    (p ≤ capBits s → capBits s < p + 8 * o →
      ∃ t, exec (.encScwn value lb) s = .next t ∧ t.bitPosition = p ∧ t.response = some ⟨.outOfBits, none⟩ ∧
        lengthAt t.buffer (octets s.bitPosition) = some (o, 1)) ∧
    (capBits s < p →
      ∃ t, exec (.encScwn value lb) s = .next t ∧ t.bitPosition = alignUp s.bitPosition ∧
        t.response = some ⟨.outOfBits, none⟩ ∧ PadZero t.buffer s.bitPosition (alignUp s.bitPosition))

/-- 41_whole_number.md section 3 (R100): `ENC_UWN` writes the shortest unsigned form; where only the determinant fits
it stays written, and in a full buffer the padding stays (60_exceptions.md R150). -/
def Obligations.EncUwnWritesTheShortestUnsignedForm : Prop :=
  ∀ (v o p : Nat) (s : State), Inv s → s.mode = .enc → v < 2 ^ 128 → o = minOctets v →
    p = alignUp s.bitPosition + 8 →
    (p + 8 * o ≤ capBits s →
      ∃ t, exec (.encUwn v) s = .next t ∧ WroteTo s t (p + 8 * o) ∧
        PadZero t.buffer s.bitPosition (alignUp s.bitPosition) ∧
        lengthAt t.buffer (octets s.bitPosition) = some (o, 1) ∧ rdBits t.buffer p (8 * o) = some v) ∧
    (p ≤ capBits s → capBits s < p + 8 * o →
      ∃ t, exec (.encUwn v) s = .next t ∧ t.bitPosition = p ∧ t.response = some ⟨.outOfBits, none⟩ ∧
        lengthAt t.buffer (octets s.bitPosition) = some (o, 1)) ∧
    (capBits s < p →
      ∃ t, exec (.encUwn v) s = .next t ∧ t.bitPosition = alignUp s.bitPosition ∧
        t.response = some ⟨.outOfBits, none⟩ ∧ PadZero t.buffer s.bitPosition (alignUp s.bitPosition))

/-! ### Helpers of the rules -/

/-- 41_whole_number.md R92: the width table, its rows, and that it is the least `w` with `2^w >= range`, which is
`bitlen(range - 1)`. -/
def Obligations.BitsNeededIsTheLeastWidth : Prop :=
  ∀ r : Nat, 1 ≤ r → r ≤ 255 →
    bitsNeededForRange r = bitlen (r - 1) ∧ r ≤ 2 ^ bitsNeededForRange r ∧
      (∀ w, r ≤ 2 ^ w → bitsNeededForRange r ≤ w) ∧
      (r = 1 → bitsNeededForRange r = 0) ∧ (r = 2 → bitsNeededForRange r = 1) ∧
      (3 ≤ r ∧ r ≤ 4 → bitsNeededForRange r = 2) ∧ (5 ≤ r ∧ r ≤ 8 → bitsNeededForRange r = 3) ∧
      (9 ≤ r ∧ r ≤ 16 → bitsNeededForRange r = 4) ∧ (17 ≤ r ∧ r ≤ 32 → bitsNeededForRange r = 5) ∧
      (33 ≤ r ∧ r ≤ 64 → bitsNeededForRange r = 6) ∧ (65 ≤ r ∧ r ≤ 128 → bitsNeededForRange r = 7) ∧
      (129 ≤ r → bitsNeededForRange r = 8)

/-- 41_whole_number.md R94: `bytes_needed` is `ceil(bitlen(range) / 8)`, it is 3 to 16 on the ranges of band 4, and its
values at the boundaries. -/
def Obligations.BytesNeededOnBandFour : Prop :=
  (∀ r : Nat, 65536 ≤ r → r ≤ 2 ^ 127 - 1 →
    17 ≤ bitlen r ∧ bitlen r ≤ 127 ∧ bitlen r ≤ 8 * bytesNeeded r ∧ 8 * bytesNeeded r < bitlen r + 8 ∧
      3 ≤ bytesNeeded r ∧ bytesNeeded r ≤ 16) ∧
  bytesNeeded 65536 = 3 ∧ bytesNeeded (2 ^ 24 - 1) = 3 ∧ bytesNeeded (2 ^ 24) = 4 ∧ bytesNeeded 20000001 = 4 ∧
    bytesNeeded (2 ^ 32) = 5 ∧ bytesNeeded (2 ^ 64) = 9 ∧ bytesNeeded (2 ^ 127 - 1) = 16

/-- 41_whole_number.md R103: `MinOctets(v)` is the least number of octets, at least one, that holds `v`. -/
def Obligations.MinOctetsIsLeast : Prop :=
  (∀ v : Nat, 1 ≤ minOctets v ∧ v < 2 ^ (8 * minOctets v) ∧
    ∀ o, 1 ≤ o → v < 2 ^ (8 * o) → minOctets v ≤ o) ∧
  minOctets 0 = 1 ∧ minOctets 255 = 1 ∧ minOctets 256 = 2 ∧ minOctets (2 ^ 128 - 1) = 16

/-- 60_exceptions.md R140: the codes of the ten statuses; codes 10 to 15 are never produced. -/
def Obligations.StatusCodesAreTheTable : Prop :=
  statusCode .ok = 0 ∧ statusCode .outOfBits = 1 ∧ statusCode .invalidRange = 2 ∧
    statusCode .invalidLengthMultiplier = 3 ∧ statusCode .unsupportedRange = 4 ∧ statusCode .widthTooLarge = 5 ∧
    statusCode .valueOverflow = 6 ∧ statusCode .valueOutOfRange = 7 ∧ statusCode .wrongMode = 8 ∧
    statusCode .illegalCommand = 9 ∧ ∀ k : Status, (statusCode k).toNat ≤ 9

/-! ### Round trips -/

/-- 41_whole_number.md R101 (and for the other encode commands 40_bit_cursor.md section 5, 42_length_determinant.md
section 4): what an encode command wrote with `OK`, its mirror reads back from the same start position, and ends where
the encoder ended. -/
def Obligations.EveryEncodeIsReadBack : Prop :=
  ∀ (i j : Instr) (s t d : State), WellFormed i → mirror i = some j → Inv s → s.mode = .enc →
    exec i s = .next t → t.response = some ⟨.ok, none⟩ → ReadsBack t d s.bitPosition →
    exec j d = .next { d with bitPosition := t.bitPosition, response := some ⟨.ok, encodedValue i⟩ }

/-- 40_bit_cursor.md R85, for every encode command and not only the primitives: a whole encode pass of commands that all
end `OK`, read by the matching decode commands, gives back every value in order, with the position equal at each
step. -/
def Obligations.WholePassIsReadBack : Prop :=
  ∀ (is : List Instr) (s t d : State) (xs : List (Option Pattern × Nat)),
    (∀ i, i ∈ is → WellFormed i ∧ (mirror i).isSome = true) → Inv s → s.mode = .enc → s.transfer = none →
    runOk is s = some (xs, t) → ReadsBack t d s.bitPosition →
    ∃ d', runOk (is.filterMap mirror) d = some (List.zipWith (fun i x => (encodedValue i, x.2)) is xs, d') ∧
      d'.bitPosition = t.bitPosition

/-- 43_construction.md section 2 (R134) and section 1 (R130): the octets read out of a pass, given to `INIT_DEC`, make a
decode pass that reads that pass back from offset 0. -/
def Obligations.SliceOfReadOutReadsBack : Prop :=
  ∀ (s d u : State) (os rest : List Octet), Inv s → memRead 0 (octets s.bitLength) s = some os →
    d.din = os ++ rest → os.length ≤ d.capBytes → exec (.initDec os.length) d = .next u → ReadsBack s u 0
end

