-- ==== Sys2Proof/Laws/State.lean ====
section
/-! SUPPORT. What each named update of the state does to each field, so that no later proof unfolds a record
update. -/

namespace Sys2Proof.Machine

open Sys2Proof

/-! ### `setPos` -/

@[simp] theorem setPos_capBytes (p : Nat) (s : State) : (setPos p s).capBytes = s.capBytes := rfl
@[simp] theorem setPos_softPolicy (p : Nat) (s : State) : (setPos p s).softPolicy = s.softPolicy := rfl
@[simp] theorem setPos_buffer (p : Nat) (s : State) : (setPos p s).buffer = s.buffer := rfl
@[simp] theorem setPos_bitPosition (p : Nat) (s : State) : (setPos p s).bitPosition = p := rfl
@[simp] theorem setPos_bitLength (p : Nat) (s : State) : (setPos p s).bitLength = s.bitLength := rfl
@[simp] theorem setPos_mode (p : Nat) (s : State) : (setPos p s).mode = s.mode := rfl
@[simp] theorem setPos_response (p : Nat) (s : State) : (setPos p s).response = s.response := rfl
@[simp] theorem setPos_transfer (p : Nat) (s : State) : (setPos p s).transfer = s.transfer := rfl
@[simp] theorem setPos_din (p : Nat) (s : State) : (setPos p s).din = s.din := rfl
@[simp] theorem setPos_hostQueue (p : Nat) (s : State) : (setPos p s).hostQueue = s.hostQueue := rfl

/-! ### `align` -/

@[simp] theorem align_capBytes (s : State) : (align s).capBytes = s.capBytes := rfl
@[simp] theorem align_softPolicy (s : State) : (align s).softPolicy = s.softPolicy := rfl
@[simp] theorem align_buffer (s : State) : (align s).buffer = s.buffer := rfl
@[simp] theorem align_bitPosition (s : State) : (align s).bitPosition = alignUp s.bitPosition := rfl
@[simp] theorem align_bitLength (s : State) : (align s).bitLength = s.bitLength := rfl
@[simp] theorem align_mode (s : State) : (align s).mode = s.mode := rfl
@[simp] theorem align_response (s : State) : (align s).response = s.response := rfl
@[simp] theorem align_transfer (s : State) : (align s).transfer = s.transfer := rfl
@[simp] theorem align_din (s : State) : (align s).din = s.din := rfl
@[simp] theorem align_hostQueue (s : State) : (align s).hostQueue = s.hostQueue := rfl

/-! ### `appended` -/

@[simp] theorem appended_capBytes (m : Memory) (p : Nat) (s : State) : (appended m p s).capBytes = s.capBytes := rfl
@[simp] theorem appended_softPolicy (m : Memory) (p : Nat) (s : State) : (appended m p s).softPolicy = s.softPolicy := rfl
@[simp] theorem appended_buffer (m : Memory) (p : Nat) (s : State) : (appended m p s).buffer = m := rfl
@[simp] theorem appended_bitPosition (m : Memory) (p : Nat) (s : State) : (appended m p s).bitPosition = p := rfl
@[simp] theorem appended_bitLength (m : Memory) (p : Nat) (s : State) : (appended m p s).bitLength = p := rfl
@[simp] theorem appended_mode (m : Memory) (p : Nat) (s : State) : (appended m p s).mode = s.mode := rfl
@[simp] theorem appended_response (m : Memory) (p : Nat) (s : State) : (appended m p s).response = s.response := rfl
@[simp] theorem appended_transfer (m : Memory) (p : Nat) (s : State) : (appended m p s).transfer = s.transfer := rfl
@[simp] theorem appended_din (m : Memory) (p : Nat) (s : State) : (appended m p s).din = s.din := rfl
@[simp] theorem appended_hostQueue (m : Memory) (p : Nat) (s : State) : (appended m p s).hostQueue = s.hostQueue := rfl

/-! ### `raiseError` -/

@[simp] theorem raiseError_capBytes (k : Status) (s : State) : (raiseError k s).capBytes = s.capBytes := rfl
@[simp] theorem raiseError_softPolicy (k : Status) (s : State) : (raiseError k s).softPolicy = s.softPolicy := rfl
@[simp] theorem raiseError_buffer (k : Status) (s : State) : (raiseError k s).buffer = s.buffer := rfl
@[simp] theorem raiseError_bitPosition (k : Status) (s : State) : (raiseError k s).bitPosition = s.bitPosition := rfl
@[simp] theorem raiseError_bitLength (k : Status) (s : State) : (raiseError k s).bitLength = s.bitLength := rfl
@[simp] theorem raiseError_mode (k : Status) (s : State) : (raiseError k s).mode = s.mode := rfl
@[simp] theorem raiseError_response (k : Status) (s : State) : (raiseError k s).response = some ⟨k, none⟩ := rfl
@[simp] theorem raiseError_transfer (k : Status) (s : State) : (raiseError k s).transfer = s.transfer := rfl
@[simp] theorem raiseError_din (k : Status) (s : State) : (raiseError k s).din = s.din := rfl
@[simp] theorem raiseError_hostQueue (k : Status) (s : State) : (raiseError k s).hostQueue = s.hostQueue := rfl

/-! ### `endOk` -/

@[simp] theorem endOk_capBytes (r : Option Pattern) (s : State) : (endOk r s).capBytes = s.capBytes := rfl
@[simp] theorem endOk_softPolicy (r : Option Pattern) (s : State) : (endOk r s).softPolicy = s.softPolicy := rfl
@[simp] theorem endOk_buffer (r : Option Pattern) (s : State) : (endOk r s).buffer = s.buffer := rfl
@[simp] theorem endOk_bitPosition (r : Option Pattern) (s : State) : (endOk r s).bitPosition = s.bitPosition := rfl
@[simp] theorem endOk_bitLength (r : Option Pattern) (s : State) : (endOk r s).bitLength = s.bitLength := rfl
@[simp] theorem endOk_mode (r : Option Pattern) (s : State) : (endOk r s).mode = s.mode := rfl
@[simp] theorem endOk_response (r : Option Pattern) (s : State) : (endOk r s).response = some ⟨.ok, r⟩ := rfl
@[simp] theorem endOk_transfer (r : Option Pattern) (s : State) : (endOk r s).transfer = s.transfer := rfl
@[simp] theorem endOk_din (r : Option Pattern) (s : State) : (endOk r s).din = s.din := rfl
@[simp] theorem endOk_hostQueue (r : Option Pattern) (s : State) : (endOk r s).hostQueue = s.hostQueue := rfl

/-! ### `dequeue` -/

@[simp] theorem dequeue_capBytes (q : List HostInput) (s : State) : (dequeue q s).capBytes = s.capBytes := rfl
@[simp] theorem dequeue_softPolicy (q : List HostInput) (s : State) : (dequeue q s).softPolicy = s.softPolicy := rfl
@[simp] theorem dequeue_buffer (q : List HostInput) (s : State) : (dequeue q s).buffer = s.buffer := rfl
@[simp] theorem dequeue_bitPosition (q : List HostInput) (s : State) : (dequeue q s).bitPosition = s.bitPosition := rfl
@[simp] theorem dequeue_bitLength (q : List HostInput) (s : State) : (dequeue q s).bitLength = s.bitLength := rfl
@[simp] theorem dequeue_mode (q : List HostInput) (s : State) : (dequeue q s).mode = s.mode := rfl
@[simp] theorem dequeue_response (q : List HostInput) (s : State) : (dequeue q s).response = s.response := rfl
@[simp] theorem dequeue_transfer (q : List HostInput) (s : State) : (dequeue q s).transfer = s.transfer := rfl
@[simp] theorem dequeue_din (q : List HostInput) (s : State) : (dequeue q s).din = s.din := rfl
@[simp] theorem dequeue_hostQueue (q : List HostInput) (s : State) : (dequeue q s).hostQueue = q := rfl

/-! ### `clearResponse` -/

@[simp] theorem clearResponse_capBytes (s : State) : (clearResponse s).capBytes = s.capBytes := rfl
@[simp] theorem clearResponse_softPolicy (s : State) : (clearResponse s).softPolicy = s.softPolicy := rfl
@[simp] theorem clearResponse_buffer (s : State) : (clearResponse s).buffer = s.buffer := rfl
@[simp] theorem clearResponse_bitPosition (s : State) : (clearResponse s).bitPosition = s.bitPosition := rfl
@[simp] theorem clearResponse_bitLength (s : State) : (clearResponse s).bitLength = s.bitLength := rfl
@[simp] theorem clearResponse_mode (s : State) : (clearResponse s).mode = s.mode := rfl
@[simp] theorem clearResponse_response (s : State) : (clearResponse s).response = none := rfl
@[simp] theorem clearResponse_transfer (s : State) : (clearResponse s).transfer = s.transfer := rfl
@[simp] theorem clearResponse_din (s : State) : (clearResponse s).din = s.din := rfl
@[simp] theorem clearResponse_hostQueue (s : State) : (clearResponse s).hostQueue = s.hostQueue := rfl

/-! ### `applyRst` -/

@[simp] theorem applyRst_capBytes (s : State) : (applyRst s).capBytes = s.capBytes := rfl
@[simp] theorem applyRst_softPolicy (s : State) : (applyRst s).softPolicy = s.softPolicy := rfl
@[simp] theorem applyRst_buffer (s : State) : (applyRst s).buffer = [] := rfl
@[simp] theorem applyRst_bitPosition (s : State) : (applyRst s).bitPosition = 0 := rfl
@[simp] theorem applyRst_bitLength (s : State) : (applyRst s).bitLength = 0 := rfl
@[simp] theorem applyRst_mode (s : State) : (applyRst s).mode = .none := rfl
@[simp] theorem applyRst_response (s : State) : (applyRst s).response = none := rfl
@[simp] theorem applyRst_transfer (s : State) : (applyRst s).transfer = none := rfl
@[simp] theorem applyRst_din (s : State) : (applyRst s).din = s.din := rfl
@[simp] theorem applyRst_hostQueue (s : State) : (applyRst s).hostQueue = s.hostQueue := rfl

/-! ### `presenting` -/

@[simp] theorem presenting_capBytes (c : Command) (s : State) : (presenting c s).capBytes = s.capBytes := rfl
@[simp] theorem presenting_softPolicy (c : Command) (s : State) : (presenting c s).softPolicy = s.softPolicy := rfl
@[simp] theorem presenting_buffer (c : Command) (s : State) : (presenting c s).buffer = s.buffer := rfl
@[simp] theorem presenting_bitPosition (c : Command) (s : State) : (presenting c s).bitPosition = s.bitPosition := rfl
@[simp] theorem presenting_bitLength (c : Command) (s : State) : (presenting c s).bitLength = s.bitLength := rfl
@[simp] theorem presenting_mode (c : Command) (s : State) : (presenting c s).mode = s.mode := rfl
@[simp] theorem presenting_response (c : Command) (s : State) : (presenting c s).response = none := rfl
@[simp] theorem presenting_transfer (c : Command) (s : State) : (presenting c s).transfer = none := rfl
@[simp] theorem presenting_din (c : Command) (s : State) : (presenting c s).din = s.din := rfl
@[simp] theorem presenting_hostQueue (c : Command) (s : State) : (presenting c s).hostQueue = .command c :: s.hostQueue := rfl

/-! ### Repeated updates -/

@[simp] theorem setPos_setPos (p q : Nat) (s : State) : setPos p (setPos q s) = setPos p s := rfl

@[simp] theorem setPos_self (s : State) : setPos s.bitPosition s = s := rfl

@[simp] theorem appended_appended (m m' : Memory) (p q : Nat) (s : State) :
    appended m p (appended m' q s) = appended m p s := rfl

@[simp] theorem capBits_setPos (p : Nat) (s : State) : capBits (setPos p s) = capBits s := rfl

@[simp] theorem capBits_align (s : State) : capBits (align s) = capBits s := rfl

@[simp] theorem capBits_appended (m : Memory) (p : Nat) (s : State) : capBits (appended m p s) = capBits s := rfl

/-! ### The response port -/

theorem rspPort_of_none {s : State} (h : s.response = none) : rspPort s = none := by simp [rspPort, h]

theorem rspPort_of_some {s : State} {r : Response} (h : s.response = some r) :
    rspPort s = some (statusCode r.status, r.result) := by simp [rspPort, h]

end Sys2Proof.Machine
end

