-- ==== Sys2Proof/Laws/Memory.lean ====
section
/-! SUPPORT. The laws of the buffer: a read after a write, the canonical form, and what `RdBits` and `WrBits` do to
each bit (20_memory.md R32, R33). -/

namespace Sys2Proof.Machine

open Sys2Proof

/-! ### Octets -/

@[simp] theorem octetAt_nil (k : Nat) : octetAt [] k = none := rfl

@[simp] theorem octetAt_putOctet_same (m : Memory) (k : Nat) (b : Octet) : octetAt (putOctet m k b) k = some b := by
  induction m with
  | nil => simp [putOctet, octetAt]
  | cons c m ih =>
    unfold putOctet
    split_ifs with h1 h2
    · simp [octetAt]
    · simp [octetAt]
    · simp [octetAt, ih, Ne.symm h2]

theorem octetAt_putOctet_other (m : Memory) {k j : Nat} (b : Octet) (h : j ≠ k) :
    octetAt (putOctet m k b) j = octetAt m j := by
  induction m with
  | nil => simp [putOctet, octetAt, h.symm]
  | cons c m ih =>
    unfold putOctet
    split_ifs with h1 h2
    · simp [octetAt, h.symm]
    · subst h2; simp [octetAt, h.symm]
    · simp [octetAt, ih]

theorem octetAt_putOctet (m : Memory) (k j : Nat) (b : Octet) :
    octetAt (putOctet m k b) j = if j = k then some b else octetAt m j := by
  split_ifs with h
  · subst h; simp
  · exact octetAt_putOctet_other m b h

theorem mem_putOctet {m : Memory} {k : Nat} {b : Octet} {x : Host.Cell} (h : x ∈ putOctet m k b) :
    x = (k, b) ∨ x ∈ m := by
  induction m with
  | nil => simpa [putOctet] using h
  | cons c m ih =>
    unfold putOctet at h
    split_ifs at h with h1 h2
    · simpa using h
    · rcases List.mem_cons.1 h with h | h <;> simp [h]
    · rcases List.mem_cons.1 h with h | h
      · simp [h]
      · rcases ih h with h | h <;> simp [h]

/-- A write of an octet keeps the canonical form. -/
theorem putOctet_wf {m : Memory} (h : Memory.wf m) (k : Nat) (b : Octet) : Memory.wf (putOctet m k b) := by
  induction m with
  | nil => simp [Memory.wf, putOctet]
  | cons c m ih =>
    obtain ⟨hc, hm⟩ := List.pairwise_cons.1 h
    unfold putOctet
    split_ifs with h1 h2
    · refine List.pairwise_cons.2 ⟨?_, h⟩
      intro x hx
      rcases List.mem_cons.1 hx with rfl | hx
      · exact h1
      · exact lt_trans h1 (hc x hx)
    · subst h2; exact List.pairwise_cons.2 ⟨hc, hm⟩
    · refine List.pairwise_cons.2 ⟨?_, ih hm⟩
      intro x hx
      rcases mem_putOctet hx with rfl | hx
      · exact lt_of_le_of_ne (Nat.le_of_not_lt h1) (Ne.symm h2)
      · exact hc x hx

/-- Two buffers in canonical form with the same octets are the same data. -/
theorem memory_ext {m m' : Memory} (h : Memory.wf m) (h' : Memory.wf m')
    (e : ∀ k, octetAt m k = octetAt m' k) : m = m' := by
  have absent : ∀ {c : Host.Cell} {m : Memory}, Memory.wf (c :: m) → ∀ k ≤ c.1, octetAt m k = none := by
    intro c m hw k hk
    obtain ⟨hc, -⟩ := List.pairwise_cons.1 hw
    clear hw
    induction m with
    | nil => rfl
    | cons d m ih =>
      have hd := hc d (by simp)
      have : d.1 ≠ k := by omega
      simp only [octetAt, if_neg this]
      exact ih fun x hx => hc x (by simp [hx])
  induction m generalizing m' with
  | nil =>
    cases m' with
    | nil => rfl
    | cons d m' => have := e d.1; simp [octetAt] at this
  | cons c m ih =>
    cases m' with
    | nil => have := e c.1; simp [octetAt] at this
    | cons d m' =>
      have hcd : c.1 = d.1 := by
        rcases lt_trichotomy c.1 d.1 with hlt | heq | hgt
        · have := e c.1
          have h2 : octetAt m' c.1 = none := absent h' _ hlt.le
          simp [octetAt, h2, (ne_of_gt hlt)] at this
        · exact heq
        · have := e d.1
          have h2 : octetAt m d.1 = none := absent h _ hgt.le
          simp [octetAt, h2, (ne_of_gt hgt)] at this
      have hv : c.2 = d.2 := by simpa [octetAt, hcd] using e c.1
      have hrest : m = m' := by
        refine ih (List.pairwise_cons.1 h).2 (List.pairwise_cons.1 h').2 fun k => ?_
        by_cases hk : k = c.1
        · rw [absent h k hk.le, absent h' k (by omega)]
        · have := e k
          simpa [octetAt, Ne.symm hk, hcd ▸ Ne.symm hk] using this
      rw [hrest, Prod.ext hcd hv]

theorem octetAt_zeroFill (m : Memory) (first count k : Nat) :
    octetAt (zeroFill m first count) k = if first ≤ k ∧ k < first + count then some 0 else octetAt m k := by
  induction count with
  | zero => rw [if_neg (by omega)]; rfl
  | succ n ih =>
    rw [zeroFill, octetAt_putOctet, ih]
    split_ifs <;> first | rfl | omega

theorem zeroFill_wf {m : Memory} (h : Memory.wf m) (first count : Nat) : Memory.wf (zeroFill m first count) := by
  induction count with
  | zero => exact h
  | succ n ih => exact putOctet_wf ih _ _

theorem octetAt_loadSlice (m : Memory) (k : Nat) (bs : List Octet) (j : Nat) :
    octetAt (loadSlice m k bs) j = if k ≤ j ∧ j < k + bs.length then bs[j - k]? else octetAt m j := by
  induction bs generalizing m k with
  | nil => rw [if_neg (by simp)]; rfl
  | cons b bs ih =>
    rw [loadSlice, ih, octetAt_putOctet]
    by_cases h : j = k
    · subst h; simp
    · by_cases h2 : k + 1 ≤ j ∧ j < k + 1 + bs.length
      · rw [if_pos h2, if_pos (by simp; omega)]
        have : j - k = (j - (k + 1)) + 1 := by omega
        rw [this, List.getElem?_cons_succ]
      · rw [if_neg h2, if_neg h, if_neg (by simp; omega)]

theorem loadSlice_wf {m : Memory} (h : Memory.wf m) (k : Nat) (bs : List Octet) : Memory.wf (loadSlice m k bs) := by
  induction bs generalizing m k with
  | nil => exact h
  | cons b bs ih => exact ih (putOctet_wf h _ _) _

/-! ### Bits -/

theorem getLsbD_withBit (o : Octet) {j : Nat} (hj : j < 8) (b : Bool) (i : Nat) :
    (withBit o j b).getLsbD i = if i = j then b else o.getLsbD i := by
  unfold withBit
  by_cases hi : i < 8
  · by_cases h : i = j
    · subst h; cases b <;> simp [hi]
    · cases b <;> simp [h, hi]
  · have h : i ≠ j := by omega
    have h8 : 8 ≤ i := by omega
    simp [h, BitVec.getLsbD_of_ge _ _ h8]

theorem bitInOctet_lt (i : Nat) : bitInOctet i < 8 := by unfold bitInOctet; omega

theorem bitInOctet_inj {i j : Nat} (hd : i / 8 = j / 8) (h : bitInOctet i = bitInOctet j) : i = j := by
  unfold bitInOctet at h; omega

theorem bitAt_isSome (m : Memory) (i : Nat) : (bitAt m i).isSome = (octetAt m (i / 8)).isSome := by
  simp [bitAt]

/-- The write of one bit: that bit is as written, every other bit and every other octet is as before, and no octet
gains or loses a value. -/
theorem setBitAt_spec {m m' : Memory} {i : Nat} {b : Bool} (h : setBitAt m i b = some m') :
    bitAt m' i = some b ∧ (∀ j, j ≠ i → bitAt m' j = bitAt m j) ∧
      (∀ k, k ≠ i / 8 → octetAt m' k = octetAt m k) ∧
      (∀ k, (octetAt m' k).isSome = (octetAt m k).isSome) ∧ (Memory.wf m → Memory.wf m') := by
  obtain ⟨o, ho, rfl⟩ := Option.map_eq_some_iff.1 h
  refine ⟨?_, fun j hj => ?_, fun k hk => octetAt_putOctet_other _ _ hk, fun k => ?_, fun hw => putOctet_wf hw _ _⟩
  · simp [bitAt, getLsbD_withBit _ (bitInOctet_lt i)]
  · by_cases hd : j / 8 = i / 8
    · have hb : bitInOctet j ≠ bitInOctet i := fun e => hj (bitInOctet_inj hd e)
      simp [bitAt, hd, ho, getLsbD_withBit _ (bitInOctet_lt i), hb]
    · simp [bitAt, octetAt_putOctet_other _ _ hd]
  · by_cases hk : k = i / 8
    · subst hk; simp [ho]
    · rw [octetAt_putOctet_other _ _ hk]

theorem setBitAt_isSome (m : Memory) (i : Nat) (b : Bool) : (setBitAt m i b).isSome = (octetAt m (i / 8)).isSome := by
  simp [setBitAt]

theorem mergeBits_zero (m : Memory) (p v : Nat) : mergeBits m p 0 v = some m := rfl

theorem mergeBits_succ (m : Memory) (p n v : Nat) :
    mergeBits m p (n + 1) v = (mergeBits m p n (v / 2)).bind fun m' => setBitAt m' (p + n) (v % 2 == 1) := by
  rw [mergeBits]; cases mergeBits m p n (v / 2) <;> rfl

/-- The merge of `n` bits: bit `p + k` is bit `n - 1 - k` of the value, every other bit and every octet outside is as
before, and no octet gains or loses a value (20_memory.md R33). -/
theorem mergeBits_spec {m m' : Memory} {p n v : Nat} (h : mergeBits m p n v = some m') :
    (∀ k, k < n → bitAt m' (p + k) = some (v.testBit (n - 1 - k))) ∧
      (∀ i, i < p ∨ p + n ≤ i → bitAt m' i = bitAt m i) ∧
      (∀ k, k < p / 8 ∨ octets (p + n) ≤ k → octetAt m' k = octetAt m k) ∧
      (∀ k, (octetAt m' k).isSome = (octetAt m k).isSome) ∧ (Memory.wf m → Memory.wf m') := by
  induction n generalizing v m' with
  | zero =>
    obtain rfl : m = m' := by simpa [mergeBits] using h
    exact ⟨by simp, fun _ _ => rfl, fun _ _ => rfl, fun _ => rfl, id⟩
  | succ n ih =>
    rw [mergeBits_succ] at h
    obtain ⟨m1, h1, h2⟩ := Option.bind_eq_some_iff.1 h
    obtain ⟨hin, hout, hoct, hsome, hwf⟩ := ih h1
    obtain ⟨sbit, sother, soct, ssome, swf⟩ := setBitAt_spec h2
    refine ⟨fun k hk => ?_, fun i hi => ?_, fun k hk => ?_, fun k => ?_, fun hw => swf (hwf hw)⟩
    · by_cases hkn : k = n
      · subst hkn
        rw [sbit]
        simp [Nat.testBit_zero, beq_eq_decide]
      · have hlt : k < n := by omega
        rw [sother _ (by omega), hin k hlt]
        have : n + 1 - 1 - k = (n - 1 - k) + 1 := by omega
        rw [this, Nat.testBit_add_one]
    · rw [sother _ (by omega), hout _ (by omega)]
    · rw [soct _ (by unfold octets at hk; omega), hoct _ (by unfold octets at hk ⊢; omega)]
    · rw [ssome, hsome]

theorem mergeBits_isSome {m : Memory} {p n : Nat} (v : Nat)
    (h : ∀ k, p / 8 ≤ k → k < octets (p + n) → (octetAt m k).isSome = true) : (mergeBits m p n v).isSome = true := by
  induction n generalizing v with
  | zero => rfl
  | succ n ih =>
    have hrec := ih (v / 2) fun k h1 h2 => h k h1 (by unfold octets at h2 ⊢; omega)
    obtain ⟨m1, h1⟩ := Option.isSome_iff_exists.1 hrec
    rw [mergeBits_succ, h1, Option.bind_some, setBitAt_isSome, (mergeBits_spec h1).2.2.2.1]
    exact h _ (by omega) (by unfold octets; omega)

/-! ### `RdBits` -/

@[simp] theorem rdBits_zero (m : Memory) (p : Nat) : rdBits m p 0 = some 0 := rfl

theorem rdBits_succ (m : Memory) (p n : Nat) :
    rdBits m p (n + 1) = (rdBits m p n).bind fun v => (bitAt m (p + n)).map fun b => 2 * v + b.toNat := by
  rw [rdBits]; cases rdBits m p n <;> cases bitAt m (p + n) <;> rfl

/-- `RdBits` is the number whose bit `n - 1 - k` is the buffer's bit `p + k`, and it is below `2^n`
(20_memory.md R32). -/
theorem rdBits_spec {m : Memory} {p n v : Nat} (h : rdBits m p n = some v) :
    v < 2 ^ n ∧ ∀ k, k < n → bitAt m (p + k) = some (v.testBit (n - 1 - k)) := by
  induction n generalizing v with
  | zero => obtain rfl : 0 = v := by simpa using h
            simp
  | succ n ih =>
    rw [rdBits_succ] at h
    obtain ⟨u, hu, h2⟩ := Option.bind_eq_some_iff.1 h
    obtain ⟨b, hb, rfl⟩ := Option.map_eq_some_iff.1 h2
    obtain ⟨hlt, hbits⟩ := ih hu
    have hb1 : b.toNat ≤ 1 := Bool.toNat_le b
    refine ⟨by rw [pow_succ]; omega, fun k hk => ?_⟩
    by_cases hkn : k = n
    · subst hkn
      rw [hb]; cases b <;> simp [Nat.testBit_zero]
    · rw [hbits k (by omega)]
      have : n + 1 - 1 - k = (n - 1 - k) + 1 := by omega
      rw [this, Nat.testBit_add_one]
      have : (2 * u + b.toNat) / 2 = u := by omega
      rw [this]

theorem rdBits_isSome {m : Memory} {p n : Nat}
    (h : ∀ k, p / 8 ≤ k → k < octets (p + n) → (octetAt m k).isSome = true) : (rdBits m p n).isSome = true := by
  induction n with
  | zero => rfl
  | succ n ih =>
    obtain ⟨v, hv⟩ := Option.isSome_iff_exists.1 (ih fun k h1 h2 => h k h1 (by unfold octets at h2 ⊢; omega))
    have hb : (bitAt m (p + n)).isSome = true := by
      rw [bitAt_isSome]; exact h _ (by omega) (by unfold octets; omega)
    obtain ⟨b, hb⟩ := Option.isSome_iff_exists.1 hb
    simp [rdBits_succ, hv, hb]

/-- `RdBits` depends on the bits it reads and on nothing else. -/
theorem rdBits_congr {m m' : Memory} {p n : Nat} (h : ∀ i, p ≤ i → i < p + n → bitAt m i = bitAt m' i) :
    rdBits m p n = rdBits m' p n := by
  induction n with
  | zero => rfl
  | succ n ih =>
    rw [rdBits_succ, rdBits_succ, ih fun i h1 h2 => h i h1 (by omega), h (p + n) (by omega) (by omega)]

/-- `RdBits` reads a number whose bits the buffer holds (20_memory.md R32). -/
theorem rdBits_of_bits {m : Memory} {p n v : Nat} (hv : v < 2 ^ n)
    (h : ∀ k, k < n → bitAt m (p + k) = some (v.testBit (n - 1 - k))) : rdBits m p n = some v := by
  induction n generalizing v with
  | zero => obtain rfl : v = 0 := by simpa using hv
            rfl
  | succ n ih =>
    have hrec : rdBits m p n = some (v / 2) := by
      refine ih (by rw [pow_succ] at hv; omega) fun k hk => ?_
      rw [h k (by omega)]
      have : n + 1 - 1 - k = (n - 1 - k) + 1 := by omega
      rw [this, Nat.testBit_add_one]
    rw [rdBits_succ, hrec, h n (by omega)]
    have : n + 1 - 1 - n = 0 := by omega
    rw [this, Nat.testBit_zero]
    simp only [Option.bind_some, Option.map_some, Option.some.injEq]
    rcases Nat.mod_two_eq_zero_or_one v with h0 | h0 <;> simp [h0] <;> omega

/-! ### `WrBits` -/

@[simp] theorem wrBits_zero (m : Memory) (len p v : Nat) : wrBits m len p 0 v = some m := by simp [wrBits]

/-- What a write does (20_memory.md R33, 10_state.md R15): the `n` bits are those of the value; the other bits of the
octets in use, and every octet the write does not reach, are as before; the other bits of the octets it first
reaches are 0; the canonical form is kept. -/
theorem wrBits_spec {m m' : Memory} {len p n v : Nat} (h : wrBits m len p n v = some m') :
    (∀ k, k < n → bitAt m' (p + k) = some (v.testBit (n - 1 - k))) ∧
      (∀ i, i < p ∨ p + n ≤ i → i / 8 < octets len ∨ octets (p + n) ≤ i / 8 → bitAt m' i = bitAt m i) ∧
      (0 < n → ∀ i, i < p ∨ p + n ≤ i → octets len ≤ i / 8 → i / 8 < octets (p + n) → bitAt m' i = some false) ∧
      (∀ k, k < p / 8 ∨ octets (p + n) ≤ k → k < octets len ∨ octets (p + n) ≤ k → octetAt m' k = octetAt m k) ∧
      (∀ k, (octetAt m k).isSome = true → (octetAt m' k).isSome = true) ∧
      (0 < n → ∀ k, octets len ≤ k → k < octets (p + n) → (octetAt m' k).isSome = true) ∧
      (∀ k, octets (p + n) ≤ k → octetAt m' k = octetAt m k) ∧
      (Memory.wf m → Memory.wf m') := by
  by_cases hn : n = 0
  · subst hn
    obtain rfl : m = m' := by simpa using h
    exact ⟨by simp, fun _ _ _ => rfl, by simp, fun _ _ _ => rfl, fun _ => id, by simp, fun _ _ => rfl, id⟩
  · rw [wrBits, if_neg hn] at h
    obtain ⟨hin, hout, hoct, hsome, hwf⟩ := mergeBits_spec h
    refine ⟨hin, fun i hi ho => ?_, fun _ i hi h1 h2 => ?_, fun k hk ho => ?_, fun k hk => ?_, fun _ k h1 h2 => ?_,
      fun k hk => ?_, fun hw => hwf (zeroFill_wf hw _ _)⟩
    · rw [hout i hi]; unfold bitAt; rw [octetAt_zeroFill, if_neg (by omega)]
    · rw [hout i hi]; unfold bitAt; rw [octetAt_zeroFill, if_pos (by omega)]; simp
    · rw [hoct k hk, octetAt_zeroFill, if_neg (by omega)]
    · rw [hsome, octetAt_zeroFill]; split_ifs <;> simp [hk]
    · rw [hsome, octetAt_zeroFill, if_pos (by omega)]; rfl
    · rw [hoct k (.inr hk), octetAt_zeroFill, if_neg (by omega)]

theorem wrBits_isSome {m : Memory} {len p n : Nat} (v : Nat)
    (h : ∀ k, p / 8 ≤ k → k < octets len → (octetAt m k).isSome = true) : (wrBits m len p n v).isSome = true := by
  unfold wrBits
  split_ifs with hn
  · rfl
  · refine mergeBits_isSome v fun k h1 h2 => ?_
    rw [octetAt_zeroFill]
    split_ifs with h3
    · rfl
    · exact h k h1 (by omega)

/-- What was written is read back (20_memory.md R33). -/
theorem rdBits_of_wrBits {m m' : Memory} {len p n v : Nat} (h : wrBits m len p n v = some m') (hv : v < 2 ^ n) :
    rdBits m' p n = some v := rdBits_of_bits hv (wrBits_spec h).1

end Sys2Proof.Machine
end

