-- ==== Sys2Proof/Laws/Ops.lean ====
section
/-! SUPPORT. For each shared operation, once, everything it can do: when it yields, raises or stops, and with which
state (40_bit_cursor.md R70 to R77, 41_whole_number.md R102, 60_exceptions.md R150). -/

namespace Sys2Proof.Machine

open Sys2Proof

/-! ### Sequencing -/

@[simp] theorem bind_done {α β : Type} (a : α) (s : State) (f : α → State → Res β) :
    (Res.done a s).bind f = f a s := rfl

@[simp] theorem bind_raised {α β : Type} (k : Status) (s : State) (f : α → State → Res β) :
    (Res.raised k s).bind f = .raised k s := rfl

@[simp] theorem bind_stuck {α β : Type} (e : Fault) (f : α → State → Res β) :
    (Res.stuck e : Res α).bind f = .stuck e := rfl

theorem bind_eq_done {α β : Type} {r : Res α} {f : α → State → Res β} {b : β} {t : State} :
    r.bind f = .done b t ↔ ∃ a s, r = .done a s ∧ f a s = .done b t := by
  cases r <;> simp

theorem bind_eq_raised {α β : Type} {r : Res α} {f : α → State → Res β} {k : Status} {t : State} :
    r.bind f = .raised k t ↔ r = .raised k t ∨ ∃ a s, r = .done a s ∧ f a s = .raised k t := by
  cases r <;> simp

theorem bind_eq_stuck {α β : Type} {r : Res α} {f : α → State → Res β} {e : Fault} :
    r.bind f = .stuck e ↔ r = .stuck e ∨ ∃ a s, r = .done a s ∧ f a s = .stuck e := by
  cases r <;> simp

/-- The body ends in a state that meets `P`, by a value or by a `raise`; where it stops, `G` fails. -/
def Res.Obeys {α : Type} (G : Prop) (P : State → Prop) (r : Res α) : Prop :=
  match r with
  | .done _ t => P t
  | .raised _ t => P t
  | .stuck _ => ¬G

@[simp] theorem obeys_done {α : Type} (G : Prop) (P : State → Prop) (a : α) (t : State) :
    (Res.done a t).Obeys G P ↔ P t := Iff.rfl

@[simp] theorem obeys_raised {α : Type} (G : Prop) (P : State → Prop) (k : Status) (t : State) :
    (Res.raised k t : Res α).Obeys G P ↔ P t := Iff.rfl

@[simp] theorem obeys_stuck {α : Type} (G : Prop) (P : State → Prop) (e : Fault) :
    (Res.stuck e : Res α).Obeys G P ↔ ¬G := Iff.rfl

theorem obeys_bind {α β : Type} {G : Prop} {P : State → Prop} {r : Res α} {f : α → State → Res β}
    (h : r.Obeys G P) (hf : ∀ a t, P t → (f a t).Obeys G P) : (r.bind f).Obeys G P := by
  cases r with
  | done a t => exact hf a t h
  | raised k t => exact h
  | stuck e => exact h

/-! ### Ending a command -/

@[simp] theorem finish_done (v : Option Pattern) (s : State) : finish (.done v s) = .next (endOk v s) := rfl

@[simp] theorem finish_raised (k : Status) (s : State) : finish (.raised k s) = .next (raiseError k s) := rfl

@[simp] theorem finish_stuck (e : Fault) : finish (.stuck e) = .fault e := rfl

theorem finish_eq_next {r : Res (Option Pattern)} {t : State} :
    finish r = .next t ↔ (∃ v s, r = .done v s ∧ t = endOk v s) ∨ ∃ k s, r = .raised k s ∧ t = raiseError k s := by
  cases r <;> simp [eq_comm]

/-- The prelude's mode test passed (40_bit_cursor.md R77). -/
theorem command_inMode {need : Mode} {body : State → Res (Option Pattern)} {s : State} (h : s.mode = need) :
    command need body s = finish (body s) := if_pos h

/-- The prelude's mode test failed: `WrongMode`, and nothing else changes (60_exceptions.md R148). -/
theorem command_wrongMode {need : Mode} {body : State → Res (Option Pattern)} {s : State} (h : s.mode ≠ need) :
    command need body s = .next (raiseError .wrongMode s) := if_neg h

/-- Everything a command that needs a mode can do. -/
theorem command_cases {need : Mode} {body : State → Res (Option Pattern)} {s t : State}
    (h : command need body s = .next t) :
    (s.mode ≠ need ∧ t = raiseError .wrongMode s) ∨
      (s.mode = need ∧ ∃ v u, body s = .done v u ∧ t = endOk v u) ∨
      (s.mode = need ∧ ∃ k u, body s = .raised k u ∧ t = raiseError k u) := by
  by_cases hm : s.mode = need
  · rw [command_inMode hm, finish_eq_next] at h
    rcases h with h | h
    · exact .inr (.inl ⟨hm, h⟩)
    · exact .inr (.inr ⟨hm, h⟩)
  · rw [command_wrongMode hm] at h
    exact .inl ⟨hm, by injection h with h; exact h.symm⟩

@[simp] theorem yieldNat_done (n : Nat) (s : State) : (Res.done n s).yieldNat = .done (some (pat n)) s := rfl

@[simp] theorem yieldInt_done (x : Int) (s : State) : (Res.done x s).yieldInt = .done (some (pat x)) s := rfl

@[simp] theorem yieldNone_done (s : State) : (Res.done () s).yieldNone = .done none s := rfl

@[simp] theorem yieldNat_raised (k : Status) (s : State) : (Res.raised k s : Res Nat).yieldNat = .raised k s := rfl

@[simp] theorem yieldInt_raised (k : Status) (s : State) : (Res.raised k s : Res Int).yieldInt = .raised k s := rfl

@[simp] theorem yieldNone_raised (k : Status) (s : State) : (Res.raised k s : Res Unit).yieldNone = .raised k s := rfl

/-! ### Octet arithmetic -/

theorem le_alignUp (p : Nat) : p ≤ alignUp p := by unfold alignUp octets; omega

theorem alignUp_lt (p : Nat) : alignUp p < p + 8 := by unfold alignUp octets; omega

theorem alignUp_mod (p : Nat) : alignUp p % 8 = 0 := by unfold alignUp; omega

theorem alignUp_le {p l : Nat} (h : p ≤ l) (hl : l % 8 = 0) : alignUp p ≤ l := by unfold alignUp octets; omega

theorem alignUp_of_aligned {p : Nat} (h : p % 8 = 0) : alignUp p = p := by unfold alignUp octets; omega

/-- The two forms of the next multiple of 8 that the rules give agree (40_bit_cursor.md R72, R75). -/
theorem alignUp_eq_add (p : Nat) : alignUp p = p + (8 - p % 8) % 8 := by unfold alignUp octets; omega

/-! ### Decode side -/

/-- A pass whose reads meet no octet without a value. -/
structure DecPass (s : State) : Prop where
  posLeLen : s.bitPosition ≤ s.bitLength
  lenOctets : s.bitLength % 8 = 0
  hold : ∀ k, k < octets s.bitLength → (octetAt s.buffer k).isSome = true

/-- `t` is `s` with the cursor moved forward, within the length if `s` is a sound decode pass. -/
structure Moved (s t : State) : Prop where
  onlyPos : t = setPos t.bitPosition s
  forward : s.bitPosition ≤ t.bitPosition
  within : s.bitPosition ≤ s.bitLength → s.bitLength % 8 = 0 → t.bitPosition ≤ s.bitLength

theorem Moved.refl (s : State) : Moved s s := ⟨rfl, le_rfl, fun h _ => h⟩

theorem Moved.length {s t : State} (h : Moved s t) : t.bitLength = s.bitLength := by rw [h.onlyPos]; rfl

theorem Moved.trans {s t u : State} (h : Moved s t) (h' : Moved t u) : Moved s u := by
  refine ⟨?_, h.forward.trans h'.forward, fun h1 h2 => ?_⟩
  · rw [h'.onlyPos, h.onlyPos]; rfl
  · have := h'.within
    rw [h.length] at this
    exact this (h.within h1 h2) h2

theorem Moved.decPass {s t : State} (h : Moved s t) (hs : DecPass s) : DecPass t := by
  refine ⟨?_, ?_, ?_⟩
  · rw [h.length]; exact h.within hs.posLeLen hs.lenOctets
  · rw [h.length]; exact hs.lenOctets
  · rw [h.onlyPos]; exact hs.hold

theorem moved_setPos {s : State} {p : Nat} (h : s.bitPosition ≤ p)
    (hw : s.bitPosition ≤ s.bitLength → s.bitLength % 8 = 0 → p ≤ s.bitLength) : Moved s (setPos p s) :=
  ⟨rfl, h, hw⟩

theorem moved_align (s : State) : Moved s (align s) := moved_setPos (le_alignUp _) alignUp_le

/-- A body that runs after `s` was moved to `t` obeys, from `s`, what it obeys from `t`. -/
theorem Moved.obeys {α : Type} {s t : State} {r : Res α} (h : Moved s t) (hr : r.Obeys (DecPass t) (Moved t)) :
    r.Obeys (DecPass s) (Moved s) := by
  cases r with
  | done a u => exact h.trans hr
  | raised k u => exact h.trans hr
  | stuck e => exact fun hs => hr (h.decPass hs)

/-- When `ReadBit` yields (40_bit_cursor.md R70). -/
theorem readBit_eq_done {s t : State} {b : Bool} :
    readBit s = .done b t ↔
      s.bitPosition + 1 ≤ s.bitLength ∧ bitAt s.buffer s.bitPosition = some b ∧ t = setPos (s.bitPosition + 1) s := by
  unfold readBit
  split_ifs with h
  · simp; omega
  · cases bitAt s.buffer s.bitPosition <;> simp [eq_comm]; omega

/-- When `ReadBit` raises (40_bit_cursor.md R70). -/
theorem readBit_eq_raised {s t : State} {k : Status} :
    readBit s = .raised k t ↔ s.bitPosition + 1 > s.bitLength ∧ k = .outOfBits ∧ t = s := by
  unfold readBit
  split_ifs with h
  · simp [eq_comm, h]
  · cases bitAt s.buffer s.bitPosition <;> simp <;> omega

/-- When `ReadBits` yields (40_bit_cursor.md R71). -/
theorem readBits_eq_done {s t : State} {n v : Nat} :
    readBits n s = .done v t ↔
      n ≤ 128 ∧ s.bitPosition + n ≤ s.bitLength ∧ rdBits s.buffer s.bitPosition n = some v ∧
        t = setPos (s.bitPosition + n) s := by
  unfold readBits maxN
  split_ifs with h h'
  · simp; omega
  · simp; omega
  · have h1 : n ≤ 128 := by omega
    have h2 : s.bitPosition + n ≤ s.bitLength := by omega
    cases rdBits s.buffer s.bitPosition n <;> simp [h1, h2, eq_comm]

/-- When `ReadBits` raises, and which of its two errors (40_bit_cursor.md R71, 60_exceptions.md R152). -/
theorem readBits_eq_raised {s t : State} {n : Nat} {k : Status} :
    readBits n s = .raised k t ↔
      t = s ∧ (n > 128 ∧ k = .widthTooLarge ∨ n ≤ 128 ∧ s.bitPosition + n > s.bitLength ∧ k = .outOfBits) := by
  unfold readBits maxN
  split_ifs with h h'
  · have h1 : ¬n ≤ 128 := by omega
    simp [h, h1, eq_comm, and_comm]
  · have h1 : n ≤ 128 := by omega
    simp [h, h1, h', eq_comm, and_comm]
  · have h1 : ¬(n ≤ 128 ∧ s.bitPosition + n > s.bitLength) := by omega
    cases rdBits s.buffer s.bitPosition n <;> simp <;> omega

theorem readBit_obeys (s : State) : (readBit s).Obeys (DecPass s) (Moved s) := by
  unfold readBit
  split_ifs with h
  · exact Moved.refl s
  · cases hb : bitAt s.buffer s.bitPosition with
    | some b => exact moved_setPos (by omega) (by omega)
    | none =>
      intro hs
      have := hs.hold (s.bitPosition / 8) (by unfold octets; omega)
      rw [← bitAt_isSome, hb] at this
      simp at this

theorem readBits_obeys (n : Nat) (s : State) : (readBits n s).Obeys (DecPass s) (Moved s) := by
  unfold readBits
  split_ifs with h h'
  · exact Moved.refl s
  · exact Moved.refl s
  · cases hb : rdBits s.buffer s.bitPosition n with
    | some b => exact moved_setPos (by omega) (by omega)
    | none =>
      intro hs
      have : (rdBits s.buffer s.bitPosition n).isSome = true :=
        rdBits_isSome fun k _ h2 => hs.hold k (by unfold octets at h2 ⊢; omega)
      rw [hb] at this
      simp at this

/-- Everything `Skip` can do (40_bit_cursor.md R76). -/
theorem skip_obeys (n : Nat) (s : State) : (skip n s).Obeys (DecPass s) (Moved s) := by
  unfold skip
  split_ifs with h
  · exact Moved.refl s
  · exact moved_setPos (by omega) (by omega)

theorem skip_eq_done {s t : State} {n : Nat} {u : Unit} :
    skip n s = .done u t ↔ s.bitPosition + n ≤ s.bitLength ∧ t = setPos (s.bitPosition + n) s := by
  unfold skip
  split_ifs with h
  · simp; omega
  · simp [eq_comm]; omega

theorem skip_eq_raised {s t : State} {n : Nat} {k : Status} :
    skip n s = .raised k t ↔ s.bitPosition + n > s.bitLength ∧ k = .outOfBits ∧ t = s := by
  unfold skip
  split_ifs with h
  · simp [eq_comm, h]
  · simp; omega

/-- Everything `AddLb` can do (41_whole_number.md R102). -/
theorem addLb_eq_done {raw : Nat} {lb v : Int} {s t : State} :
    addLb raw lb s = .done v t ↔ (raw : Int) + lb ≤ maxS128 ∧ v = raw + lb ∧ t = s := by
  unfold addLb
  split_ifs with h
  · simp; omega
  · simp [eq_comm]; omega

theorem addLb_eq_raised {raw : Nat} {lb : Int} {s t : State} {k : Status} :
    addLb raw lb s = .raised k t ↔ (raw : Int) + lb > maxS128 ∧ k = .valueOverflow ∧ t = s := by
  unfold addLb
  split_ifs with h
  · simp [eq_comm, h]
  · simp; omega

theorem addLb_obeys (raw : Nat) (lb : Int) (s : State) : (addLb raw lb s).Obeys (DecPass s) (Moved s) := by
  unfold addLb
  split_ifs <;> exact Moved.refl s

/-! ### Encode side -/

/-- A pass whose writes append, meet no octet without a value, and stay in the buffer. -/
structure EncPass (s : State) : Prop where
  atEnd : s.bitLength = s.bitPosition
  lenLeCap : s.bitLength ≤ capBits s
  wf : Memory.wf s.buffer
  inCap : ∀ k, s.capBytes ≤ k → octetAt s.buffer k = none
  hold : ∀ k, k < octets s.bitLength → (octetAt s.buffer k).isSome = true
  tailZero : ∀ i, s.bitLength ≤ i → i < alignUp s.bitLength → bitAt s.buffer i = some false

/-- `t` is `s` with bits appended, or `s` itself. -/
structure Extended (s t : State) : Prop where
  only : t = s ∨ t = appended t.buffer t.bitPosition s
  forward : s.bitPosition ≤ t.bitPosition
  encPass : EncPass s → EncPass t
  keepsBits : EncPass s → ∀ i, i < s.bitLength → bitAt t.buffer i = bitAt s.buffer i
  keepsOctets : EncPass s → ∀ k, k < s.bitPosition / 8 ∨ octets t.bitPosition ≤ k →
    k < octets s.bitPosition ∨ octets t.bitPosition ≤ k → octetAt t.buffer k = octetAt s.buffer k

theorem Extended.refl (s : State) : Extended s s :=
  ⟨.inl rfl, le_rfl, id, fun _ _ _ => rfl, fun _ _ _ _ => rfl⟩

theorem Extended.trans {s t u : State} (h : Extended s t) (h' : Extended t u) : Extended s u := by
  refine ⟨?_, h.forward.trans h'.forward, fun hs => h'.encPass (h.encPass hs), fun hs i hi => ?_,
    fun hs k hk hk' => ?_⟩
  · rcases h'.only with e | e
    · exact e ▸ h.only
    · rcases h.only with e' | e'
      · exact .inr (e' ▸ e)
      · refine .inr ?_
        rw [e, e']
        rfl
  · have hl : s.bitLength ≤ t.bitLength := by
      rw [hs.atEnd, (h.encPass hs).atEnd]; exact h.forward
    rw [h'.keepsBits (h.encPass hs) i (by omega), h.keepsBits hs i hi]
  · have h1 := h.forward
    have h2 := h'.forward
    rw [h'.keepsOctets (h.encPass hs) k (by unfold octets at *; omega) (by unfold octets at *; omega),
      h.keepsOctets hs k (by unfold octets at *; omega) (by unfold octets at *; omega)]

theorem Extended.obeys {α : Type} {s t : State} {r : Res α} (h : Extended s t)
    (hr : r.Obeys (EncPass t) (Extended t)) : r.Obeys (EncPass s) (Extended s) := by
  cases r with
  | done a u => exact h.trans hr
  | raised k u => exact h.trans hr
  | stuck e => exact fun hs => hr (h.encPass hs)

/-- `appendBits` never raises. -/
theorem appendBits_ne_raised {n v : Nat} {s t : State} {k : Status} : appendBits n v s ≠ .raised k t := by
  unfold appendBits
  cases wrBits s.buffer s.bitLength s.bitPosition n v <;> simp

theorem appendBits_eq_done {n v : Nat} {s t : State} {u : Unit} :
    appendBits n v s = .done u t ↔
      ∃ m, wrBits s.buffer s.bitLength s.bitPosition n v = some m ∧ t = appended m (s.bitPosition + n) s := by
  unfold appendBits
  cases wrBits s.buffer s.bitLength s.bitPosition n v <;> simp [eq_comm]

/-- In a sound encode pass an append always writes. -/
theorem appendBits_isDone {n v : Nat} {s : State} (hs : EncPass s) :
    ∃ m, wrBits s.buffer s.bitLength s.bitPosition n v = some m ∧
      appendBits n v s = .done () (appended m (s.bitPosition + n) s) := by
  have : (wrBits s.buffer s.bitLength s.bitPosition n v).isSome = true :=
    wrBits_isSome v fun k _ h => hs.hold k h
  obtain ⟨m, hm⟩ := Option.isSome_iff_exists.1 this
  exact ⟨m, hm, appendBits_eq_done.2 ⟨m, hm, rfl⟩⟩

theorem appendBits_extended {n v : Nat} {s : State} {m : Memory}
    (hm : wrBits s.buffer s.bitLength s.bitPosition n v = some m)
    (hcap : EncPass s → s.bitPosition + n ≤ capBits s) : Extended s (appended m (s.bitPosition + n) s) := by
  obtain ⟨hin, hkeep, hzero, hoct, hsome, hnew, habove, hwf⟩ := wrBits_spec hm
  refine ⟨.inr rfl, by simp, fun hs => ?_, fun hs i hi => ?_, fun hs k hk hk' => ?_⟩
  · have hc := hcap hs
    have he := hs.atEnd
    refine ⟨rfl, hc, hwf hs.wf, fun k hk => ?_, fun k hk => ?_, fun i hi1 hi2 => ?_⟩
    · have : octets (s.bitPosition + n) ≤ k := by
        have : s.bitPosition + n ≤ 8 * s.capBytes := hc
        have : s.capBytes ≤ k := hk
        unfold octets; omega
      simpa [habove k this] using hs.inCap k hk
    · by_cases hlt : k < octets s.bitLength
      · exact hsome k (hs.hold k hlt)
      · have hn : 0 < n := by
          rcases Nat.eq_zero_or_pos n with rfl | h
          · simp [← he] at hk; omega
          · exact h
        exact hnew hn k (by omega) hk
    · simp only [appended_bitLength, appended_buffer] at hi1 hi2 ⊢
      by_cases hn : n = 0
      · subst hn
        obtain rfl : s.buffer = m := by simpa using hm
        exact hs.tailZero i (by omega) (by simpa [he] using hi2)
      · by_cases hlt : i / 8 < octets s.bitLength
        · rw [hkeep i (.inr hi1) (.inl hlt)]
          exact hs.tailZero i (by omega) (by unfold alignUp; omega)
        · exact hzero (by omega) i (.inr hi1) (by omega) (by unfold alignUp at hi2; omega)
  · have he := hs.atEnd
    exact hkeep i (.inl (by omega)) (.inl (by unfold octets; omega))
  · have he := hs.atEnd
    simp only [appended_bitPosition] at hk hk'
    exact hoct k hk (by rwa [he])

theorem appendBits_obeys {n v : Nat} {s : State} (hcap : EncPass s → s.bitPosition + n ≤ capBits s) :
    (appendBits n v s).Obeys (EncPass s) (Extended s) := by
  cases hm : wrBits s.buffer s.bitLength s.bitPosition n v with
  | some m => rw [appendBits_eq_done (u := ()) |>.2 ⟨m, hm, rfl⟩]; exact appendBits_extended hm hcap
  | none =>
    have : appendBits n v s = .stuck .unwrittenOctet := by unfold appendBits; rw [hm]
    rw [this]
    intro hs
    obtain ⟨m, h, -⟩ := appendBits_isDone (n := n) (v := v) hs
    rw [hm] at h
    simp at h

theorem writeBit_obeys (b : Bool) (s : State) : (writeBit b s).Obeys (EncPass s) (Extended s) := by
  unfold writeBit
  split_ifs with h
  · exact Extended.refl s
  · exact appendBits_obeys fun _ => by omega

theorem writeBits_obeys (n v : Nat) (s : State) : (writeBits n v s).Obeys (EncPass s) (Extended s) := by
  unfold writeBits
  split_ifs with h1 h2 h3
  · exact Extended.refl s
  · exact Extended.refl s
  · exact Extended.refl s
  · exact appendBits_obeys fun _ => by omega

theorem writeAlign_obeys (s : State) : (writeAlign s).Obeys (EncPass s) (Extended s) := by
  refine appendBits_obeys fun hs => ?_
  have := hs.lenLeCap
  have := hs.atEnd
  unfold capBits at *
  omega

/-- When `WriteBit` is done (40_bit_cursor.md R73). -/
theorem writeBit_eq_done {b : Bool} {s t : State} {u : Unit} :
    writeBit b s = .done u t ↔
      s.bitPosition + 1 ≤ capBits s ∧
        ∃ m, wrBits s.buffer s.bitLength s.bitPosition 1 b.toNat = some m ∧
          t = appended m (s.bitPosition + 1) s := by
  unfold writeBit
  split_ifs with h
  · simp; omega
  · rw [appendBits_eq_done]; simp; omega

theorem writeBit_eq_raised {b : Bool} {s t : State} {k : Status} :
    writeBit b s = .raised k t ↔ s.bitPosition + 1 > capBits s ∧ k = .outOfBits ∧ t = s := by
  unfold writeBit
  split_ifs with h
  · simp [eq_comm, h]
  · exact iff_of_false appendBits_ne_raised (by omega)

/-- When `WriteBits` is done (40_bit_cursor.md R74). -/
theorem writeBits_eq_done {n v : Nat} {s t : State} {u : Unit} :
    writeBits n v s = .done u t ↔
      n ≤ 128 ∧ v < 2 ^ n ∧ s.bitPosition + n ≤ capBits s ∧
        ∃ m, wrBits s.buffer s.bitLength s.bitPosition n v = some m ∧ t = appended m (s.bitPosition + n) s := by
  unfold writeBits maxN
  split_ifs with h1 h2 h3
  · simp; omega
  · simp; omega
  · simp; omega
  · rw [appendBits_eq_done]
    exact ⟨fun h => ⟨by omega, by omega, by omega, h⟩, fun h => h.2.2.2⟩

/-- When `WriteBits` raises, and which of its three errors (40_bit_cursor.md R74, 60_exceptions.md R152). -/
theorem writeBits_eq_raised {n v : Nat} {s t : State} {k : Status} :
    writeBits n v s = .raised k t ↔
      t = s ∧ (n > 128 ∧ k = .widthTooLarge ∨ n ≤ 128 ∧ v ≥ 2 ^ n ∧ k = .valueOutOfRange ∨
        n ≤ 128 ∧ v < 2 ^ n ∧ s.bitPosition + n > capBits s ∧ k = .outOfBits) := by
  unfold writeBits maxN
  split_ifs with h1 h2 h3
  · have g : ¬n ≤ 128 := by omega
    simp [h1, g, eq_comm, and_comm]
  · have g : n ≤ 128 := by omega
    have g' : ¬v < 2 ^ n := by omega
    simp [h1, h2, g, g', eq_comm, and_comm]
  · have g : n ≤ 128 := by omega
    have g' : v < 2 ^ n := by omega
    simp [h1, h2, h3, g, g', eq_comm, and_comm]
  · exact iff_of_false appendBits_ne_raised (by omega)

/-- When `WriteAlign` is done: the cursor is at the next multiple of 8 (40_bit_cursor.md R75). -/
theorem writeAlign_eq_done {s t : State} {u : Unit} :
    writeAlign s = .done u t ↔
      ∃ m, wrBits s.buffer s.bitLength s.bitPosition ((8 - s.bitPosition % 8) % 8) 0 = some m ∧
        t = appended m (alignUp s.bitPosition) s := by
  unfold writeAlign
  rw [appendBits_eq_done, alignUp_eq_add]

theorem writeAlign_ne_raised {s t : State} {k : Status} : writeAlign s ≠ .raised k t := appendBits_ne_raised

/-! ### The slice channel -/

/-- The octets an `INIT_DEC` has after taking what it can from `din` (43_construction.md R133). -/
theorem receiveSlice_short {n : Nat} {taken : List Octet} {s : State}
    (h : (taken ++ s.din.take (n - taken.length)).length < n) :
    receiveSlice n taken s =
      { s with
        din := s.din.drop (n - taken.length)
        transfer := some ⟨n, taken ++ s.din.take (n - taken.length)⟩ } := if_pos h

/-- The whole slice has come: the pass starts and the response is `OK` (43_construction.md R130). -/
theorem receiveSlice_whole {n : Nat} {taken : List Octet} {s : State}
    (h : ¬(taken ++ s.din.take (n - taken.length)).length < n) :
    receiveSlice n taken s =
      endOk none
        { s with
          din := s.din.drop (n - taken.length)
          transfer := none
          buffer := loadSlice s.buffer 0 (taken ++ s.din.take (n - taken.length))
          bitLength := 8 * n
          bitPosition := 0
          mode := .dec } := if_neg h

end Sys2Proof.Machine
end

