-- ==== Sys2Proof/Laws/Operands.lean ====
section
/-! SUPPORT. The arithmetic of the operands: bit lengths, octet counts, ranges, readings of patterns
(00_scope.md R6; 41_whole_number.md R90 to R94, R103). -/

namespace Sys2Proof.Machine

open Sys2Proof

/-! ### Bit lengths -/

/-- `bitlen(x)` is the least `k` with `x < 2^k` (00_scope.md R6). -/
theorem bitlen_le_iff (x k : Nat) : bitlen x ≤ k ↔ x < 2 ^ k := by
  unfold bitlen
  split_ifs with h
  · subst h; simp
  · rw [← Nat.log2_lt h]; omega

theorem lt_pow_bitlen (x : Nat) : x < 2 ^ bitlen x := (bitlen_le_iff x _).1 le_rfl

theorem bitlen_mono {x y : Nat} (h : x ≤ y) : bitlen x ≤ bitlen y :=
  (bitlen_le_iff _ _).2 (lt_of_le_of_lt h (lt_pow_bitlen y))

theorem lt_bitlen_iff (x k : Nat) : k < bitlen x ↔ 2 ^ k ≤ x := by
  have := bitlen_le_iff x k
  omega

theorem octets_mono {x y : Nat} (h : x ≤ y) : octets x ≤ octets y := by unfold octets; omega

theorem le_octets (x : Nat) : x ≤ 8 * octets x := by unfold octets; omega

theorem octets_le_iff (x k : Nat) : octets x ≤ k ↔ x ≤ 8 * k := by unfold octets; omega

/-- A value fits the octets that its bit length takes. -/
theorem lt_pow_octets {v o : Nat} (h : octets (bitlen v) ≤ o) : v < 2 ^ (8 * o) := by
  rw [← bitlen_le_iff]; rw [octets_le_iff] at h; exact h

theorem lt_pow_longBandOctets (v : Nat) : v < 2 ^ (8 * longBandOctets v) := lt_pow_octets (le_max_right _ _)

theorem lt_pow_minOctets (v : Nat) : v < 2 ^ (8 * minOctets v) := lt_pow_octets (le_max_right _ _)

theorem octets_bitlen_le {v : Nat} (h : v < 2 ^ 128) : octets (bitlen v) ≤ 16 := by
  rw [octets_le_iff]; exact (bitlen_le_iff v 128).2 h

theorem two_le_longBandOctets (v : Nat) : 2 ≤ longBandOctets v := le_max_left _ _

theorem one_le_minOctets (v : Nat) : 1 ≤ minOctets v := le_max_left _ _

theorem minOctets_le {v : Nat} (h : v < 2 ^ 128) : minOctets v ≤ 16 := max_le (by norm_num) (octets_bitlen_le h)

theorem longBandOctets_le {v : Nat} (h : v < 2 ^ 128) : longBandOctets v ≤ 16 :=
  max_le (by norm_num) (octets_bitlen_le h)

/-! ### Ranges and bands -/

/-- A value below the range fits the width the table gives (41_whole_number.md R92, R93). -/
theorem lt_pow_bitsNeeded {r v : Nat} (hr : r < 256) (hv : v < r) : v < 2 ^ bitsNeededForRange r := by
  unfold bitsNeededForRange
  split_ifs <;> norm_num <;> omega

theorem bitsNeeded_le (r : Nat) : bitsNeededForRange r ≤ 8 := by
  unfold bitsNeededForRange
  split_ifs <;> norm_num

/-- `o <= bn`: the value field of band 4 is never longer than `bytes_needed` (41_whole_number.md R98). -/
theorem longBandOctets_le_bytesNeeded {r v : Nat} (hr : 65536 ≤ r) (hv : v < r) :
    longBandOctets v ≤ bytesNeeded r := by
  refine max_le ?_ (octets_mono (bitlen_mono hv.le))
  have : 16 < bitlen r := (lt_bitlen_iff r 16).2 hr
  unfold bytesNeeded octets
  omega

theorem bytesNeeded_le {r : Nat} (hr : r < 2 ^ 127) : bytesNeeded r ≤ 16 := by
  have := (bitlen_le_iff r 127).2 hr
  unfold bytesNeeded octets
  omega

theorem range_one (n : Nat) : range 1 n = n := by unfold range; omega

theorem toNat_lt_of_rangeOK {r : Int} (h : RangeOK r) : r.toNat < 2 ^ 127 := by
  have := h.2
  unfold maxS128 at this
  norm_num
  omega

/-- The offset of a value inside its bounds is below the range (41_whole_number.md R98). -/
theorem offset_lt_range {value lb ub : Int} (h1 : lb ≤ value) (h2 : value ≤ ub) :
    (value - lb).toNat < (range lb ub).toNat := by unfold range; omega

/-! ### Readings of a pattern -/

/-- The signed reading of a pattern lies in the signed range (00_scope.md R6). -/
theorem s128_fits (p : Pattern) : FitsS128 (s128 p) := by
  have h1 := BitVec.le_toInt p
  have h2 := BitVec.toInt_lt (x := p)
  norm_num at h1 h2
  unfold s128
  exact ⟨by omega, by omega⟩

/-- The unsigned reading of a pattern is below `2^128` (00_scope.md R6). -/
theorem u128_fits (p : Pattern) : FitsU128 (u128 p) := p.isLt

/-- A signed number in range is read back from its pattern. -/
theorem s128_pat {x : Int} (h : FitsS128 x) : s128 (pat x) = x := by
  unfold s128 pat
  rw [BitVec.toInt_ofInt, Int.bmod_def]
  obtain ⟨h1, h2⟩ := h
  norm_num
  omega

/-- An unsigned number below `2^128` is read back from its pattern. -/
theorem u128_pat {x : Nat} (h : FitsU128 x) : u128 (pat x) = x := by
  unfold u128 pat
  have : x < 340282366920938463463374607431768211456 := by simpa [FitsU128] using h
  rw [BitVec.toNat_ofInt]
  norm_num
  omega

end Sys2Proof.Machine
end

