-- ==== Sys2Proof/Laws/Codec.lean ====
section
/-! SUPPORT. For each body that commands share: a decode body only moves the cursor forward and meets no octet
without a value in a sound decode pass; an encode body only appends and keeps a sound encode pass sound
(20_memory.md R38, 10_state.md R15, 60_exceptions.md R150). -/

namespace Sys2Proof.Machine

open Sys2Proof

/-! ### Decode side -/

theorem readBits_align_obeys (n : Nat) (s : State) : (readBits n (align s)).Obeys (DecPass s) (Moved s) :=
  (moved_align s).obeys (readBits_obeys _ _)

theorem readShortBand_obeys (r : Nat) (s : State) : (readShortBand r s).Obeys (DecPass s) (Moved s) := by
  unfold readShortBand
  split_ifs
  · exact readBits_obeys _ _
  · exact readBits_align_obeys _ _
  · exact readBits_align_obeys _ _

theorem decCwnShort_obeys (lb ub : Int) (s : State) : (decCwnShort lb ub s).Obeys (DecPass s) (Moved s) := by
  unfold decCwnShort
  split
  · exact Moved.refl s
  · exact obeys_bind (readShortBand_obeys _ _) fun raw t ht => ht.obeys (addLb_obeys _ _ _)

theorem decClen_obeys (lb ub : Int) (s : State) : (decClen lb ub s).Obeys (DecPass s) (Moved s) := by
  unfold decClen
  split_ifs
  · exact Moved.refl s
  · exact decCwnShort_obeys _ _ _

theorem readLongBand_obeys (r : Nat) (s : State) : (readLongBand r s).Obeys (DecPass s) (Moved s) :=
  obeys_bind (decClen_obeys _ _ _) fun _ _ ht => ht.obeys (readBits_align_obeys _ _)

theorem decCwn_obeys (lb ub : Int) (s : State) : (decCwn lb ub s).Obeys (DecPass s) (Moved s) := by
  unfold decCwn
  split
  · exact Moved.refl s
  · split
    · exact obeys_bind (readShortBand_obeys _ _) fun raw t ht => ht.obeys (addLb_obeys _ _ _)
    · exact obeys_bind (readLongBand_obeys _ _) fun raw t ht => ht.obeys (addLb_obeys _ _ _)

theorem decUlen_obeys (s : State) : (decUlen s).Obeys (DecPass s) (Moved s) := by
  refine obeys_bind ((moved_align s).obeys (readBit_obeys _)) fun b1 t ht => ?_
  split_ifs
  · exact ht.obeys (readBits_obeys _ _)
  · refine obeys_bind (ht.obeys (readBit_obeys _)) fun b2 u hu => ?_
    split_ifs
    · exact hu.obeys (readBits_obeys _ _)
    · refine obeys_bind (hu.obeys (readBits_obeys _ _)) fun m w hw => ?_
      split_ifs
      · exact hw
      · exact hw

theorem decNslen_obeys (s : State) : (decNslen s).Obeys (DecPass s) (Moved s) := by
  refine obeys_bind (readBit_obeys s) fun b t ht => ?_
  split_ifs
  · exact obeys_bind (ht.obeys (readBits_obeys _ _)) fun v u hu => hu
  · exact ht.obeys (decUlen_obeys _)

theorem readCountedOctets_obeys (s : State) : (readCountedOctets s).Obeys (DecPass s) (Moved s) :=
  obeys_bind (decUlen_obeys s) fun _ _ ht => ht.obeys (readBits_obeys _ _)

theorem decScwn_obeys (lb : Int) (s : State) : (decScwn lb s).Obeys (DecPass s) (Moved s) :=
  obeys_bind (readCountedOctets_obeys s) fun _ _ ht => ht.obeys (addLb_obeys _ _ _)

/-- `ADVANCE` never moves the cursor back, under either policy, when the cursor is not past the length
(40_bit_cursor.md R81). -/
theorem advanceBody_obeys (count : Nat) (f : Bool) {s : State} (h : s.bitPosition ≤ s.bitLength) :
    (advanceBody count f s).Obeys (DecPass s) (Moved s) := by
  unfold advanceBody
  split
  · exact skip_obeys _ _
  · split
    · exact Moved.refl s
    · exact moved_setPos h fun _ _ => le_rfl

theorem yieldNat_obeys {G : Prop} {P : State → Prop} {r : Res Nat} (h : r.Obeys G P) : r.yieldNat.Obeys G P :=
  obeys_bind h fun _ _ ht => ht

theorem yieldInt_obeys {G : Prop} {P : State → Prop} {r : Res Int} (h : r.Obeys G P) : r.yieldInt.Obeys G P :=
  obeys_bind h fun _ _ ht => ht

theorem yieldNone_obeys {G : Prop} {P : State → Prop} {r : Res Unit} (h : r.Obeys G P) : r.yieldNone.Obeys G P :=
  obeys_bind h fun _ _ ht => ht

/-! ### Encode side -/

theorem writeShortBand_obeys (r v : Nat) (s : State) : (writeShortBand r v s).Obeys (EncPass s) (Extended s) := by
  unfold writeShortBand
  split_ifs
  · exact writeBits_obeys _ _ _
  · exact obeys_bind (writeAlign_obeys s) fun _ _ ht => ht.obeys (writeBits_obeys _ _ _)
  · exact obeys_bind (writeAlign_obeys s) fun _ _ ht => ht.obeys (writeBits_obeys _ _ _)

theorem encCwnShort_obeys (value lb ub : Int) (s : State) :
    (encCwnShort value lb ub s).Obeys (EncPass s) (Extended s) := by
  unfold encCwnShort
  split
  · exact Extended.refl s
  · split
    · exact Extended.refl s
    · exact writeShortBand_obeys _ _ _

theorem encClen_obeys (value lb ub : Int) (s : State) : (encClen value lb ub s).Obeys (EncPass s) (Extended s) := by
  unfold encClen
  split_ifs
  · exact Extended.refl s
  · exact encCwnShort_obeys _ _ _ _

theorem writeLongBand_obeys (r v : Nat) (s : State) : (writeLongBand r v s).Obeys (EncPass s) (Extended s) :=
  obeys_bind (encClen_obeys _ _ _ s) fun _ _ ht =>
    obeys_bind (ht.obeys (writeAlign_obeys _)) fun _ _ hu => hu.obeys (writeBits_obeys _ _ _)

theorem encCwn_obeys (value lb ub : Int) (s : State) : (encCwn value lb ub s).Obeys (EncPass s) (Extended s) := by
  unfold encCwn
  split
  · exact Extended.refl s
  · split
    · exact Extended.refl s
    · split
      · exact writeShortBand_obeys _ _ _
      · exact writeLongBand_obeys _ _ _

theorem encUlen_obeys (l : Nat) (s : State) : (encUlen l s).Obeys (EncPass s) (Extended s) := by
  unfold encUlen
  split
  · exact Extended.refl s
  · refine obeys_bind (writeAlign_obeys s) fun _ t ht => ?_
    split_ifs
    · exact obeys_bind (ht.obeys (writeBit_obeys _ _)) fun _ _ hu => hu.obeys (writeBits_obeys _ _ _)
    · exact obeys_bind (ht.obeys (writeBit_obeys _ _)) fun _ _ hu =>
        obeys_bind (hu.obeys (writeBit_obeys _ _)) fun _ _ hw => hw.obeys (writeBits_obeys _ _ _)
    · exact obeys_bind (ht.obeys (writeBit_obeys _ _)) fun _ _ hu =>
        obeys_bind (hu.obeys (writeBit_obeys _ _)) fun _ _ hw => hw.obeys (writeBits_obeys _ _ _)

theorem encNslen_obeys (value : Nat) (s : State) : (encNslen value s).Obeys (EncPass s) (Extended s) := by
  unfold encNslen
  split_ifs
  · exact Extended.refl s
  · exact Extended.refl s
  · exact obeys_bind (writeBit_obeys _ _) fun _ _ ht => ht.obeys (writeBits_obeys _ _ _)
  · exact obeys_bind (writeBit_obeys _ _) fun _ _ ht => ht.obeys (encUlen_obeys _ _)

theorem writeCountedOctets_obeys (v : Nat) (s : State) :
    (writeCountedOctets v s).Obeys (EncPass s) (Extended s) :=
  obeys_bind (encUlen_obeys _ s) fun _ _ ht => ht.obeys (writeBits_obeys _ _ _)

theorem encScwn_obeys (value lb : Int) (s : State) : (encScwn value lb s).Obeys (EncPass s) (Extended s) := by
  unfold encScwn
  split_ifs
  · exact Extended.refl s
  · exact writeCountedOctets_obeys _ _

/-! ### The invariant and the two kinds of pass -/

theorem Inv.decPass {s : State} (h : Inv s) (hm : s.mode = .dec) : DecPass s :=
  ⟨h.posLeLen, h.decOctets hm, h.octetsHold⟩

theorem Inv.encPass {s : State} (h : Inv s) (hm : s.mode = .enc) : EncPass s :=
  ⟨h.encAtEnd hm, h.lenLeCap, h.bufferWf, h.bufferInCap, h.octetsHold, h.encTailZero hm⟩

end Sys2Proof.Machine
end

