-- ==== Sys2Proof/Laws/Exec.lean ====
section
/-! SUPPORT. The shape of `exec`: a decode command and an encode command are each the prelude's mode test around a body,
and everything such a body can do to the state is said once (40_bit_cursor.md R77, 20_memory.md R38, 10_state.md
R15). -/

namespace Sys2Proof.Machine

open Sys2Proof

theorem Res.Obeys.mono {α : Type} {G G' : Prop} {P P' : State → Prop} {r : Res α} (h : r.Obeys G P)
    (hG : G' → G) (hP : ∀ t, P t → P' t) : r.Obeys G' P' := by
  cases r with
  | done a t => exact hP t h
  | raised k t => exact hP t h
  | stuck e => exact fun g => h (hG g)

/-- `ADVANCE` changes nothing but the cursor, in every state. -/
theorem advanceBody_onlyPos (count : Nat) (f : Bool) (s : State) :
    (advanceBody count f s).Obeys False fun t => t = setPos t.bitPosition s := by
  unfold advanceBody skip
  split
  · split <;> rfl
  · split <;> rfl

/-- Every instruction needs mode `DEC`, or needs mode `ENC`, or is a construction (30_encoding.md R54). -/
theorem instr_kinds (i : Instr) :
    modeNeeded i = some .dec ∨ modeNeeded i = some .enc ∨ i = .initEnc ∨ ∃ n, i = .initDec n := by
  cases i <;> simp [modeNeeded]

/-- A decode command is the mode test around a body that only moves the cursor, forward where the cursor is not past the
length. -/
theorem exec_dec {i : Instr} (h : modeNeeded i = some .dec) :
    ∃ body : State → Res (Option Pattern), (∀ s, exec i s = command .dec body s) ∧
      (∀ s, (body s).Obeys False fun t => t = setPos t.bitPosition s) ∧
      ∀ s, s.bitPosition ≤ s.bitLength → (body s).Obeys (DecPass s) (Moved s) := by
  have only : ∀ {s : State} {r : Res (Option Pattern)}, r.Obeys (DecPass s) (Moved s) →
      r.Obeys False fun t => t = setPos t.bitPosition s := fun h => h.mono False.elim fun _ h => h.onlyPos
  have both : ∀ {i : Instr} (body : State → Res (Option Pattern)), (∀ s, exec i s = command .dec body s) →
      (∀ s, (body s).Obeys (DecPass s) (Moved s)) →
      ∃ body : State → Res (Option Pattern), (∀ s, exec i s = command .dec body s) ∧
        (∀ s, (body s).Obeys False fun t => t = setPos t.bitPosition s) ∧
        ∀ s, s.bitPosition ≤ s.bitLength → (body s).Obeys (DecPass s) (Moved s) :=
    fun body hb hm => ⟨body, hb, fun s => only (hm s), fun s _ => hm s⟩
  cases i <;> simp [modeNeeded] at h
  case decBool => exact both _ (fun _ => rfl) fun s => yieldNat_obeys (obeys_bind (readBit_obeys s) fun _ _ h => h)
  case decBits => exact both _ (fun _ => rfl) fun s => yieldNat_obeys (readBits_obeys _ s)
  case decAlign => exact both _ (fun _ => rfl) moved_align
  case decNslen => exact both _ (fun _ => rfl) fun s => yieldNat_obeys (decNslen_obeys s)
  case decClen => exact both _ (fun _ => rfl) fun s => yieldInt_obeys (decClen_obeys _ _ s)
  case decUlen => exact both _ (fun _ => rfl) fun s => yieldNat_obeys (decUlen_obeys s)
  case decCwn => exact both _ (fun _ => rfl) fun s => yieldInt_obeys (decCwn_obeys _ _ s)
  case decScwn => exact both _ (fun _ => rfl) fun s => yieldInt_obeys (decScwn_obeys _ s)
  case decUwn => exact both _ (fun _ => rfl) fun s => yieldNat_obeys (readCountedOctets_obeys s)
  case advance count f =>
    exact ⟨_, fun _ => rfl, fun s => yieldNone_obeys (advanceBody_onlyPos count f s),
      fun s h => yieldNone_obeys (advanceBody_obeys count f h)⟩

/-- An encode command is the mode test around a body that only appends. -/
theorem exec_enc {i : Instr} (h : modeNeeded i = some .enc) :
    ∃ body : State → Res (Option Pattern), (∀ s, exec i s = command .enc body s) ∧
      ∀ s, (body s).Obeys (EncPass s) (Extended s) := by
  cases i <;> simp [modeNeeded] at h
  case encBool => exact ⟨_, fun _ => rfl, fun s => yieldNone_obeys (writeBit_obeys _ s)⟩
  case encBits => exact ⟨_, fun _ => rfl, fun s => yieldNone_obeys (writeBits_obeys _ _ s)⟩
  case encAlign => exact ⟨_, fun _ => rfl, fun s => yieldNone_obeys (writeAlign_obeys s)⟩
  case encNslen => exact ⟨_, fun _ => rfl, fun s => yieldNone_obeys (encNslen_obeys _ s)⟩
  case encClen => exact ⟨_, fun _ => rfl, fun s => yieldNone_obeys (encClen_obeys _ _ _ s)⟩
  case encUlen => exact ⟨_, fun _ => rfl, fun s => yieldNone_obeys (encUlen_obeys _ s)⟩
  case encCwn => exact ⟨_, fun _ => rfl, fun s => yieldNone_obeys (encCwn_obeys _ _ _ s)⟩
  case encScwn => exact ⟨_, fun _ => rfl, fun s => yieldNone_obeys (encScwn_obeys _ _ s)⟩
  case encUwn => exact ⟨_, fun _ => rfl, fun s => yieldNone_obeys (writeCountedOctets_obeys _ s)⟩

end Sys2Proof.Machine
end

