-- ==== Sys2Proof/Laws/PerInstr.lean ====
section
/-! SUPPORT. What holds of every instruction as syntax, one lemma per constructor: the header an instruction is encoded
with belongs to its own row of the opcode map (30_encoding.md R51, R54, R59). -/

namespace Sys2Proof.Laws.EncodingRow

open Sys2Proof

/-- The header of a well-formed instruction: bits 7:0 are its opcode, and bits 31:17 are 0. -/
def Statement (i : Instr) : Prop :=
  WellFormed i → (encode i).hdr.toNat % 2 ^ 8 = opcodeOf i ∧ (encode i).hdr.toNat / 2 ^ 17 = 0

/-- The bits of a header by its fields. -/
theorem header_toNat (opcode n : Nat) (f : Bool) (ho : opcode < 2 ^ 8) (hn : n < 2 ^ 8) :
    (header opcode n f).toNat % 2 ^ 8 = opcode ∧ (header opcode n f).toNat / 2 ^ 17 = 0 := by
  cases f <;> simp [header, BitVec.toNat_ofNat] <;> omega

theorem initDec (nbytes : Nat) : Statement (.initDec nbytes) :=
  fun _ => header_toNat _ 0 false (by decide) (by decide)

theorem initEnc : Statement .initEnc :=
  fun _ => header_toNat _ 0 false (by decide) (by decide)

theorem decBool : Statement .decBool :=
  fun _ => header_toNat _ 0 false (by decide) (by decide)

theorem decBits (n : Nat) : Statement (.decBits n) :=
  fun h => header_toNat _ n false (by decide) (of_decide_eq_true h)

theorem decAlign : Statement .decAlign :=
  fun _ => header_toNat _ 0 false (by decide) (by decide)

theorem decNslen : Statement .decNslen :=
  fun _ => header_toNat _ 0 false (by decide) (by decide)

theorem decClen (lb : Int) (ub : Int) : Statement (.decClen lb ub) :=
  fun _ => header_toNat _ 0 false (by decide) (by decide)

theorem decUlen : Statement .decUlen :=
  fun _ => header_toNat _ 0 false (by decide) (by decide)

theorem decCwn (lb : Int) (ub : Int) : Statement (.decCwn lb ub) :=
  fun _ => header_toNat _ 0 false (by decide) (by decide)

theorem decScwn (lb : Int) : Statement (.decScwn lb) :=
  fun _ => header_toNat _ 0 false (by decide) (by decide)

theorem decUwn : Statement .decUwn :=
  fun _ => header_toNat _ 0 false (by decide) (by decide)

theorem advance (count : Nat) (f : Bool) : Statement (.advance count f) :=
  fun _ => header_toNat _ 0 f (by decide) (by decide)

theorem encBool (f : Bool) : Statement (.encBool f) :=
  fun _ => header_toNat _ 0 f (by decide) (by decide)

theorem encBits (n : Nat) (value : Nat) : Statement (.encBits n value) :=
  fun h => header_toNat _ n false (by decide) (of_decide_eq_true h).1

theorem encAlign : Statement .encAlign :=
  fun _ => header_toNat _ 0 false (by decide) (by decide)

theorem encNslen (value : Nat) : Statement (.encNslen value) :=
  fun _ => header_toNat _ 0 false (by decide) (by decide)

theorem encClen (value : Int) (lb : Int) (ub : Int) : Statement (.encClen value lb ub) :=
  fun _ => header_toNat _ 0 false (by decide) (by decide)

theorem encUlen (value : Nat) : Statement (.encUlen value) :=
  fun _ => header_toNat _ 0 false (by decide) (by decide)

theorem encCwn (value : Int) (lb : Int) (ub : Int) : Statement (.encCwn value lb ub) :=
  fun _ => header_toNat _ 0 false (by decide) (by decide)

theorem encScwn (value : Int) (lb : Int) : Statement (.encScwn value lb) :=
  fun _ => header_toNat _ 0 false (by decide) (by decide)

theorem encUwn (value : Nat) : Statement (.encUwn value) :=
  fun _ => header_toNat _ 0 false (by decide) (by decide)

end Sys2Proof.Laws.EncodingRow
end

