-- ==== Sys2Proof/Laws/RoundTrip.lean ====
section
/-! SUPPORT. What an encode primitive wrote, the decode primitive of the same width reads back (20_memory.md R33,
40_bit_cursor.md R85): one lemma for each pair, from which a round trip of a whole body is put together. -/

namespace Sys2Proof.Machine

open Sys2Proof

/-- The buffer of `d` begins with every bit that `t` has written. -/
structure Covers (t d : State) : Prop where
  length : t.bitLength ≤ d.bitLength
  bits : ∀ i, i < t.bitLength → bitAt d.buffer i = bitAt t.buffer i

/-- A decode pass that holds what was written in the end holds what was written earlier. -/
theorem Covers.of_extended {s t d : State} (h : Covers t d) (hs : EncPass s) (he : Extended s t) : Covers s d := by
  have hl : s.bitLength ≤ t.bitLength := by
    rw [hs.atEnd, (he.encPass hs).atEnd]; exact he.forward
  exact ⟨hl.trans h.length, fun i hi => (h.bits i (by omega)).trans (he.keepsBits hs i hi)⟩

theorem Covers.setPos {t d : State} (h : Covers t d) (p : Nat) : Covers t (setPos p d) := ⟨h.length, h.bits⟩

theorem readBits_of_writeBits {n v : Nat} {s t d : State} {u : Unit} (h : writeBits n v s = .done u t)
    (hc : Covers t d) (hp : d.bitPosition = s.bitPosition) : readBits n d = .done v (setPos t.bitPosition d) := by
  obtain ⟨hn, hv, -, m, hm, rfl⟩ := writeBits_eq_done.1 h
  have hl := hc.length
  have hb : rdBits d.buffer d.bitPosition n = some v := by
    rw [← rdBits_of_wrBits hm hv, hp]
    exact rdBits_congr fun i _ hi => hc.bits i (by simpa using hi)
  simp only [appended_bitLength] at hl
  exact readBits_eq_done.2 ⟨hn, by omega, hb, by simp [hp]⟩

theorem readBit_of_writeBit {b : Bool} {s t d : State} {u : Unit} (h : writeBit b s = .done u t)
    (hc : Covers t d) (hp : d.bitPosition = s.bitPosition) : readBit d = .done b (setPos t.bitPosition d) := by
  obtain ⟨-, m, hm, rfl⟩ := writeBit_eq_done.1 h
  have hl := hc.length
  have hb := (wrBits_spec hm).1 0 (by omega)
  simp only [appended_bitLength] at hl
  refine readBit_eq_done.2 ⟨by omega, ?_, by simp [hp]⟩
  rw [hp, hc.bits _ (by simp)]
  cases b <;> simpa using hb

theorem align_of_writeAlign {s t d : State} {u : Unit} (h : writeAlign s = .done u t)
    (hp : d.bitPosition = s.bitPosition) : align d = setPos t.bitPosition d := by
  obtain ⟨m, -, rfl⟩ := writeAlign_eq_done.1 h
  simp [align, hp]

end Sys2Proof.Machine
end

