-- ==== Sys2Proof/Tests/Slice0.lean ====
section
/-! SUPPORT. My own tests, each on fixed values: the checks of WellFormed, one written-out command word for every
constructor, at most two small one-step tests for each command (the vectors of 95_test_vectors.md,
      named by their ids),
and for every statement with hypotheses a state and operands that meet them. -/

open Sys2Proof Sys2Proof.Machine

namespace Sys2Proof.Tests

/-! ### Helpers -/

/-- A decode pass over the given octets, cursor at `pos`, on a machine of `CAP_BYTES = 64`. -/
def decState (policy : SoftPolicy) (os : List Octet) (pos : Nat) : State :=
  { capBytes := 64, softPolicy := policy, buffer := loadSlice [] 0 os, bitPosition := pos, bitLength := 8 * os.length
    mode := .dec, response := none, transfer := none, din := [], hostQueue := [] }

/-- An encode pass that has written `pos` bits into the given octets, on a machine of `CAP_BYTES = cap`. -/
def encState (cap : Nat) (os : List Octet) (pos : Nat) : State :=
  { capBytes := cap, softPolicy := .hold, buffer := loadSlice [] 0 os, bitPosition := pos, bitLength := pos
    mode := .enc, response := none, transfer := none, din := [], hostQueue := [] }

/-- No pass, on a machine of `CAP_BYTES = 64`, with the given octets on `din`. -/
def noneState (din : List Octet) : State :=
  { capBytes := 64, softPolicy := .hold, buffer := [], bitPosition := 0, bitLength := 0
    mode := .none, response := none, transfer := none, din := din, hostQueue := [] }

/-- The step has a next state. -/
def isNext : Host.Outcome State Fault Refusal → Bool
  | .next _ => true
  | _ => false

/-- The next state, where there is one. -/
def after : Host.Outcome State Fault Refusal → State
  | .next t => t
  | _ => noneState []

theorem next_after {o : Host.Outcome State Fault Refusal} (h : isNext o = true) : o = .next (after o) := by
  cases o <;> first | rfl | cases h

/-- What a command shows: status, result, and the cursor after it. -/
def shows (o : Host.Outcome State Fault Refusal) : Option (Status × Option Pattern × Nat) :=
  match o with
  | .next t => t.response.map fun r => (r.status, r.result, t.bitPosition)
  | _ => none

/-- The octets in use after a command. -/
def holds (o : Host.Outcome State Fault Refusal) : Option (List Octet) :=
  match o with
  | .next t => octetsFrom t.buffer 0 (octets t.bitLength)
  | _ => none

/-- `Inv` of a concrete state, as a check that runs. -/
def invCheck (s : State) : Bool :=
  decide (1 ≤ s.capBytes ∧ s.bitPosition ≤ s.bitLength ∧ s.bitLength ≤ capBits s ∧ Memory.wf s.buffer) &&
  s.buffer.all (fun c => decide (c.1 < s.capBytes)) &&
  decide (∀ k, k < octets s.bitLength → (octetAt s.buffer k).isSome = true) &&
  decide (s.mode = .none → s.bitLength = 0) && decide (s.mode = .dec → s.bitLength % 8 = 0) &&
  decide (s.mode = .enc → s.bitLength = s.bitPosition) &&
  decide (s.mode = .enc → ∀ i, i < alignUp s.bitLength → s.bitLength ≤ i → bitAt s.buffer i = some false) &&
  (match s.transfer with
    | none => true
    | some t => decide (t.nbytes ≤ s.capBytes ∧ t.taken.length < t.nbytes ∧ s.response = none)) &&
  (match s.response with
    | none => true
    | some r => decide (r.status ≠ .ok → r.result = none))

theorem octetAt_none_beyond {m : Memory} {n : Nat} (h : m.all (fun c => decide (c.1 < n)) = true) (k : Nat)
    (hk : n ≤ k) : octetAt m k = none := by
  induction m with
  | nil => rfl
  | cons c m ih =>
    simp only [List.all_cons, Bool.and_eq_true, decide_eq_true_eq] at h
    have : c.1 ≠ k := by omega
    simp [octetAt, this, ih h.2]

theorem inv_of_check {s : State} (h : invCheck s = true) : Inv s := by
  simp only [invCheck, Bool.and_eq_true] at h
  obtain ⟨⟨⟨⟨⟨⟨⟨⟨h1, h2⟩, h3⟩, h4⟩, h5⟩, h6⟩, h7⟩, h8⟩, h9⟩ := h
  have h1 := of_decide_eq_true h1
  refine ⟨h1.1, h1.2.1, h1.2.2.1, h1.2.2.2, octetAt_none_beyond h2, of_decide_eq_true h3, of_decide_eq_true h4,
    of_decide_eq_true h5, of_decide_eq_true h6, fun hm i hl hu => of_decide_eq_true h7 hm i hu hl, ?_, ?_⟩
  · intro t ht
    rw [ht] at h8
    exact of_decide_eq_true h8
  · intro r hr
    rw [hr] at h9
    exact of_decide_eq_true h9


/-! ### WellFormed refuses an operand no field can carry, in each check -/

theorem test_illFormed_initDec :
    Instr.wellFormed (.initDec 340282366920938463463374607431768211456) = false :=
  by decide
theorem test_illFormed_decBits : Instr.wellFormed (.decBits 256) = false := by decide
theorem test_illFormed_decClen_lb :
    Instr.wellFormed (.decClen (-170141183460469231731687303715884105728 - 1) 0) = false :=
  by decide
theorem test_illFormed_decClen_ub :
    Instr.wellFormed (.decClen 0 170141183460469231731687303715884105728) = false :=
  by decide
theorem test_illFormed_decCwn_lb :
    Instr.wellFormed (.decCwn 170141183460469231731687303715884105728 0) = false :=
  by decide
theorem test_illFormed_decCwn_ub :
    Instr.wellFormed (.decCwn 0 (-170141183460469231731687303715884105728 - 1)) = false :=
  by decide
theorem test_illFormed_decScwn :
    Instr.wellFormed (.decScwn 170141183460469231731687303715884105728) = false :=
  by decide
theorem test_illFormed_advance :
    Instr.wellFormed (.advance 340282366920938463463374607431768211456 true) = false :=
  by decide
theorem test_illFormed_encBits_n : Instr.wellFormed (.encBits 256 0) = false := by decide
theorem test_illFormed_encBits_value :
    Instr.wellFormed (.encBits 8 340282366920938463463374607431768211456) = false :=
  by decide
theorem test_illFormed_encNslen :
    Instr.wellFormed (.encNslen 340282366920938463463374607431768211456) = false :=
  by decide
theorem test_illFormed_encClen_value :
    Instr.wellFormed (.encClen 170141183460469231731687303715884105728 0 1) = false :=
  by decide
theorem test_illFormed_encClen_lb :
    Instr.wellFormed (.encClen 0 (-170141183460469231731687303715884105728 - 1) 1) = false :=
  by decide
theorem test_illFormed_encClen_ub :
    Instr.wellFormed (.encClen 0 0 170141183460469231731687303715884105728) = false :=
  by decide
theorem test_illFormed_encUlen :
    Instr.wellFormed (.encUlen 340282366920938463463374607431768211456) = false :=
  by decide
theorem test_illFormed_encCwn_value :
    Instr.wellFormed (.encCwn (-170141183460469231731687303715884105728 - 1) 0 1) = false :=
  by decide
theorem test_illFormed_encCwn_lb :
    Instr.wellFormed (.encCwn 0 170141183460469231731687303715884105728 1) = false :=
  by decide
theorem test_illFormed_encCwn_ub :
    Instr.wellFormed (.encCwn 0 0 170141183460469231731687303715884105728) = false :=
  by decide
theorem test_illFormed_encScwn_value :
    Instr.wellFormed (.encScwn 170141183460469231731687303715884105728 0) = false :=
  by decide
theorem test_illFormed_encScwn_lb :
    Instr.wellFormed (.encScwn 0 170141183460469231731687303715884105728) = false :=
  by decide
theorem test_illFormed_encUwn :
    Instr.wellFormed (.encUwn 340282366920938463463374607431768211456) = false :=
  by decide
theorem test_wellFormed_bounds :
    Instr.wellFormed (.encCwn (-170141183460469231731687303715884105728) 170141183460469231731687303715884105727 0) = true ∧
    Instr.wellFormed (.encBits 255 (340282366920938463463374607431768211456 - 1)) = true :=
  by decide

/-! ### Written-out command words, one for every constructor (95_test_vectors.md sections 5 and 7) -/

/-- P2 step 1. -/
theorem test_decode_initDec : decode ⟨0x00000001, 0x14, 0, 0⟩ = .ok (.initDec 20) := rfl
/-- C16. -/
theorem test_decode_initEnc : decode ⟨0x00000002, 0, 0, 0⟩ = .ok .initEnc := rfl
/-- C9. -/
theorem test_decode_decBool : decode ⟨0x00015510, 0xFFFFFFFFFFFFFFFFFFFFFFFFFFFFFFFF, 0, 0⟩ = .ok .decBool := rfl
/-- bits 15:8 are `00001000`, opcode `0x11`. -/
theorem test_decode_decBits : decode ⟨0x00000811, 0, 0, 0⟩ = .ok (.decBits 8) := rfl
/-- R54. -/
theorem test_decode_decAlign : decode ⟨0x00000012, 0, 0, 0⟩ = .ok .decAlign := rfl
/-- P2 step 4. -/
theorem test_decode_decNslen : decode ⟨0x00000013, 0, 0, 0⟩ = .ok .decNslen := rfl
/-- P2 step 6. -/
theorem test_decode_decClen : decode ⟨0x00000014, 0x1, 0x4, 0⟩ = .ok (.decClen 1 4) := rfl
/-- R54. -/
theorem test_decode_decUlen : decode ⟨0x00000015, 0, 0, 0⟩ = .ok .decUlen := rfl
/-- R53: `A` is two's complement. -/
theorem test_decode_decCwn :
    decode ⟨0x00000016, 0xFFFFFFFFFFFFFFFFFFFFFFFFFFFFFFFB, 0x2, 0⟩ = .ok (.decCwn (-5) 2) :=
  rfl
/-- P2 step 8. -/
theorem test_decode_decScwn : decode ⟨0x00000017, 0xA, 0, 0⟩ = .ok (.decScwn 10) := rfl
/-- R54. -/
theorem test_decode_decUwn : decode ⟨0x00000018, 0, 0, 0⟩ = .ok .decUwn := rfl
/-- bit 16 is `f`. -/
theorem test_decode_advance : decode ⟨0x00010019, 0xC, 0, 0⟩ = .ok (.advance 12 true) := rfl
/-- P1 step 2. -/
theorem test_decode_encBool : decode ⟨0x00010020, 0, 0, 0⟩ = .ok (.encBool true) := rfl
/-- P1 step 11. -/
theorem test_decode_encBits : decode ⟨0x00000821, 0, 0, 0xAA⟩ = .ok (.encBits 8 170) := rfl
/-- C8. -/
theorem test_decode_encAlign : decode ⟨0x00000022, 0, 0, 0⟩ = .ok .encAlign := rfl
/-- P1 step 4. -/
theorem test_decode_encNslen : decode ⟨0x00000023, 0, 0, 0x4⟩ = .ok (.encNslen 4) := rfl
/-- P1 step 6. -/
theorem test_decode_encClen : decode ⟨0x00000024, 0x1, 0x4, 0x3⟩ = .ok (.encClen 3 1 4) := rfl
/-- P1 step 10. -/
theorem test_decode_encUlen : decode ⟨0x00000025, 0, 0, 0x2⟩ = .ok (.encUlen 2) := rfl
/-- P1 step 7. -/
theorem test_decode_encCwn : decode ⟨0x00000026, 0x0, 0xFA00, 0x3E8⟩ = .ok (.encCwn 1000 0 64000) := rfl
/-- P1 step 8. -/
theorem test_decode_encScwn : decode ⟨0x00000027, 0xA, 0, 0x10A⟩ = .ok (.encScwn 266 10) := rfl
/-- R53: `V` is unsigned. -/
theorem test_decode_encUwn :
    decode ⟨0x00000028, 0, 0, 0xFFFFFFFFFFFFFFFFFFFFFFFFFFFFFFFF⟩ =
      .ok (.encUwn (340282366920938463463374607431768211456 - 1)) :=
  rfl
/-- C11. -/
theorem test_decode_reservedBits : decode ⟨0x80000010, 0, 0, 0⟩ = .error .reservedBitsSet := rfl
/-- C15. -/
theorem test_decode_unlisted : decode ⟨0x000000FF, 0, 0, 0⟩ = .error (.unlistedOpcode 255) := rfl

/-! ### One step of each command (vector ids of 95_test_vectors.md) -/

theorem test_initDec_C6 :
    let o := exec (.initDec 2) (noneState [0x80, 0x41, 0x99])
    shows o = some (.ok, none, 0) ∧ holds o = some [0x80, 0x41] ∧ (after o).din = [0x99] ∧ (after o).mode = .dec :=
  by decide +kernel
theorem test_initDec_C5 :
    shows (exec (.initDec 65) (noneState [0x80])) = some (.outOfBits, none, 0) :=
  by decide +kernel
theorem test_initEnc_C16 :
    let o := exec .initEnc (decState .hold [0x80, 0x41] 1)
    shows o = some (.ok, none, 0) ∧ (after o).mode = .enc ∧ (after o).bitLength = 0 :=
  by decide +kernel
theorem test_decBool_B1 :
    shows (exec .decBool (decState .hold [0xA5] 0)) = some (.ok, some (pat 1), 1) :=
  by decide +kernel
theorem test_decBool_B4 :
    shows (exec .decBool (decState .hold [0xA5] 8)) = some (.outOfBits, none, 8) :=
  by decide +kernel
theorem test_decBits_B7 :
    shows (exec (.decBits 12) (decState .hold [0xA5, 0x3C] 4)) = some (.ok, some (pat 1340), 16) :=
  by decide +kernel
theorem test_decBits_B15 :
    shows (exec (.decBits 255) (decState .hold [0xFF] 0)) = some (.widthTooLarge, none, 0) :=
  by decide +kernel
theorem test_decAlign_B18 :
    shows (exec .decAlign (decState .hold [0x00, 0xFF] 9)) = some (.ok, none, 16) :=
  by decide +kernel
theorem test_decNslen_L53 :
    shows (exec .decNslen (decState .hold [0xE7, 0xE0] 3)) = some (.ok, some (pat 32), 10) :=
  by decide +kernel
theorem test_decNslen_L56 :
    shows (exec .decNslen (decState .hold [0x80, 0xC1, 0x2C] 0)) = some (.ok, some (pat 300), 24) :=
  by decide +kernel
theorem test_decClen_L70 :
    shows (exec (.decClen 1 4) (decState .hold [0x78] 4)) = some (.ok, some (pat 3), 6) :=
  by decide +kernel
theorem test_decClen_L72 :
    shows (exec (.decClen 0 65535) (decState .hold [0x00] 0)) = some (.unsupportedRange, none, 0) :=
  by decide +kernel
theorem test_decUlen_L6 :
    shows (exec .decUlen (decState .hold [0x81] 0)) = some (.ok, some (pat 16384), 8) :=
  by decide +kernel
theorem test_decUlen_L12 :
    shows (exec .decUlen (decState .hold [0xC1] 0)) = some (.outOfBits, none, 2) :=
  by decide +kernel
theorem test_decCwn_S5 :
    shows (exec (.decCwn 0 20000000) (decState .hold [0x00, 0x78, 0x01, 0x01, 0x01, 0x02] 12)) = some (.ok,
      some (pat 16843010), 48) :=
  by decide +kernel
theorem test_decCwn_W60 :
    shows (exec (.decCwn 0 18446744073709551615) (decState .hold [0xF0, 0xFF, 0xFF, 0xFF, 0xFF, 0xFF, 0xFF, 0xFF,
      0xFF, 0xFF, 0xFF, 0xFF, 0xFF, 0xFF, 0xFF, 0xFF, 0xFF, 0xFF] 0)) = some (.widthTooLarge, none, 8) :=
  by decide +kernel
theorem test_decScwn_W71 :
    shows (exec (.decScwn (-3)) (decState .hold [0x80, 0x01, 0x05] 1)) = some (.ok, some (pat 2), 24) :=
  by decide +kernel
theorem test_decScwn_W76 :
    shows (exec (.decScwn 170141183460469231731687303715884105727) (decState .hold [0x01, 0x01] 0)) =
      some (.valueOverflow, none, 16) :=
  by decide +kernel
theorem test_decUwn_W83 :
    shows (exec .decUwn (decState .hold [0x10, 0x80, 0x00, 0x00, 0x00, 0x00, 0x00, 0x00, 0x00, 0x00, 0x00, 0x00,
      0x00, 0x00, 0x00, 0x00, 0x00] 0)) = some (.ok, some (pat 170141183460469231731687303715884105728), 136) :=
  by decide +kernel
theorem test_decUwn_W85 :
    shows (exec .decUwn (decState .hold [0x02, 0x01, 0x00] 0)) = some (.ok, some (pat 256), 24) :=
  by decide +kernel
theorem test_advance_B22 :
    shows (exec (.advance 21 false) (decState .hold [0x00, 0x00, 0x00, 0x00] 12)) = some (.ok, none, 12) :=
  by decide +kernel
theorem test_advance_B23 :
    shows (exec (.advance 21 false) (decState .clamp [0x00, 0x00, 0x00, 0x00] 12)) = some (.ok, none, 32) :=
  by decide +kernel
theorem test_encBool_B30 :
    let o := exec (.encBool true) (encState 64 [] 0)
    shows o = some (.ok, none, 1) ∧ holds o = some [0x80] :=
  by decide +kernel
theorem test_encBool_B44 :
    let o := exec (.encBool true) (encState 2 [0xBE, 0xEF] 16)
    shows o = some (.outOfBits, none, 16) ∧ holds o = some [0xBE, 0xEF] :=
  by decide +kernel
theorem test_encBits_B33 :
    let o := exec (.encBits 12 1340) (encState 64 [0xA0] 4)
    shows o = some (.ok, none, 16) ∧ holds o = some [0xA5, 0x3C] :=
  by decide +kernel
theorem test_encBits_B36 :
    let o := exec (.encBits 3 8) (encState 64 [0xE0] 3)
    shows o = some (.valueOutOfRange, none, 3) ∧ holds o = some [0xE0] :=
  by decide +kernel
theorem test_encAlign_B39 :
    let o := exec .encAlign (encState 64 [0xE0] 3)
    shows o = some (.ok, none, 8) ∧ holds o = some [0xE0] :=
  by decide +kernel
theorem test_encNslen_L65 :
    let o := exec (.encNslen 32) (encState 64 [0xE0] 3)
    shows o = some (.ok, none, 10) ∧ holds o = some [0xE7, 0xC0] :=
  by decide +kernel
theorem test_encNslen_L64 :
    let o := exec (.encNslen 300) (encState 64 [] 0)
    shows o = some (.ok, none, 24) ∧ holds o = some [0x80, 0xC1, 0x2C] :=
  by decide +kernel
theorem test_encClen_L81 :
    let o := exec (.encClen 10 1 65535) (encState 64 [0xE0] 3)
    shows o = some (.ok, none, 24) ∧ holds o = some [0xE0, 0x00, 0x09] :=
  by decide +kernel
theorem test_encClen_L83 :
    let o := exec (.encClen 5 1 4) (encState 64 [0xE0] 3)
    shows o = some (.valueOutOfRange, none, 3) ∧ holds o = some [0xE0] :=
  by decide +kernel
theorem test_encUlen_L23 :
    let o := exec (.encUlen 300) (encState 64 [] 0)
    shows o = some (.ok, none, 16) ∧ holds o = some [0xC1, 0x2C] :=
  by decide +kernel
theorem test_encUlen_L27 :
    let o := exec (.encUlen 49152) (encState 64 [] 0)
    shows o = some (.ok, none, 8) ∧ holds o = some [0x83] :=
  by decide +kernel
theorem test_encCwn_W33 :
    let o := exec (.encCwn 16843010 0 20000000) (encState 64 [0xE0] 3)
    shows o = some (.ok, none, 40) ∧ holds o = some [0xF0, 0x01, 0x01, 0x01, 0x02] :=
  by decide +kernel
theorem test_encCwn_W115 :
    let o := exec (.encCwn 256 0 64000) (encState 2 [0xE0] 3)
    shows o = some (.outOfBits, none, 8) ∧ holds o = some [0xE0] :=
  by decide +kernel
theorem test_encScwn_W91 :
    let o := exec (.encScwn 10 10) (encState 64 [0xE0] 3)
    shows o = some (.ok, none, 24) ∧ holds o = some [0xE0, 0x01, 0x00] :=
  by decide +kernel
theorem test_encScwn_W96 :
    let o := exec (.encScwn (-1) (-3)) (encState 64 [] 0)
    shows o = some (.ok, none, 16) ∧ holds o = some [0x01, 0x02] :=
  by decide +kernel
theorem test_encUwn_W98 :
    let o := exec (.encUwn 0) (encState 64 [] 0)
    shows o = some (.ok, none, 16) ∧ holds o = some [0x01, 0x00] :=
  by decide +kernel
theorem test_encUwn_W100 :
    let o := exec (.encUwn 128) (encState 64 [] 0)
    shows o = some (.ok, none, 16) ∧ holds o = some [0x01, 0x80] :=
  by decide +kernel

/-! ### The host's two functions -/

theorem test_decodeTableWord :
    decodeTableWord 32 0x00010820 = some (.encBool true) ∧ decodeTableWord 32 0x00020020 = none ∧
    decodeTableWord 160 ((5 <<< 32) + 0x01) = some (.initDec 5) :=
  by decide +kernel
theorem test_withFetchWord_runs :
    shows (step ((noneState []).withFetchWord 32 0x00000002)) = some (.ok, none, 0) :=
  by decide +kernel
/-- C13. -/
theorem test_withFetchWord_refuses :
    shows (step ((decState .hold [0x80] 1).withFetchWord 32 0x0000001A)) = some (.illegalCommand, none, 1) :=
  by decide +kernel

/-! ### States and operands that meet the hypotheses of the statements

Each `witness_<Name>` is for the statement of that name; a statement with several clauses has one conjunct, or one
lettered theorem, for each clause. -/

theorem witness_DecodeOfEncodeIsTheInstruction :
    WellFormed (.encCwn (-170141183460469231731687303715884105728) 170141183460469231731687303715884105727 170141183460469231731687303715884105727) :=
  by decide +kernel
theorem witness_DecodeIgnoresUnreadFields_a :
    decode ⟨0x10, 0, 0, 0⟩ = .ok .decBool ∧ hdrOpcode 0x1FF10 = hdrOpcode 0x10 ∧
    hdrZero 0x1FF10 = hdrZero 0x10 ∧ formatOf .decBool = {} :=
  ⟨rfl, by decide⟩
theorem witness_DecodeIgnoresUnreadFields_b :
    hdrZero 0x8111 = 0 ∧ hdrN 0x8111 = 129 ∧ hdrOpcode 0x8111 = 0x11 ∧ (decState .hold [] 0).mode = .dec :=
  by decide
theorem witness_DecodeIgnoresUnreadFields_c :
    hdrZero 0xFF21 = 0 ∧ hdrN 0xFF21 = 255 ∧ hdrOpcode 0xFF21 = 0x21 ∧ (encState 2 [] 0).mode = .enc :=
  by decide
theorem witness_IllegalHeaderAnswersIllegalCommand_a :
    let s : State := { noneState [] with hostQueue := [.command ⟨0x00020010, 0, 0, 0⟩] }
    s.hostQueue = [.command ⟨0x00020010, 0, 0, 0⟩] ∧ inFlight s = false ∧ IllegalHeader 0x00020010 ∧
    IllegalHeader 0x00 ∧ IllegalHeader 0x03 ∧ IllegalHeader 0x0F ∧ IllegalHeader 0x1A ∧ IllegalHeader 0x1F ∧
      IllegalHeader 0x29 :=
  by decide +kernel
theorem witness_IllegalHeaderAnswersIllegalCommand_b :
    ¬IllegalHeader 0x0001FF28 ∧ ¬IllegalHeader 0x01 ∧ ¬IllegalHeader 0x19 :=
  by decide +kernel
theorem witness_StepRunsDecodedCommand :
    let s : State := { noneState [] with hostQueue := [.command ⟨0x02, 0, 0, 0⟩] }
    s.hostQueue = [.command ⟨0x02, 0, 0, 0⟩] ∧ inFlight s = false ∧ decode ⟨0x02, 0, 0, 0⟩ = .ok .initEnc :=
  ⟨rfl, rfl, rfl⟩
theorem witness_ResponseWaitsForTheHost :
    let s : State := { noneState [] with response := some ⟨.ok, none⟩ }
    s.response = some ⟨.ok, none⟩ ∧ s.transfer = none ∧ s.hostQueue = [] ∧
      { s with hostQueue := [.command ⟨0x02, 0, 0, 0⟩] }.hostQueue = [.command ⟨0x02, 0, 0, 0⟩] ∧
      { s with hostQueue := [.takeResponse] }.hostQueue = [.takeResponse] :=
  ⟨rfl, rfl, rfl, rfl, rfl⟩
theorem witness_RstLeavesNoPassAndNothingInFlight :
    { encState 2 [0xBE, 0xEF] 16 with hostQueue := [.rst] }.hostQueue = [.rst] :=
  rfl
theorem witness_StepKeepsInv :
    Inv ({ encState 2 [0xE0] 3 with hostQueue := [.command ⟨0x00000D21, 0, 0, 8191⟩] } : State) ∧
    step ({ encState 2 [0xE0] 3 with hostQueue := [.command ⟨0x00000D21, 0, 0, 8191⟩] } : State) =
      .next (after (step ({ encState 2 [0xE0] 3 with hostQueue := [.command ⟨0x00000D21, 0, 0, 8191⟩] } : State))) :=
  ⟨inv_of_check (by decide +kernel), next_after (by decide +kernel)⟩
theorem witness_NoCommandStopsTheBlock :
    Inv (noneState [0x80]) ∧ (noneState [0x80]).response = none ∧
    (noneState [0x80]).transfer = none :=
  ⟨inv_of_check (by decide +kernel), rfl, rfl⟩
theorem witness_CursorFitsPosWBits :
    Inv (encState 2 [0xBE, 0xEF] 16) ∧ capBits (encState 2 [0xBE, 0xEF] 16) < 2 ^ 5 ∧
      (encState 2 [0xBE, 0xEF] 16).bitPosition = capBits (encState 2 [0xBE, 0xEF] 16) :=
  ⟨inv_of_check (by decide +kernel), by decide +kernel⟩
theorem witness_PositionNeverFallsWithinAPass :
    modeNeeded (.decBits 12) ≠ none ∧
      (decState .hold [0xA5, 0x3C] 4).bitPosition ≤ (decState .hold [0xA5, 0x3C] 4).bitLength ∧
    exec (.decBits 12) (decState .hold [0xA5, 0x3C] 4) = .next (after (exec (.decBits 12) (decState .hold [0xA5,
      0x3C] 4))) :=
  ⟨by decide, by decide, next_after (by decide +kernel)⟩
theorem witness_ModeChangesOnlyAtConstruction_a :
    step ({ decState .hold [0xA5] 0 with hostQueue := [.rst] } : State) =
      .next (after (step ({ decState .hold [0xA5] 0 with hostQueue := [.rst] } : State))) ∧
    (after (step ({ decState .hold [0xA5] 0 with hostQueue := [.rst] } : State))).mode ≠ ({ decState .hold [0xA5] 0 with hostQueue := [.rst] } : State).mode :=
  ⟨next_after (by decide +kernel), by decide +kernel⟩
theorem witness_ModeChangesOnlyAtConstruction_b :
    step ({ decState .hold [0xA5] 0 with hostQueue := [.command ⟨0x02, 0, 0, 0⟩] } : State) =
      .next (after (step ({ decState .hold [0xA5] 0 with hostQueue := [.command ⟨0x02, 0, 0, 0⟩] } : State))) ∧
    (after (step ({ decState .hold [0xA5] 0 with hostQueue := [.command ⟨0x02, 0, 0,
      0⟩] } : State))).mode ≠ ({ decState .hold [0xA5] 0 with hostQueue := [.command ⟨0x02, 0, 0,
      0⟩] } : State).mode :=
  ⟨next_after (by decide +kernel), by decide +kernel⟩
theorem witness_ModeChangesOnlyAtConstruction_c :
    step ({ noneState [0x80] with hostQueue := [.command ⟨0x01, 1, 0, 0⟩] } : State) =
      .next (after (step ({ noneState [0x80] with hostQueue := [.command ⟨0x01, 1, 0, 0⟩] } : State))) ∧
    (after (step ({ noneState [0x80] with hostQueue := [.command ⟨0x01, 1, 0,
      0⟩] } : State))).mode ≠ ({ noneState [0x80] with hostQueue := [.command ⟨0x01, 1, 0, 0⟩] } : State).mode :=
  ⟨next_after (by decide +kernel), by decide +kernel⟩
theorem witness_ModeChangesOnlyAtConstruction_d :
    step ({ noneState [0x80] with transfer := some ⟨2, [0x41]⟩ } : State) =
      .next (after (step ({ noneState [0x80] with transfer := some ⟨2, [0x41]⟩ } : State))) ∧
    (after (step ({ noneState [0x80] with transfer := some ⟨2,
      [0x41]⟩ } : State))).mode ≠ ({ noneState [0x80] with transfer := some ⟨2, [0x41]⟩ } : State).mode :=
  ⟨next_after (by decide +kernel), by decide +kernel⟩
theorem witness_ParametersAndSliceChannelFrame :
    exec (.initDec 2) (noneState [0x80, 0x41, 0x99]) = .next (after (exec (.initDec 2) (noneState [0x80, 0x41,
      0x99]))) ∧
    (after (exec (.initDec 2) (noneState [0x80, 0x41, 0x99]))).din = [0x99] :=
  ⟨next_after (by decide +kernel), by decide +kernel⟩
theorem witness_DecodeCommandsChangeOnlyTheCursor :
    modeNeeded (.decBits 12) = some .dec ∧
    exec (.decBits 12) (decState .hold [0xA5, 0x3C] 4) = .next (after (exec (.decBits 12) (decState .hold [0xA5,
      0x3C] 4))) :=
  ⟨rfl, next_after (by decide +kernel)⟩
theorem witness_EncodeCommandsOnlyAppend :
    modeNeeded (.encUlen 300) = some .enc ∧ Inv (encState 64 [0xBE, 0xE0] 12) ∧
      (encState 64 [0xBE, 0xE0] 12).mode = .enc ∧
    exec (.encUlen 300) (encState 64 [0xBE, 0xE0] 12) = .next (after (exec (.encUlen 300) (encState 64 [0xBE,
      0xE0] 12))) ∧
    11 < (encState 64 [0xBE, 0xE0] 12).bitPosition ∧ 0 < (encState 64 [0xBE, 0xE0] 12).bitPosition / 8 ∧
      octets (after (exec (.encUlen 300) (encState 64 [0xBE, 0xE0] 12))).bitPosition ≤ 4 :=
  ⟨rfl, inv_of_check (by decide +kernel), rfl, next_after (by decide +kernel), by decide +kernel⟩
theorem witness_EncodeCommandsOnlyAppend_tail :
    Inv (encState 64 [0xBE, 0xE0] 12) ∧ (encState 64 [0xBE, 0xE0] 12).mode = .enc ∧
      exec (.encBits 3 7) (encState 64 [0xBE, 0xE0] 12) = .next (after (exec (.encBits 3 7) (encState 64 [0xBE,
      0xE0] 12))) ∧
    (after (exec (.encBits 3 7) (encState 64 [0xBE, 0xE0] 12))).bitPosition ≤ 15 ∧
      15 < alignUp (after (exec (.encBits 3 7) (encState 64 [0xBE, 0xE0] 12))).bitPosition :=
  ⟨inv_of_check (by decide +kernel), rfl, next_after (by decide +kernel), by decide +kernel⟩
theorem witness_WrongModeChangesNothing :
    modeNeeded (.encBool true) = some .enc ∧ (decState .hold [0x80] 0).mode ≠ .enc :=
  by decide
theorem witness_CommandsEndOnlyWithTheirStatuses :
    WellFormed (.decBits 255) ∧ (decState .hold [0xFF] 0).response = none ∧
    exec (.decBits 255) (decState .hold [0xFF] 0) = .next (after (exec (.decBits 255) (decState .hold [0xFF] 0))) ∧
    (after (exec (.decBits 255) (decState .hold [0xFF] 0))).response = some ⟨.widthTooLarge, none⟩ :=
  ⟨rfl, rfl, next_after (by decide +kernel), by decide +kernel⟩
theorem witness_ResultExactlyWhenOkAndDefined :
    (decState .hold [0xA5] 0).response = none ∧
      exec .decBool (decState .hold [0xA5] 0) = .next (after (exec .decBool (decState .hold [0xA5] 0))) ∧
    (after (exec .decBool (decState .hold [0xA5] 0))).response = some ⟨.ok, some (pat 1)⟩ :=
  ⟨rfl, next_after (by decide +kernel), by decide +kernel⟩
theorem witness_InvalidRangeMovesNoBit :
    (decState .hold [0x00] 0).mode = .dec ∧ (encState 2 [] 0).mode = .enc ∧ ¬RangeOK (range 5 4) ∧
    ¬RangeOK (range 0 170141183460469231731687303715884105727) ∧ range 5 4 ≤ 0 :=
  by decide
theorem witness_UnsupportedRangeOnlyFromConstrainedLength_a :
    (decState .hold [0x00] 0).mode = .dec ∧ (encState 2 [] 0).mode = .enc ∧ range 0 65535 = 65536 :=
  by decide
theorem witness_UnsupportedRangeOnlyFromConstrainedLength_b :
    exec (.decCwn 0 65535) (decState .hold [0x00, 0x01] 0) =
      .next (after (exec (.decCwn 0 65535) (decState .hold [0x00, 0x01] 0))) ∧
    exec (.encCwn 1 0 65535) (encState 2 [0xE0] 3) = .next (after (exec (.encCwn 1 0 65535) (encState 2 [0xE0] 3))) :=
  ⟨next_after (by decide +kernel), next_after (by decide +kernel)⟩
theorem witness_UnsupportedRangeOnlyFromConstrainedLength_c :
    (decState .hold [0x00] 0).response = none ∧
      exec (.decClen 0 65535) (decState .hold [0x00] 0) =
      .next (after (exec (.decClen 0 65535) (decState .hold [0x00] 0))) ∧
    (after (exec (.decClen 0 65535) (decState .hold [0x00] 0))).response = some ⟨.unsupportedRange, none⟩ :=
  ⟨rfl, next_after (by decide +kernel), by decide +kernel⟩
theorem witness_ValueOutOfRangeWritesNothing :
    WellFormed (.encScwn 9 10) ∧ (encState 64 [0xE0] 3).response = none ∧
    exec (.encScwn 9 10) (encState 64 [0xE0] 3) = .next (after (exec (.encScwn 9 10) (encState 64 [0xE0] 3))) ∧
    (after (exec (.encScwn 9 10) (encState 64 [0xE0] 3))).response = some ⟨.valueOutOfRange, none⟩ :=
  ⟨rfl, rfl, next_after (by decide +kernel), by decide +kernel⟩
theorem witness_EncodersRefuseValuesTheyCannotCarry :
    (encState 64 [0xE0] 3).mode = .enc ∧ 2 ^ 128 ≤ 340282366920938463463374607431768211456 ∧
    RangeOK (range 0 170141183460469231731687303715884105726) ∧ (-1 : Int) < 0 ∧ 1 ≤ range 1 65535 ∧
      range 1 65535 < 65536 ∧ (65535 : Int) < 65536 ∧
    (9 : Int) < 10 ∧ ¬ULenOK 16385 ∧ ¬ULenOK 65537 :=
  by decide
theorem witness_InitDecLoadsTheSlice :
    0 ≤ (noneState []).capBytes ∧ 0 ≤ (noneState []).din.length ∧
    2 ≤ (noneState [0x80, 0x41]).capBytes ∧ 2 ≤ (noneState [0x80, 0x41]).din.length ∧
      Memory.wf (noneState []).buffer :=
  by decide
theorem witness_InitDecRefusesALongSlice : (noneState []).capBytes < 65 := by decide
theorem witness_InitDecWaitsForItsSlice :
    64 ≤ (noneState [0x80]).capBytes ∧ (noneState [0x80]).din.length < 64 ∧
    (noneState [0x80]).hostQueue.head? ≠ some .rst :=
  by decide
theorem witness_ReadOutGivesTheOctetsInUse :
    Inv (encState 64 [0xBE, 0xE0] 12) ∧ inFlight (encState 64 [0xBE, 0xE0] 12) = false ∧
      0 + 2 ≤ octets (encState 64 [0xBE, 0xE0] 12).bitLength ∧
    octets (encState 64 [0xBE, 0xE0] 12).bitLength < 0 + 3 ∧ (encState 64 [0xBE, 0xE0] 12).mode = .enc :=
  ⟨inv_of_check (by decide +kernel), by decide +kernel⟩
theorem witness_ReadOutGivesTheOctetsInUse_inFlight :
    Inv ({ encState 64 [0xBE, 0xE0] 12 with response := some ⟨.ok, none⟩ } : State) ∧
      inFlight ({ encState 64 [0xBE, 0xE0] 12 with response := some ⟨.ok, none⟩ } : State) = true :=
  ⟨inv_of_check (by decide +kernel), by decide +kernel⟩
theorem witness_StatusOutputsShowTheState :
    Inv (encState 2 [0xBE, 0xEF] 16) ∧ inFlight (encState 2 [0xBE, 0xEF] 16) = false :=
  ⟨inv_of_check (by decide +kernel), by decide +kernel⟩
theorem witness_StatusOutputsShowTheState_inFlight :
    Inv ({ encState 64 [0xBE, 0xE0] 12 with response := some ⟨.ok, none⟩ } : State) ∧
      inFlight ({ encState 64 [0xBE, 0xE0] 12 with response := some ⟨.ok, none⟩ } : State) = true :=
  ⟨inv_of_check (by decide +kernel), by decide +kernel⟩
theorem witness_StatusOutputsShowTheState_error :
    Inv ({ encState 64 [0xBE, 0xE0] 12 with response := some ⟨.outOfBits, none⟩ } : State) ∧
      ({ encState 64 [0xBE, 0xE0] 12 with response := some ⟨.outOfBits, none⟩ } : State).response =
      some ⟨.outOfBits, none⟩ ∧ Status.outOfBits ≠ .ok :=
  ⟨inv_of_check (by decide +kernel), by decide +kernel⟩
theorem witness_StatusOutputsShowTheState_waiting :
    Inv ({ noneState [] with transfer := some ⟨2, [0x41]⟩ } : State) ∧
      ({ noneState [] with transfer := some ⟨2, [0x41]⟩ } : State).transfer.isSome = true ∧
      ({ noneState [] with transfer := some ⟨2, [0x41]⟩ } : State).response = none :=
  ⟨inv_of_check (by decide +kernel), by decide +kernel⟩
theorem witness_StatusOutputsShowTheState_ok :
    Inv ({ decState .hold [0xA5] 1 with response := some ⟨.ok, some 1⟩ } : State) ∧
      ({ decState .hold [0xA5] 1 with response := some ⟨.ok, some 1⟩ } : State).response = some ⟨.ok, some 1⟩ :=
  ⟨inv_of_check (by decide +kernel), by decide +kernel⟩
theorem witness_DecBoolReadsTheNextBit :
    (decState .hold [0xA5] 7).mode = .dec ∧
      (decState .hold [0xA5] 7).bitPosition + 1 ≤ (decState .hold [0xA5] 7).bitLength ∧
    bitAt (decState .hold [0xA5] 7).buffer 7 = some true ∧
      (decState .hold [0xA5] 8).bitLength < (decState .hold [0xA5] 8).bitPosition + 1 :=
  by decide +kernel
theorem witness_DecBitsReadsTheNextBits_a :
    (decState .hold [0xA5, 0x3C] 4).mode = .dec ∧
      (decState .hold [0xA5, 0x3C] 4).bitPosition + 12 ≤ (decState .hold [0xA5, 0x3C] 4).bitLength ∧
    1340 < 2 ^ 12 ∧ ∀ k, k < 12 → bitAt (decState .hold [0xA5, 0x3C] 4).buffer (4 + k) =
      some (Nat.testBit 1340 (11 - k)) :=
  by decide +kernel
theorem witness_DecBitsReadsTheNextBits_b :
    128 < 129 ∧ 9 ≤ 128 ∧ (decState .hold [0xA5] 0).bitLength < (decState .hold [0xA5] 0).bitPosition + 9 :=
  by decide +kernel
theorem witness_DecAlignMovesToTheNextOctet : (decState .hold [0x00, 0xFF] 9).mode = .dec := rfl
theorem witness_AdvanceSkipsOrObeysThePolicy :
    (decState .hold [0x00, 0x00] 12).mode = .dec ∧
      (decState .hold [0x00, 0x00] 12).bitPosition + 4 ≤ (decState .hold [0x00, 0x00] 12).bitLength ∧
    (decState .hold [0x00, 0x00] 12).bitLength < (decState .hold [0x00, 0x00] 12).bitPosition + 5 ∧
      (decState .hold [0x00, 0x00] 12).softPolicy = .hold ∧
    (decState .clamp [0x00, 0x00] 12).softPolicy = .clamp :=
  by decide +kernel
theorem witness_EncBoolAppendsItsBit :
    Inv (encState 2 [0xBE, 0xEE] 15) ∧ (encState 2 [0xBE, 0xEE] 15).mode = .enc ∧
    (encState 2 [0xBE, 0xEE] 15).bitPosition + 1 ≤ capBits (encState 2 [0xBE, 0xEE] 15) :=
  ⟨inv_of_check (by decide +kernel), by decide +kernel⟩
theorem witness_EncBoolAppendsItsBit_full :
    Inv (encState 2 [0xBE, 0xEF] 16) ∧ (encState 2 [0xBE, 0xEF] 16).mode = .enc ∧
      capBits (encState 2 [0xBE, 0xEF] 16) < (encState 2 [0xBE, 0xEF] 16).bitPosition + 1 :=
  ⟨inv_of_check (by decide +kernel), by decide +kernel⟩
theorem witness_EncBitsAppendsTheValue :
    Inv (encState 2 [0xE0] 3) ∧ (encState 2 [0xE0] 3).mode = .enc ∧ 8191 < 2 ^ 13 ∧
    (encState 2 [0xE0] 3).bitPosition + 13 ≤ capBits (encState 2 [0xE0] 3) ∧
      capBits (encState 2 [0xE0] 3) < (encState 2 [0xE0] 3).bitPosition + 14 :=
  ⟨inv_of_check (by decide +kernel), by decide +kernel⟩
theorem witness_EncAlignPadsWithZeros :
    Inv (encState 2 [0xE0] 3) ∧ (encState 2 [0xE0] 3).mode = .enc :=
  ⟨inv_of_check (by decide +kernel), by decide +kernel⟩
theorem witness_DecUlenReadsTheTableOfFirstOctets_a :
    (decState .hold [0xFF, 0x7F] 3).mode = .dec ∧
    lengthAt (decState .hold [0xFF, 0x7F] 3).buffer (octets (decState .hold [0xFF, 0x7F] 3).bitPosition) =
      some (127, 1) ∧ alignUp (decState .hold [0xFF, 0x7F] 3).bitPosition + 8 * 1 ≤ (decState .hold [0xFF,
      0x7F] 3).bitLength :=
  by decide +kernel
theorem witness_DecUlenReadsTheTableOfFirstOctets_b :
    lengthAt (decState .hold [0xFF, 0xFF] 0).buffer (octets (decState .hold [0xFF, 0xFF] 0).bitPosition) =
      some (16383, 2) ∧
      alignUp (decState .hold [0xFF, 0xFF] 0).bitPosition + 8 * 2 ≤ (decState .hold [0xFF, 0xFF] 0).bitLength :=
  by decide +kernel
theorem witness_DecUlenReadsTheTableOfFirstOctets_c :
    lengthAt (decState .hold [0x84] 0).buffer (octets (decState .hold [0x84] 0).bitPosition) = some (65536, 1) ∧
      alignUp (decState .hold [0x84] 0).bitPosition + 8 * 1 ≤ (decState .hold [0x84] 0).bitLength :=
  by decide +kernel
theorem witness_DecUlenReadsTheTableOfFirstOctets_d :
    octetAt (decState .hold [0x85] 0).buffer 0 = some 0x85 ∧ 0x85 ≤ (0x85 : Octet).toNat ∧
      (0x85 : Octet).toNat ≤ 0xBF ∧
    alignUp (decState .hold [0x85] 0).bitPosition + 8 ≤ (decState .hold [0x85] 0).bitLength :=
  by decide +kernel
theorem witness_DecUlenShortInputKeepsWhatItConsumed :
    (decState .hold [0xFF] 3).mode = .dec ∧
      (decState .hold [0xFF] 3).bitLength < alignUp (decState .hold [0xFF] 3).bitPosition + 1 ∧
    octetAt (decState .hold [0xC1] 0).buffer 0 = some 0xC1 ∧
      (decState .hold [0xC1] 0).bitLength = alignUp (decState .hold [0xC1] 0).bitPosition + 8 :=
  by decide +kernel
theorem witness_DecNslenReadsBothForms_a :
    (decState .hold [0x7E] 0).mode = .dec ∧ bitAt (decState .hold [0x7E] 0).buffer 0 = some false ∧
      (decState .hold [0x7E] 0).bitPosition + 7 ≤ (decState .hold [0x7E] 0).bitLength ∧
    rdBits (decState .hold [0x7E] 0).buffer 1 6 = some 63 :=
  by decide +kernel
theorem witness_DecNslenReadsBothForms_b :
    bitAt (decState .hold [0x80, 0x41] 0).buffer 0 = some true ∧
      lengthAt (decState .hold [0x80, 0x41] 0).buffer (octets 1) = some (65, 1) ∧
    alignUp 1 + 8 * 1 ≤ (decState .hold [0x80, 0x41] 0).bitLength ∧
      (decState .hold [0x80, 0x41] 0).bitPosition + 1 ≤ (decState .hold [0x80, 0x41] 0).bitLength :=
  by decide +kernel
theorem witness_DecNslenReadsBothForms_c :
    (decState .hold [0x80] 8).bitLength < (decState .hold [0x80] 8).bitPosition + 1 ∧
      bitAt (decState .hold [0x00] 2).buffer 2 = some false ∧
    (decState .hold [0x00] 2).bitPosition + 1 ≤ (decState .hold [0x00] 2).bitLength ∧
      (decState .hold [0x00] 2).bitLength < (decState .hold [0x00] 2).bitPosition + 7 :=
  by decide +kernel
theorem witness_EncUlenWritesTheShortestForm_a :
    Inv (encState 2 [0xE0] 3) ∧ (encState 2 [0xE0] 3).mode = .enc ∧ ULenOK 65536 ∧ lengthOctets 65536 = 1 ∧
    alignUp (encState 2 [0xE0] 3).bitPosition + 8 * lengthOctets 65536 ≤ capBits (encState 2 [0xE0] 3) :=
  ⟨inv_of_check (by decide +kernel), by decide +kernel⟩
theorem witness_EncUlenWritesTheShortestForm_b :
    Inv (encState 2 [0xBE, 0xEF] 16) ∧ ULenOK 0 ∧
      capBits (encState 2 [0xBE, 0xEF] 16) < alignUp (encState 2 [0xBE, 0xEF] 16).bitPosition + 8 :=
  ⟨inv_of_check (by decide +kernel), by decide +kernel⟩
theorem witness_EncUlenWritesTheShortestForm_c :
    Inv (encState 2 [0xE0] 3) ∧ ULenOK 16383 ∧ lengthOctets 16383 = 2 ∧ lengthOctets 128 = 2 ∧
    capBits (encState 2 [0xE0] 3) = alignUp (encState 2 [0xE0] 3).bitPosition + 8 :=
  ⟨inv_of_check (by decide +kernel), by decide +kernel⟩
theorem witness_EncNslenChoosesTheForm_a :
    Inv (encState 2 [0xBE, 0x00] 9) ∧ (encState 2 [0xBE, 0x00] 9).mode = .enc ∧
      (encState 2 [0xBE, 0x00] 9).bitPosition + 7 ≤ capBits (encState 2 [0xBE, 0x00] 9) :=
  ⟨inv_of_check (by decide +kernel), by decide +kernel⟩
theorem witness_EncNslenChoosesTheForm_b :
    Inv (encState 2 [0xE0] 3) ∧ 64 < 65 ∧ ULenOK 65 ∧
      alignUp ((encState 2 [0xE0] 3).bitPosition + 1) + 8 * lengthOctets 65 ≤ capBits (encState 2 [0xE0] 3) :=
  ⟨inv_of_check (by decide +kernel), by decide +kernel⟩
theorem witness_EncNslenChoosesTheForm_c :
    Inv (encState 2 [0xBE, 0xEF] 16) ∧ ULenOK 64 ∧
      capBits (encState 2 [0xBE, 0xEF] 16) < (encState 2 [0xBE, 0xEF] 16).bitPosition + 1 :=
  ⟨inv_of_check (by decide +kernel), by decide +kernel⟩
theorem witness_EncNslenChoosesTheForm_d :
    Inv (encState 2 [0xBE, 0x00] 10) ∧
      (encState 2 [0xBE, 0x00] 10).bitPosition + 1 ≤ capBits (encState 2 [0xBE, 0x00] 10) ∧
      capBits (encState 2 [0xBE, 0x00] 10) < (encState 2 [0xBE, 0x00] 10).bitPosition + 7 :=
  ⟨inv_of_check (by decide +kernel), by decide +kernel⟩
theorem witness_EncNslenChoosesTheForm_e :
    Inv (encState 2 [0xBE, 0x00] 9) ∧ ULenOK 65 ∧
      (encState 2 [0xBE, 0x00] 9).bitPosition + 1 ≤ capBits (encState 2 [0xBE, 0x00] 9) ∧
    capBits (encState 2 [0xBE, 0x00] 9) < alignUp ((encState 2 [0xBE, 0x00] 9).bitPosition + 1) + 8 :=
  ⟨inv_of_check (by decide +kernel), by decide +kernel⟩
theorem witness_EncNslenChoosesTheForm_f :
    Inv (encState 2 [0xE0] 3) ∧ lengthOctets 128 = 2 ∧ lengthOctets 16383 = 2 ∧
      capBits (encState 2 [0xE0] 3) = alignUp ((encState 2 [0xE0] 3).bitPosition + 1) + 8 :=
  ⟨inv_of_check (by decide +kernel), by decide +kernel⟩
theorem witness_ConstrainedLengthIsConstrainedWholeNumber : range 1 65535 < 65536 := by decide
theorem witness_DecCwnBandOne_a :
    (decState .hold [0xC0] 0).mode = .dec ∧ range 0 2 = 3 ∧ bitsNeededForRange 3 = 2 ∧
      (decState .hold [0xC0] 0).bitPosition + 2 ≤ (decState .hold [0xC0] 0).bitLength ∧
    rdBits (decState .hold [0xC0] 0).buffer 0 2 = some 3 ∧ (3 : Int) + 0 ≤ 2 ^ 127 - 1 ∧
      (2 : Int) ^ 127 - 1 < 3 + (2 ^ 127 - 3) :=
  by decide +kernel
theorem witness_DecCwnBandOne_b :
    range 0 254 = 255 ∧ bitsNeededForRange 255 = 8 ∧
      (decState .hold [0xFF] 6).bitLength < (decState .hold [0xFF] 6).bitPosition + 8 :=
  by decide +kernel
theorem witness_DecCwnBandsTwoAndThree_a :
    (decState .hold [0xFF, 0xFF] 3).mode = .dec ∧ range 0 255 = 256 ∧
      alignUp (decState .hold [0xFF, 0xFF] 3).bitPosition + 8 ≤ (decState .hold [0xFF, 0xFF] 3).bitLength ∧
    rdBits (decState .hold [0xFF, 0xFF] 3).buffer (alignUp (decState .hold [0xFF, 0xFF] 3).bitPosition) 8 =
      some 255 ∧ (255 : Int) + 0 ≤ 2 ^ 127 - 1 :=
  by decide +kernel
theorem witness_DecCwnBandsTwoAndThree_c :
    range (170141183460469231731687303715884105727 - 256) 170141183460469231731687303715884105727 = 257 ∧
      rdBits (decState .hold [0xFF, 0xFF] 0).buffer 0 16 = some 65535 ∧
    170141183460469231731687303715884105727 < 65535 + (170141183460469231731687303715884105727 - 256 : Int) :=
  by decide +kernel
theorem witness_DecCwnBandsTwoAndThree_b :
    range 1 65535 = 65535 ∧ range 0 256 = 257 ∧
      (decState .hold [0xFF, 0xFF] 3).bitLength < alignUp (decState .hold [0xFF, 0xFF] 3).bitPosition + 16 :=
  by decide +kernel
theorem witness_DecCwnBandFour_a :
    (decState .hold [0xE0, 0x01, 0x01, 0x01, 0x01, 0x01, 0x01, 0x01, 0x01, 0x01, 0x01, 0x01, 0x01, 0x01, 0x01,
      0x01, 0x01] 0).mode = .dec ∧ range 0 18446744073709551615 = 18446744073709551616 ∧
    bitsNeededForRange (bytesNeeded 18446744073709551616) = 4 ∧
      rdBits (decState .hold [0xE0, 0x01, 0x01, 0x01, 0x01, 0x01, 0x01, 0x01, 0x01, 0x01, 0x01, 0x01, 0x01, 0x01,
      0x01, 0x01, 0x01] 0).buffer 0 4 = some 14 ∧
    alignUp 4 + 8 * (14 + 2) ≤ (decState .hold [0xE0, 0x01, 0x01, 0x01, 0x01, 0x01, 0x01, 0x01, 0x01, 0x01, 0x01,
      0x01, 0x01, 0x01, 0x01, 0x01, 0x01] 0).bitLength ∧
    rdBits (decState .hold [0xE0, 0x01, 0x01, 0x01, 0x01, 0x01, 0x01, 0x01, 0x01, 0x01, 0x01, 0x01, 0x01, 0x01,
      0x01, 0x01, 0x01] 0).buffer 8 128 = some 1334440654591915542993625911497130241 :=
  by decide +kernel
theorem witness_DecCwnBandFour_b :
    65536 ≤ range 0 65535 ∧ bitsNeededForRange (bytesNeeded 65536) = 2 ∧
      rdBits (decState .hold [0x00, 0x01] 0).buffer 0 2 = some 0 ∧
    (decState .hold [0x00, 0x01] 0).bitLength < alignUp 2 + 8 * (0 + 2) ∧
      (decState .hold [0xFF] 7).bitLength < (decState .hold [0xFF] 7).bitPosition + 2 ∧
    rdBits (decState .hold [0xF0] 0).buffer 0 4 = some 15 :=
  by decide +kernel
theorem witness_DecCwnBandFour_c :
    range (170141183460469231731687303715884105727 - 65535) 170141183460469231731687303715884105727 = 65536 ∧
      rdBits (decState .hold [0x00, 0xFF, 0xFF] 0).buffer 0 2 = some 0 ∧
    rdBits (decState .hold [0x00, 0xFF, 0xFF] 0).buffer 8 16 = some 65535 ∧
      170141183460469231731687303715884105727 < 65535 + (170141183460469231731687303715884105727 - 65534 : Int) :=
  by decide +kernel
theorem witness_DecScwnAndUwnReadCountedOctets_a :
    (decState .hold [0x02, 0x01, 0x00] 0).mode = .dec ∧
      lengthAt (decState .hold [0x02, 0x01, 0x00] 0).buffer 0 = some (2, 1) ∧
      alignUp 0 + 8 * 1 + 8 * 2 ≤ (decState .hold [0x02, 0x01, 0x00] 0).bitLength ∧
    rdBits (decState .hold [0x02, 0x01, 0x00] 0).buffer 8 16 = some 256 ∧ (256 : Int) + 10 ≤ 2 ^ 127 - 1 ∧
      (2 : Int) ^ 127 - 1 < 256 + (2 ^ 127 - 256) :=
  by decide +kernel
theorem witness_DecScwnAndUwnReadCountedOctets_b :
    lengthAt (decState .hold [0x10] 0).buffer 0 = some (16, 1) ∧ (decState .hold [0x10] 0).bitLength < 8 + 8 * 16 ∧
    lengthAt (decState .hold [0x11] 0).buffer 0 = some (17, 1) ∧ 8 ≤ (decState .hold [0x11] 0).bitLength :=
  by decide +kernel
theorem witness_DecScwnAndUwnReadCountedOctets_c :
    exec .decUlen (decState .hold [0x80] 0) = .next (after (exec .decUlen (decState .hold [0x80] 0))) ∧
    (after (exec .decUlen (decState .hold [0x80] 0))).response = some ⟨.invalidLengthMultiplier, none⟩ ∧
      Status.invalidLengthMultiplier ≠ .ok :=
  ⟨next_after (by decide +kernel), by decide +kernel⟩
theorem witness_DecScwnAndUwnReadCountedOctets_d :
    octetAt (decState .hold [0x80] 0).buffer 0 = some 0x80 ∧
      alignUp (decState .hold [0x80] 0).bitPosition + 8 ≤ (decState .hold [0x80] 0).bitLength ∧
    (decState .hold [0xFF] 3).bitLength < alignUp (decState .hold [0xFF] 3).bitPosition + 1 ∧
    octetAt (decState .hold [0xC1] 0).buffer 0 = some 0xC1 ∧
      (decState .hold [0xC1] 0).bitLength = alignUp (decState .hold [0xC1] 0).bitPosition + 8 :=
  by decide +kernel
theorem witness_EncCwnBandOne_a :
    Inv (encState 2 [0xE0] 3) ∧ (encState 2 [0xE0] 3).mode = .enc ∧ range 0 254 = 255 ∧
      bitsNeededForRange 255 = 8 ∧ (encState 2 [0xE0] 3).bitPosition + 8 ≤ capBits (encState 2 [0xE0] 3) :=
  ⟨inv_of_check (by decide +kernel), by decide +kernel⟩
theorem witness_EncCwnBandOne_b :
    Inv (encState 2 [0xBE, 0x00] 15) ∧ range 0 2 = 3 ∧ bitsNeededForRange 3 = 2 ∧
      capBits (encState 2 [0xBE, 0x00] 15) < (encState 2 [0xBE, 0x00] 15).bitPosition + 2 :=
  ⟨inv_of_check (by decide +kernel), by decide +kernel⟩
theorem witness_EncCwnBandsTwoAndThree :
    Inv (encState 2 [0xE0] 3) ∧ (encState 2 [0xE0] 3).mode = .enc ∧ range 0 255 = 256 ∧ range 0 65534 = 65535 ∧
    alignUp (encState 2 [0xE0] 3).bitPosition + 8 ≤ capBits (encState 2 [0xE0] 3) ∧
      capBits (encState 2 [0xE0] 3) < alignUp (encState 2 [0xE0] 3).bitPosition + 16 :=
  ⟨inv_of_check (by decide +kernel), by decide +kernel⟩
theorem witness_EncCwnBandFour_a :
    Inv (encState 3 [0xE0] 3) ∧ (encState 3 [0xE0] 3).mode = .enc ∧ range 0 65535 = 65536 ∧
      longBandOctets 255 = 2 ∧ bitsNeededForRange (bytesNeeded 65536) = 2 ∧
    alignUp ((encState 3 [0xE0] 3).bitPosition + 2) + 8 * 2 ≤ capBits (encState 3 [0xE0] 3) :=
  ⟨inv_of_check (by decide +kernel), by decide +kernel⟩
theorem witness_EncCwnBandFour_b :
    Inv (encState 2 [0xE0] 3) ∧ (encState 2 [0xE0] 3).bitPosition + 2 ≤ capBits (encState 2 [0xE0] 3) ∧
      capBits (encState 2 [0xE0] 3) < alignUp ((encState 2 [0xE0] 3).bitPosition + 2) + 8 * 2 :=
  ⟨inv_of_check (by decide +kernel), by decide +kernel⟩
theorem witness_EncCwnBandFour_c :
    Inv (encState 2 [0xBE, 0x00] 15) ∧
      capBits (encState 2 [0xBE, 0x00] 15) < (encState 2 [0xBE, 0x00] 15).bitPosition + 2 :=
  ⟨inv_of_check (by decide +kernel), by decide +kernel⟩
theorem witness_EncScwnWritesTheLeastOctets_a :
    Inv (encState 3 [0xE0] 3) ∧ (encState 3 [0xE0] 3).mode = .enc ∧ minOctets 255 = 1 ∧
      alignUp (encState 3 [0xE0] 3).bitPosition + 8 + 8 * 1 ≤ capBits (encState 3 [0xE0] 3) :=
  ⟨inv_of_check (by decide +kernel), by decide +kernel⟩
theorem witness_EncScwnWritesTheLeastOctets_b :
    Inv (encState 3 [0xE0] 3) ∧ minOctets 256 = 2 ∧
      alignUp (encState 3 [0xE0] 3).bitPosition + 8 ≤ capBits (encState 3 [0xE0] 3) ∧
    capBits (encState 3 [0xE0] 3) < alignUp (encState 3 [0xE0] 3).bitPosition + 8 + 8 * 2 :=
  ⟨inv_of_check (by decide +kernel), by decide +kernel⟩
theorem witness_EncScwnWritesTheLeastOctets_c :
    Inv (encState 2 [0xBE, 0xEF] 16) ∧
      capBits (encState 2 [0xBE, 0xEF] 16) < alignUp (encState 2 [0xBE, 0xEF] 16).bitPosition + 8 :=
  ⟨inv_of_check (by decide +kernel), by decide +kernel⟩
theorem witness_EncUwnWritesTheShortestUnsignedForm_a :
    Inv (encState 3 [0xE0] 3) ∧ (encState 3 [0xE0] 3).mode = .enc ∧ minOctets 255 = 1 ∧
      alignUp (encState 3 [0xE0] 3).bitPosition + 8 + 8 * 1 ≤ capBits (encState 3 [0xE0] 3) :=
  ⟨inv_of_check (by decide +kernel), by decide +kernel⟩
theorem witness_EncUwnWritesTheShortestUnsignedForm_b :
    Inv (encState 3 [0xE0] 3) ∧ minOctets 256 = 2 ∧
      alignUp (encState 3 [0xE0] 3).bitPosition + 8 ≤ capBits (encState 3 [0xE0] 3) ∧
    capBits (encState 3 [0xE0] 3) < alignUp (encState 3 [0xE0] 3).bitPosition + 8 + 8 * 2 :=
  ⟨inv_of_check (by decide +kernel), by decide +kernel⟩
theorem witness_EncUwnWritesTheShortestUnsignedForm_c :
    Inv (encState 2 [0xBE, 0xEF] 16) ∧
      capBits (encState 2 [0xBE, 0xEF] 16) < alignUp (encState 2 [0xBE, 0xEF] 16).bitPosition + 8 :=
  ⟨inv_of_check (by decide +kernel), by decide +kernel⟩
theorem witness_BitsNeededIsTheLeastWidth : 1 ≤ 255 ∧ 255 ≤ 2 ^ 8 := by decide
theorem witness_BytesNeededOnBandFour :
    65536 ≤ 170141183460469231731687303715884105727 ∧ 170141183460469231731687303715884105727 ≤ 2 ^ 127 - 1 :=
  by decide +kernel
/-- The encode pass of the round trips: 300 behind three bits. -/
def encPass : State := after (exec (.encUlen 300) (encState 64 [0xE0] 3))

/-- The decode pass over its octets, at the same start. -/
def decPass : State := (decState .hold [0xE0, 0xC1, 0x2C] 3)

theorem readsBack_pass : ReadsBack encPass decPass 3 :=
  ⟨rfl, rfl, by decide +kernel, by decide +kernel⟩
theorem witness_EveryEncodeIsReadBack :
    WellFormed (.encUlen 300) ∧ mirror (.encUlen 300) = some .decUlen ∧
    Inv (encState 64 [0xE0] 3) ∧ (encState 64 [0xE0] 3).mode = .enc ∧
    exec (.encUlen 300) (encState 64 [0xE0] 3) = .next encPass ∧ encPass.response = some ⟨.ok, none⟩ ∧
    ReadsBack encPass decPass (encState 64 [0xE0] 3).bitPosition :=
  ⟨rfl, rfl, inv_of_check (by decide +kernel), rfl, next_after (by decide +kernel), by decide +kernel, readsBack_pass⟩
theorem witness_WholePassIsReadBack :
    WellFormed (.encUlen 300) ∧ (mirror (.encUlen 300)).isSome = true ∧
    Inv (encState 64 [0xE0] 3) ∧ (encState 64 [0xE0] 3).mode = .enc ∧ (encState 64 [0xE0] 3).transfer = none ∧
    runOk [.encUlen 300] (encState 64 [0xE0] 3) = some ([(none, 24)], encPass) ∧
    ReadsBack encPass decPass (encState 64 [0xE0] 3).bitPosition :=
  ⟨rfl, rfl, inv_of_check (by decide +kernel), rfl, rfl, by decide +kernel, readsBack_pass⟩
theorem witness_SliceOfReadOutReadsBack :
    Inv (encState 64 [0xBE, 0xE0] 12) ∧
    memRead 0 (octets (encState 64 [0xBE, 0xE0] 12).bitLength) (encState 64 [0xBE, 0xE0] 12) = some [0xBE, 0xE0] ∧
    (noneState [0xBE, 0xE0, 0x99]).din = [0xBE, 0xE0] ++ [0x99] ∧ 2 ≤ (noneState [0xBE, 0xE0, 0x99]).capBytes ∧
    exec (.initDec 2) (noneState [0xBE, 0xE0, 0x99]) = .next (after (exec (.initDec 2) (noneState [0xBE, 0xE0,
      0x99]))) :=
  ⟨inv_of_check (by decide +kernel), by decide +kernel, rfl, by decide +kernel, next_after (by decide +kernel)⟩

end Sys2Proof.Tests
end

section
/-! SUPPORT. The command word read by its fields (30_encoding.md R51 to R57): the header's fields as numbers, what each
row of the opcode map decodes to, and which headers match no row. -/

namespace Sys2Proof.Machine

open Sys2Proof

/-! ### The fields of a header as numbers (30_encoding.md R51) -/

theorem hdrOpcode_eq (h : Header) : hdrOpcode h = h.toNat % 2 ^ 8 := by
  simp [hdrOpcode]

theorem hdrN_fits (h : Header) : FitsN (hdrN h) := BitVec.isLt _

theorem hdrZero_eq (h : Header) : hdrZero h = h.toNat / 2 ^ 17 := by
  have hlt : h.toNat < 4294967296 := h.isLt
  simp only [hdrZero, BitVec.extractLsb'_toNat, Nat.shiftRight_eq_div_pow]
  omega

theorem illegalHeader_iff (h : Header) : IllegalHeader h ↔ hdrZero h ≠ 0 ∨ UnlistedOpcode (hdrOpcode h) := by
  rw [hdrZero_eq, hdrOpcode_eq]

/-! ### The rows of the opcode map (30_encoding.md R52 to R54) -/

/-- Every operand of the instruction is the reading of the field of `c` that its format names (30_encoding.md R52,
R53). -/
def Reads (c : Command) : Instr → Prop
  | .initDec nbytes => nbytes = u128 c.a
  | .initEnc => True
  | .decBool => True
  | .decBits n => n = hdrN c.hdr
  | .decAlign => True
  | .decNslen => True
  | .decClen lb ub => lb = s128 c.a ∧ ub = s128 c.b
  | .decUlen => True
  | .decCwn lb ub => lb = s128 c.a ∧ ub = s128 c.b
  | .decScwn lb => lb = s128 c.a
  | .decUwn => True
  | .advance count f => count = u128 c.a ∧ f = hdrF c.hdr
  | .encBool f => f = hdrF c.hdr
  | .encBits n value => n = hdrN c.hdr ∧ value = u128 c.v
  | .encAlign => True
  | .encNslen value => value = u128 c.v
  | .encClen value lb ub => value = s128 c.v ∧ lb = s128 c.a ∧ ub = s128 c.b
  | .encUlen value => value = u128 c.v
  | .encCwn value lb ub => value = s128 c.v ∧ lb = s128 c.a ∧ ub = s128 c.b
  | .encScwn value lb => value = s128 c.v ∧ lb = s128 c.a
  | .encUwn value => value = u128 c.v

/-- A row yields an instruction exactly where the opcode is the instruction's and the operands are read from `c`. -/
theorem decodeRow_eq_ok {c : Command} {op : Nat} {i : Instr} :
    decodeRow c op = .ok i ↔ opcodeOf i = op ∧ Reads c i := by
  constructor
  · intro h
    unfold decodeRow at h
    split at h <;> cases h <;> simp [opcodeOf, Reads]
  · rintro ⟨rfl, h⟩
    cases i <;> simp only [Reads] at h <;> simp [opcodeOf, decodeRow, h]

/-- Only an opcode that no row has yields an error (30_encoding.md R56). -/
theorem decodeRow_eq_error {c : Command} {op : Nat} {e : DecodeError} :
    decodeRow c op = .error e ↔ UnlistedOpcode op ∧ e = .unlistedOpcode op := by
  unfold decodeRow
  split
  case h_22 =>
    have hop : UnlistedOpcode op := by
      simp only [imp_false] at *
      omega
    simp [hop, eq_comm]
  all_goals simp

/-! ### The command word -/

theorem decode_eq_ok {c : Command} {i : Instr} :
    decode c = .ok i ↔ hdrZero c.hdr = 0 ∧ opcodeOf i = hdrOpcode c.hdr ∧ Reads c i := by
  unfold decode
  split_ifs with h
  · simp [h]
  · rw [decodeRow_eq_ok]
    simp [not_not.1 h]

theorem decode_eq_error {c : Command} : (∃ e, decode c = .error e) ↔ IllegalHeader c.hdr := by
  rw [illegalHeader_iff]
  unfold decode
  split_ifs with h
  · simp [h]
  · simp [h, decodeRow_eq_error]

/-- Operands read from a command word fit their fields (30_encoding.md R51, R53). -/
theorem Reads.wellFormed {c : Command} : ∀ {i : Instr}, Reads c i → WellFormed i
  | .initDec _, rfl => decide_eq_true (u128_fits _)
  | .initEnc, _ => rfl
  | .decBool, _ => rfl
  | .decBits _, rfl => decide_eq_true (hdrN_fits _)
  | .decAlign, _ => rfl
  | .decNslen, _ => rfl
  | .decClen _ _, ⟨rfl, rfl⟩ => decide_eq_true ⟨s128_fits _, s128_fits _⟩
  | .decUlen, _ => rfl
  | .decCwn _ _, ⟨rfl, rfl⟩ => decide_eq_true ⟨s128_fits _, s128_fits _⟩
  | .decScwn _, rfl => decide_eq_true (s128_fits _)
  | .decUwn, _ => rfl
  | .advance _ _, ⟨rfl, _⟩ => decide_eq_true (u128_fits _)
  | .encBool _, _ => rfl
  | .encBits _ _, ⟨rfl, rfl⟩ => decide_eq_true ⟨hdrN_fits _, u128_fits _⟩
  | .encAlign, _ => rfl
  | .encNslen _, rfl => decide_eq_true (u128_fits _)
  | .encClen _ _ _, ⟨rfl, rfl, rfl⟩ => decide_eq_true ⟨s128_fits _, s128_fits _, s128_fits _⟩
  | .encUlen _, rfl => decide_eq_true (u128_fits _)
  | .encCwn _ _ _, ⟨rfl, rfl, rfl⟩ => decide_eq_true ⟨s128_fits _, s128_fits _, s128_fits _⟩
  | .encScwn _ _, ⟨rfl, rfl⟩ => decide_eq_true ⟨s128_fits _, s128_fits _⟩
  | .encUwn _, rfl => decide_eq_true (u128_fits _)

/-- `Reads` looks only at the fields that the instruction's format reads (30_encoding.md R57). -/
theorem Reads.congr {c c' : Command} {i : Instr} (h : Reads c i)
    (hn : (formatOf i).n = true → hdrN c'.hdr = hdrN c.hdr) (hf : (formatOf i).f = true → hdrF c'.hdr = hdrF c.hdr)
    (ha : (formatOf i).a = true → c'.a = c.a) (hb : (formatOf i).b = true → c'.b = c.b)
    (hv : (formatOf i).v = true → c'.v = c.v) : Reads c' i := by
  cases i <;> simp_all [Reads, formatOf]

end Sys2Proof.Machine
end

section
/-! SUPPORT. What a step does with a command it accepts, and what `DEC_BITS` and `ENC_BITS` do with a width above
`MAX_N` (40_bit_cursor.md R71, R74, R77; 70_reset_and_hazards.md R172). -/

namespace Sys2Proof.Machine

open Sys2Proof

/-- A command at the head of the host's list is accepted when none is in flight. -/
theorem step_command {s : State} {c : Command} {rest : List HostInput} (hq : s.hostQueue = .command c :: rest)
    (hf : inFlight s = false) : step s = runCommand c (dequeue rest s) := by
  simp [step, hostStep, hq, hf]

theorem runCommand_illegal {c : Command} (h : IllegalHeader c.hdr) (s : State) :
    runCommand c s = .next (raiseError .illegalCommand s) := by
  obtain ⟨e, he⟩ := decode_eq_error.2 h
  simp [runCommand, he]

theorem exec_decBits_tooWide {n : Nat} {s : State} (hn : 128 < n) (hm : s.mode = .dec) :
    exec (.decBits n) s = .next (raiseError .widthTooLarge s) := by
  have hread : readBits n s = .raised .widthTooLarge s := readBits_eq_raised.2 ⟨rfl, .inl ⟨hn, rfl⟩⟩
  change command .dec (fun s => (readBits n s).yieldNat) s = _
  rw [command_inMode hm, hread, yieldNat_raised, finish_raised]

theorem exec_encBits_tooWide {n value : Nat} {s : State} (hn : 128 < n) (hm : s.mode = .enc) :
    exec (.encBits n value) s = .next (raiseError .widthTooLarge s) := by
  have hwrite : writeBits n value s = .raised .widthTooLarge s := writeBits_eq_raised.2 ⟨rfl, .inl ⟨hn, rfl⟩⟩
  change command .enc (fun s => (writeBits n value s).yieldNone) s = _
  rw [command_inMode hm, hwrite, yieldNone_raised, finish_raised]

end Sys2Proof.Machine
end

section
/-! The statements of 30_encoding.md R56 and R57. -/

namespace Sys2Proof.Machine

open Sys2Proof

/-- Settles O2: the decoder reads a word through `Reads`, which looks only at the fields of the format; a width of 129
or more passes the decoder and fails the first test of `ReadBits` and `WriteBits`. -/
theorem decodeIgnoresUnreadFields : Obligations.DecodeIgnoresUnreadFields := by
  refine ⟨?_, ?_⟩
  · intro c c' i hd hop hzero hn hf ha hb hv
    obtain ⟨hz, ho, hr⟩ := decode_eq_ok.1 hd
    exact decode_eq_ok.2 ⟨hzero.trans hz, ho.trans hop.symm, hr.congr hn hf ha hb hv⟩
  · intro c s hz hwide
    refine ⟨fun hop hm => ⟨?_, exec_decBits_tooWide hwide hm⟩, fun hop hm => ⟨?_, exec_encBits_tooWide hwide hm⟩⟩
    · exact decode_eq_ok.2 ⟨hz, hop.symm, rfl⟩
    · exact decode_eq_ok.2 ⟨hz, hop.symm, rfl, rfl⟩

/-- Settles O3: the illegal headers are exactly those the decoder refuses, so any other header has an instruction, whose
operands are readings of fields and so fit them. -/
theorem illegalHeaderAnswersIllegalCommand : Obligations.IllegalHeaderAnswersIllegalCommand := by
  refine ⟨?_, ?_⟩
  · intro s c rest hq hf hill
    rw [step_command hq hf, runCommand_illegal hill]
    rfl
  · intro c hlegal
    cases hd : decode c with
    | error e => exact absurd (decode_eq_error.1 ⟨e, hd⟩) hlegal
    | ok i =>
      obtain ⟨-, hop, hr⟩ := decode_eq_ok.1 hd
      exact ⟨i, rfl, hr.wellFormed, hop.trans (hdrOpcode_eq _)⟩

end Sys2Proof.Machine
end

section
/-! SUPPORT. The width helpers fixed by the powers of two around their argument (00_scope.md R6; 41_whole_number.md R92,
R94, R103). -/

namespace Sys2Proof.Machine

open Sys2Proof

/-! ### Bit lengths and octets -/

theorem bitlen_eq_succ {x k : Nat} (hlo : 2 ^ k ≤ x) (hhi : x < 2 ^ (k + 1)) : bitlen x = k + 1 :=
  le_antisymm ((bitlen_le_iff x _).2 hhi) ((lt_bitlen_iff x k).2 hlo)

theorem octets_lt (x : Nat) : 8 * octets x < x + 8 := by unfold octets; omega

/-- `ceil(bitlen(v) / 8)` is the least number of octets that holds `v`. -/
theorem octets_bitlen_le_iff (v o : Nat) : octets (bitlen v) ≤ o ↔ v < 2 ^ (8 * o) := by
  rw [octets_le_iff, bitlen_le_iff]

theorem octets_bitlen_eq_succ {v o : Nat} (hlo : 2 ^ (8 * o) ≤ v) (hhi : v < 2 ^ (8 * (o + 1))) :
    octets (bitlen v) = o + 1 :=
  le_antisymm ((octets_bitlen_le_iff v _).2 hhi) (not_le.1 fun h => hlo.not_gt ((octets_bitlen_le_iff v o).1 h))

theorem bytesNeeded_eq_succ {r o : Nat} (hlo : 2 ^ (8 * o) ≤ r) (hhi : r < 2 ^ (8 * (o + 1))) :
    bytesNeeded r = o + 1 := octets_bitlen_eq_succ hlo hhi

theorem minOctets_le_iff {v o : Nat} (ho : 1 ≤ o) : minOctets v ≤ o ↔ v < 2 ^ (8 * o) := by
  rw [← octets_bitlen_le_iff]
  exact max_le_iff.trans (and_iff_right ho)

theorem minOctets_eq_one {v : Nat} (h : v < 2 ^ 8) : minOctets v = 1 :=
  le_antisymm ((minOctets_le_iff le_rfl).2 h) (one_le_minOctets v)

theorem minOctets_eq_succ {v o : Nat} (hlo : 2 ^ (8 * o) ≤ v) (hhi : v < 2 ^ (8 * (o + 1))) :
    minOctets v = o + 1 := by
  rw [minOctets, octets_bitlen_eq_succ hlo hhi]
  exact max_eq_right (Nat.le_add_left 1 o)

/-! ### The width table of band 1 (41_whole_number.md R92) -/

/-- Each row of the table holds the ranges from above one power of two up to the next, so that `r - 1` has the bit
length of the row. -/
theorem bitsNeeded_eq_bitlen {r : Nat} (hr : r ≤ 256) : bitsNeededForRange r = bitlen (r - 1) := by
  unfold bitsNeededForRange
  split_ifs
  case pos h => rw [Nat.sub_eq_zero_of_le h]; rfl
  all_goals exact (bitlen_eq_succ (by omega) (by omega)).symm

theorem bitsNeeded_le_iff {r : Nat} (hr : r ≤ 256) (w : Nat) : bitsNeededForRange r ≤ w ↔ r ≤ 2 ^ w := by
  have hpow : 0 < 2 ^ w := Nat.two_pow_pos w
  rw [bitsNeeded_eq_bitlen hr, bitlen_le_iff]
  omega

theorem bitsNeeded_eq_succ {r k : Nat} (hr : r ≤ 256) (hlo : 2 ^ k < r) (hhi : r ≤ 2 ^ (k + 1)) :
    bitsNeededForRange r = k + 1 :=
  le_antisymm ((bitsNeeded_le_iff hr _).2 hhi) (not_le.1 fun h => hlo.not_ge ((bitsNeeded_le_iff hr k).1 h))

end Sys2Proof.Machine
end

section
/-! The statements of 41_whole_number.md R92, R94 and R103. -/

namespace Sys2Proof.Machine

open Sys2Proof

/-- Settles O55: on band 4 the bit length is 17 to 127, and `octets` is a ceiling; each listed value lies between two
powers of 256. -/
theorem bytesNeededOnBandFour : Obligations.BytesNeededOnBandFour := by
  refine ⟨fun r hlo hhi => ?_, ?_⟩
  · have hmin : 17 ≤ bitlen r := (lt_bitlen_iff r 16).2 hlo
    have hmax : bitlen r ≤ 127 := (bitlen_le_iff r 127).2 (by omega)
    have hceil : bitlen r ≤ 8 * bytesNeeded r := le_octets _
    have htight : 8 * bytesNeeded r < bitlen r + 8 := octets_lt _
    exact ⟨hmin, hmax, hceil, htight, by omega, by omega⟩
  · refine ⟨bytesNeeded_eq_succ (o := 2) ?_ ?_, bytesNeeded_eq_succ (o := 2) ?_ ?_,
      bytesNeeded_eq_succ (o := 3) ?_ ?_, bytesNeeded_eq_succ (o := 3) ?_ ?_, bytesNeeded_eq_succ (o := 4) ?_ ?_,
      bytesNeeded_eq_succ (o := 8) ?_ ?_, bytesNeeded_eq_succ (o := 15) ?_ ?_⟩ <;> norm_num

/-- Settles O56: a count of at least one is no less than `MinOctets(v)` exactly where its bits hold `v`. -/
theorem minOctetsIsLeast : Obligations.MinOctetsIsLeast :=
  ⟨fun v => ⟨one_le_minOctets v, lt_pow_minOctets v, fun _ ho hv => (minOctets_le_iff ho).2 hv⟩,
    minOctets_eq_one (by norm_num), minOctets_eq_one (by norm_num),
    minOctets_eq_succ (o := 1) (by norm_num) (by norm_num),
    minOctets_eq_succ (o := 15) (by norm_num) (by norm_num)⟩

/-- Settles O54: the table is `bitlen(r - 1)`, hence the least width, and a least width is fixed by the two powers of
two around `r`, which gives the rows. -/
theorem bitsNeededIsTheLeastWidth : Obligations.BitsNeededIsTheLeastWidth := by
  intro r _ hmax
  have hr : r ≤ 256 := by omega
  refine ⟨bitsNeeded_eq_bitlen hr, (bitsNeeded_le_iff hr _).1 le_rfl, fun w => (bitsNeeded_le_iff hr w).2, ?_,
    fun h => bitsNeeded_eq_succ (k := 0) hr ?_ ?_, fun h => bitsNeeded_eq_succ (k := 1) hr ?_ ?_,
    fun h => bitsNeeded_eq_succ (k := 2) hr ?_ ?_, fun h => bitsNeeded_eq_succ (k := 3) hr ?_ ?_,
    fun h => bitsNeeded_eq_succ (k := 4) hr ?_ ?_, fun h => bitsNeeded_eq_succ (k := 5) hr ?_ ?_,
    fun h => bitsNeeded_eq_succ (k := 6) hr ?_ ?_, fun h => bitsNeeded_eq_succ (k := 7) hr ?_ ?_⟩
  case refine_1 => rintro rfl; rfl
  all_goals omega

end Sys2Proof.Machine
end

section
/-! SUPPORT. The prelude's mode test for every command at once (40_bit_cursor.md R77), and the bound on the status codes
(60_exceptions.md R140). -/

namespace Sys2Proof.Machine

open Sys2Proof

/-- Every command that needs a mode is the mode test around its body. -/
theorem exec_eq_command {i : Instr} {m : Mode} (h : modeNeeded i = some m) :
    ∃ body : State → Res (Option Pattern), ∀ s, exec i s = command m body s := by
  rcases instr_kinds i with hdec | henc | rfl | ⟨n, rfl⟩
  · obtain ⟨body, hbody, -⟩ := exec_dec hdec
    obtain rfl : Mode.dec = m := Option.some.inj (hdec.symm.trans h)
    exact ⟨body, hbody⟩
  · obtain ⟨body, hbody, -⟩ := exec_enc henc
    obtain rfl : Mode.enc = m := Option.some.inj (henc.symm.trans h)
    exact ⟨body, hbody⟩
  · cases h
  · cases h

theorem exec_wrongMode {i : Instr} {m : Mode} {s : State} (h : modeNeeded i = some m) (hm : s.mode ≠ m) :
    exec i s = .next (raiseError .wrongMode s) := by
  obtain ⟨body, hbody⟩ := exec_eq_command h
  rw [hbody, command_wrongMode hm]

theorem statusCode_le_nine (k : Status) : (statusCode k).toNat ≤ 9 := by
  cases k <;> decide

end Sys2Proof.Machine
end

section
/-! The statements of 60_exceptions.md R140 and R148. -/

namespace Sys2Proof.Machine

open Sys2Proof

/-- Settles O18: every command that needs a mode is the prelude around its body, and a failed mode test raises before the
body runs. -/
theorem wrongModeChangesNothing : Obligations.WrongModeChangesNothing :=
  fun _ _ _ hneed hmode => exec_wrongMode hneed hmode

/-- Settles O57: the codes are read off the table, and `statusCode_le_nine` bounds them all. -/
theorem statusCodesAreTheTable : Obligations.StatusCodesAreTheTable :=
  ⟨rfl, rfl, rfl, rfl, rfl, rfl, rfl, rfl, rfl, rfl, statusCode_le_nine⟩

end Sys2Proof.Machine
end

section
/-! SUPPORT. The command word an instruction is encoded to, read back field by field (30_encoding.md R51, R53, R59). -/

namespace Sys2Proof.Machine

open Sys2Proof

/-! ### The fields of a built header (30_encoding.md R51, R59) -/

theorem toNat_header {opcode n : Nat} {f : Bool} (ho : opcode < 2 ^ 8) (hn : n < 2 ^ 8) :
    (header opcode n f).toNat = opcode + n * 256 + f.toNat * 65536 := by
  have hf : f.toNat ≤ 1 := Bool.toNat_le f
  rw [header, BitVec.toNat_ofNat]
  exact Nat.mod_eq_of_lt (by omega)

theorem hdrN_header {opcode n : Nat} {f : Bool} (ho : opcode < 2 ^ 8) (hn : n < 2 ^ 8) :
    hdrN (header opcode n f) = n := by
  rw [hdrN, BitVec.extractLsb'_toNat, toNat_header ho hn, Nat.shiftRight_eq_div_pow]
  omega

theorem hdrF_header {opcode n : Nat} {f : Bool} (ho : opcode < 2 ^ 8) (hn : n < 2 ^ 8) :
    hdrF (header opcode n f) = f := by
  have hdiv : (opcode + n * 256 + f.toNat * 65536) / 2 ^ 16 = f.toNat := by omega
  rw [hdrF, BitVec.getLsbD, toNat_header ho hn, Nat.testBit_eq_decide_div_mod_eq, hdiv]
  cases f <;> rfl

/-! ### The encoder against the fields the decoder reads -/

/-- The header of every well-formed instruction lies in the row of its own opcode. -/
theorem encode_row (i : Instr) : Laws.EncodingRow.Statement i := by
  cases i with
  | initDec n => exact Laws.EncodingRow.initDec n
  | initEnc => exact Laws.EncodingRow.initEnc
  | decBool => exact Laws.EncodingRow.decBool
  | decBits n => exact Laws.EncodingRow.decBits n
  | decAlign => exact Laws.EncodingRow.decAlign
  | decNslen => exact Laws.EncodingRow.decNslen
  | decClen lb ub => exact Laws.EncodingRow.decClen lb ub
  | decUlen => exact Laws.EncodingRow.decUlen
  | decCwn lb ub => exact Laws.EncodingRow.decCwn lb ub
  | decScwn lb => exact Laws.EncodingRow.decScwn lb
  | decUwn => exact Laws.EncodingRow.decUwn
  | advance c f => exact Laws.EncodingRow.advance c f
  | encBool f => exact Laws.EncodingRow.encBool f
  | encBits n v => exact Laws.EncodingRow.encBits n v
  | encAlign => exact Laws.EncodingRow.encAlign
  | encNslen v => exact Laws.EncodingRow.encNslen v
  | encClen v lb ub => exact Laws.EncodingRow.encClen v lb ub
  | encUlen v => exact Laws.EncodingRow.encUlen v
  | encCwn v lb ub => exact Laws.EncodingRow.encCwn v lb ub
  | encScwn v lb => exact Laws.EncodingRow.encScwn v lb
  | encUwn v => exact Laws.EncodingRow.encUwn v

/-- Every operand of a well-formed instruction is read back from the field its command word carries it in. -/
theorem reads_encode : ∀ {i : Instr}, WellFormed i → Reads (encode i) i
  | .initDec _, h => (u128_pat (of_decide_eq_true h)).symm
  | .initEnc, _ => trivial
  | .decBool, _ => trivial
  | .decBits _, h => (hdrN_header (by decide) (of_decide_eq_true h)).symm
  | .decAlign, _ => trivial
  | .decNslen, _ => trivial
  | .decClen _ _, h => have ⟨hl, hu⟩ := of_decide_eq_true h; ⟨(s128_pat hl).symm, (s128_pat hu).symm⟩
  | .decUlen, _ => trivial
  | .decCwn _ _, h => have ⟨hl, hu⟩ := of_decide_eq_true h; ⟨(s128_pat hl).symm, (s128_pat hu).symm⟩
  | .decScwn _, h => (s128_pat (of_decide_eq_true h)).symm
  | .decUwn, _ => trivial
  | .advance _ _, h => ⟨(u128_pat (of_decide_eq_true h)).symm, (hdrF_header (by decide) (by decide)).symm⟩
  | .encBool _, _ => (hdrF_header (by decide) (by decide)).symm
  | .encBits _ _, h =>
    have ⟨hn, hv⟩ := of_decide_eq_true h; ⟨(hdrN_header (by decide) hn).symm, (u128_pat hv).symm⟩
  | .encAlign, _ => trivial
  | .encNslen _, h => (u128_pat (of_decide_eq_true h)).symm
  | .encClen _ _ _, h =>
    have ⟨hv, hl, hu⟩ := of_decide_eq_true h; ⟨(s128_pat hv).symm, (s128_pat hl).symm, (s128_pat hu).symm⟩
  | .encUlen _, h => (u128_pat (of_decide_eq_true h)).symm
  | .encCwn _ _ _, h =>
    have ⟨hv, hl, hu⟩ := of_decide_eq_true h; ⟨(s128_pat hv).symm, (s128_pat hl).symm, (s128_pat hu).symm⟩
  | .encScwn _ _, h => have ⟨hv, hl⟩ := of_decide_eq_true h; ⟨(s128_pat hv).symm, (s128_pat hl).symm⟩
  | .encUwn _, h => (u128_pat (of_decide_eq_true h)).symm

end Sys2Proof.Machine
end

section
/-! The statements of 30_encoding.md sections 2, 3 and 6, and the command words of 95_test_vectors.md. -/

namespace Sys2Proof.Machine

open Sys2Proof

/-- Settles O1: the header lies in the instruction's own row, and each operand is the reading of the field the format
names. -/
theorem decodeOfEncodeIsTheInstruction : Obligations.DecodeOfEncodeIsTheInstruction := by
  intro i hwf
  obtain ⟨hop, hzero⟩ := encode_row i hwf
  exact decode_eq_ok.2 ⟨(hdrZero_eq _).trans hzero, (hdrOpcode_eq _).symm ▸ hop.symm, reads_encode hwf⟩

/-- Settles O4: the decoder runs on each of the seven words. -/
theorem writtenOutWordsDecode : Obligations.WrittenOutWordsDecode :=
  ⟨rfl, rfl, rfl, rfl, rfl, rfl, rfl⟩

end Sys2Proof.Machine
end

section
/-! SUPPORT. What each event of a step does to the invariant (10_state.md R12, R13, R15, R22; 43_construction.md R133;
30_encoding.md R55): the passes, the slice channel, the response and `rst`, each once. -/

namespace Sys2Proof.Machine

open Sys2Proof

/-! ### Everything a command that needs a mode can do, with the shared facts about its body -/

/-- A decode command fails its mode test, or its body ends in a state `u` that differs from `s` in the cursor only. -/
theorem exec_dec_cases {i : Instr} {s t : State} (hi : modeNeeded i = some .dec) (h : exec i s = .next t) :
    ∃ u r, t = { u with response := some r } ∧ (r.status ≠ .ok → r.result = none) ∧ u = setPos u.bitPosition s ∧
      (s.bitPosition ≤ s.bitLength → Moved s u) ∧ (u = s ∨ s.mode = .dec) := by
  obtain ⟨body, hexec, honly, hmoved⟩ := exec_dec hi
  rw [hexec] at h
  rcases command_cases h with ⟨-, rfl⟩ | ⟨hm, v, u, hb, rfl⟩ | ⟨hm, k, u, hb, rfl⟩
  · exact ⟨s, ⟨.wrongMode, none⟩, rfl, fun _ => rfl, rfl, fun _ => Moved.refl s, .inl rfl⟩
  · exact ⟨u, ⟨.ok, v⟩, rfl, fun h => absurd rfl h, by simpa [hb] using honly s,
      fun hs => by simpa [hb] using hmoved s hs, .inr hm⟩
  · exact ⟨u, ⟨k, none⟩, rfl, fun _ => rfl, by simpa [hb] using honly s,
      fun hs => by simpa [hb] using hmoved s hs, .inr hm⟩

/-- An encode command fails its mode test, or its body ends in a state `u` that extends `s`. -/
theorem exec_enc_cases {i : Instr} {s t : State} (hi : modeNeeded i = some .enc) (h : exec i s = .next t) :
    ∃ u r, t = { u with response := some r } ∧ (r.status ≠ .ok → r.result = none) ∧ Extended s u ∧
      (u = s ∨ s.mode = .enc) := by
  obtain ⟨body, hexec, hext⟩ := exec_enc hi
  rw [hexec] at h
  rcases command_cases h with ⟨-, rfl⟩ | ⟨hm, v, u, hb, rfl⟩ | ⟨hm, k, u, hb, rfl⟩
  · exact ⟨s, ⟨.wrongMode, none⟩, rfl, fun _ => rfl, Extended.refl s, .inl rfl⟩
  · exact ⟨u, ⟨.ok, v⟩, rfl, fun h => absurd rfl h, by simpa [hb] using hext s, .inr hm⟩
  · exact ⟨u, ⟨k, none⟩, rfl, fun _ => rfl, by simpa [hb] using hext s, .inr hm⟩

/-- Everything an append leaves alone. -/
theorem Extended.frame {s t : State} (h : Extended s t) :
    t.capBytes = s.capBytes ∧ t.softPolicy = s.softPolicy ∧ t.mode = s.mode ∧ t.response = s.response ∧
      t.transfer = s.transfer ∧ t.din = s.din ∧ t.hostQueue = s.hostQueue := by
  rcases h.only with e | e <;> rw [e] <;> exact ⟨rfl, rfl, rfl, rfl, rfl, rfl, rfl⟩

theorem Extended.eq_appended {s t : State} (hs : EncPass s) (h : Extended s t) :
    t = appended t.buffer t.bitPosition s := by
  rcases h.only with rfl | e
  · exact congrArg (fun l => { t with bitLength := l }) hs.atEnd
  · exact e

/-! ### The invariant under each event -/

/-- A response put on a state without a transfer keeps the invariant. -/
theorem Inv.withResponse {s : State} {r : Response} (h : Inv s) (ht : s.transfer = none)
    (hr : r.status ≠ .ok → r.result = none) : Inv { s with response := some r } where
  capPositive := h.capPositive
  posLeLen := h.posLeLen
  lenLeCap := h.lenLeCap
  bufferWf := h.bufferWf
  bufferInCap := h.bufferInCap
  octetsHold := h.octetsHold
  nonePass := h.nonePass
  decOctets := h.decOctets
  encAtEnd := h.encAtEnd
  encTailZero := h.encTailZero
  transferOpen := fun t e => absurd (ht.symm.trans e) (by simp)
  noResultOnError := by
    rintro r' ⟨⟩
    exact hr

theorem Inv.dequeue {s : State} (h : Inv s) (rest : List HostInput) : Inv (dequeue rest s) := { h with }

theorem Inv.clearResponse {s : State} (h : Inv s) (ht : s.transfer = none) : Inv (clearResponse s) :=
  { h with
    transferOpen := fun t e => absurd (ht.symm.trans e) (by simp)
    noResultOnError := fun _ e => absurd e (by simp) }

theorem Inv.applyRst {s : State} (h : Inv s) : Inv (applyRst s) where
  capPositive := h.capPositive
  posLeLen := le_rfl
  lenLeCap := Nat.zero_le _
  bufferWf := .nil
  bufferInCap := fun _ _ => rfl
  octetsHold := fun k hk => absurd hk (by simp [octets])
  nonePass := fun _ => rfl
  decOctets := fun hm => absurd hm (by simp)
  encAtEnd := fun _ => rfl
  encTailZero := fun hm => absurd hm (by simp)
  transferOpen := fun _ e => absurd e (by simp)
  noResultOnError := fun _ e => absurd e (by simp)

theorem Inv.moved {s t : State} (h : Inv s) (hm : s.mode = .dec) (ht : Moved s t) : Inv t := by
  have hpos := ht.within h.posLeLen (h.decOctets hm)
  rw [ht.onlyPos]
  exact { h with posLeLen := hpos, encAtEnd := fun he => absurd (hm.symm.trans he) (by simp) }

theorem Inv.extended {s t : State} (h : Inv s) (hm : s.mode = .enc) (ht : Extended s t) : Inv t := by
  obtain ⟨hcap, -, hmode, hresp, htrans, -, -⟩ := ht.frame
  have hp := ht.encPass (h.encPass hm)
  rw [hm] at hmode
  exact
    { capPositive := hcap ▸ h.capPositive
      posLeLen := hp.atEnd.ge
      lenLeCap := hp.lenLeCap
      bufferWf := hp.wf
      bufferInCap := hp.inCap
      octetsHold := hp.hold
      nonePass := fun e => absurd (hmode.symm.trans e) (by simp)
      decOctets := fun e => absurd (hmode.symm.trans e) (by simp)
      encAtEnd := fun _ => hp.atEnd
      encTailZero := fun _ => hp.tailZero
      transferOpen := by rw [hcap, hresp, htrans]; exact h.transferOpen
      noResultOnError := by rw [hresp]; exact h.noResultOnError }

/-- The slice channel keeps the invariant, while it waits and when it loads (43_construction.md R130, R133). -/
theorem Inv.receiveSlice {s : State} {n : Nat} {taken : List Octet} (h : Inv s) (hn : n ≤ s.capBytes)
    (ht : taken.length ≤ n) (hr : s.response = none) : Inv (receiveSlice n taken s) := by
  by_cases hshort : (taken ++ s.din.take (n - taken.length)).length < n
  · rw [receiveSlice_short hshort]
    exact { h with
      transferOpen := by
        rintro t ⟨⟩
        exact ⟨hn, hshort, hr⟩ }
  · have hlen : (taken ++ s.din.take (n - taken.length)).length = n := by
      simp only [List.length_append, List.length_take] at hshort ⊢
      omega
    rw [receiveSlice_whole hshort]
    generalize taken ++ s.din.take (n - taken.length) = got at hlen
    have hocts : octets (8 * n) = n := by unfold octets; omega
    exact
      { capPositive := h.capPositive
        posLeLen := Nat.zero_le _
        lenLeCap := Nat.mul_le_mul_left 8 hn
        bufferWf := loadSlice_wf h.bufferWf _ _
        bufferInCap := by
          intro k (hk : s.capBytes ≤ k)
          change octetAt (loadSlice s.buffer 0 got) k = none
          rw [octetAt_loadSlice, if_neg (by omega)]
          exact h.bufferInCap k hk
        octetsHold := by
          intro k (hk : k < octets (8 * n))
          change (octetAt (loadSlice s.buffer 0 got) k).isSome = true
          rw [octetAt_loadSlice, if_pos (by omega), List.getElem?_eq_getElem (by omega)]
          rfl
        nonePass := fun e => absurd e (by simp)
        decOctets := fun _ => Nat.mul_mod_right 8 n
        encAtEnd := fun e => absurd e (by simp)
        encTailZero := fun e => absurd e (by simp)
        transferOpen := fun _ e => absurd e (by simp)
        noResultOnError := by
          rintro r ⟨⟩ hne
          exact absurd rfl hne }

/-- An `INIT_DEC` in flight keeps the invariant while it goes on with its slice. -/
theorem Inv.proceed {s : State} (h : Inv s) : Inv (proceed s) := by
  unfold Machine.proceed
  cases ht : s.transfer with
  | none => exact h
  | some t =>
    obtain ⟨hn, htaken, hr⟩ := h.transferOpen t ht
    exact h.receiveSlice hn htaken.le hr

/-- A command that needs a mode keeps the invariant, also where an older response stands. -/
theorem Inv.exec_needsMode {i : Instr} {s t : State} (h : Inv s) (ht : s.transfer = none) (hi : modeNeeded i ≠ none)
    (he : exec i s = .next t) : Inv t := by
  rcases instr_kinds i with hdec | henc | rfl | ⟨n, rfl⟩
  · obtain ⟨u, r, rfl, hr, honly, hmoved, hmode⟩ := exec_dec_cases hdec he
    have hu : Inv u := hmode.elim (fun e => e ▸ h) fun hm => h.moved hm (hmoved h.posLeLen)
    exact hu.withResponse (by rw [honly]; exact ht) hr
  · obtain ⟨u, r, rfl, hr, hext, hmode⟩ := exec_enc_cases henc he
    have hu : Inv u := hmode.elim (fun e => e ▸ h) fun hm => h.extended hm hext
    obtain ⟨-, -, -, -, htrans, -, -⟩ := hext.frame
    exact hu.withResponse (htrans.trans ht) hr
  · exact absurd rfl hi
  · exact absurd rfl hi

/-- Every accepted command keeps the invariant (70_reset_and_hazards.md R172: none is in flight). -/
theorem Inv.exec {i : Instr} {s t : State} (h : Inv s) (ht : s.transfer = none) (hr : s.response = none)
    (he : exec i s = .next t) : Inv t := by
  rcases instr_kinds i with hdec | henc | rfl | ⟨n, rfl⟩
  · exact h.exec_needsMode ht (by simp [hdec]) he
  · exact h.exec_needsMode ht (by simp [henc]) he
  · cases he
    have hempty : Inv { s with bitLength := 0, bitPosition := 0, mode := .enc } :=
      { h with
        posLeLen := le_rfl
        lenLeCap := Nat.zero_le _
        octetsHold := fun k hk => absurd hk (by simp [octets])
        nonePass := fun e => absurd e (by simp)
        decOctets := fun e => absurd e (by simp)
        encAtEnd := fun _ => rfl
        encTailZero := fun _ i _ hi => absurd hi (by simp [alignUp, octets]) }
    exact hempty.withResponse ht fun hne => absurd rfl hne
  · change execInitDec n s = _ at he
    unfold execInitDec at he
    split_ifs at he with hcap
    · cases he
      exact h.withResponse ht fun _ => rfl
    · cases he
      exact h.receiveSlice (by omega) (Nat.zero_le _) hr

/-! ### The step, one case for each head of the host's list -/

theorem inFlight_eq_false {s : State} : inFlight s = false ↔ s.transfer = none ∧ s.response = none := by
  simp [inFlight]

/-- Everything a step can do. -/
theorem step_cases (s : State) :
    (step s = .next (proceed s) ∧ s.hostQueue.head? ≠ some .rst) ∨
    (∃ rest, s.hostQueue = .rst :: rest ∧ step s = .next (applyRst (dequeue rest s))) ∨
    (∃ rest, s.hostQueue = .takeResponse :: rest ∧ s.transfer = none ∧
      step s = .next (clearResponse (dequeue rest s))) ∨
    (∃ c rest, s.hostQueue = .command c :: rest ∧ inFlight s = false ∧ step s = runCommand c (dequeue rest s)) := by
  cases hq : s.hostQueue with
  | nil => exact .inl ⟨by simp [step, hostStep, hq], by simp⟩
  | cons input rest =>
    cases input with
    | rst => exact .inr (.inl ⟨rest, rfl, by simp [step, hostStep, hq]⟩)
    | takeResponse =>
      cases ht : s.transfer with
      | none => exact .inr (.inr (.inl ⟨rest, rfl, rfl, by simp [step, hostStep, hq, ht]⟩))
      | some t => exact .inl ⟨by simp [step, hostStep, hq, ht], by simp⟩
    | command c =>
      cases hf : inFlight s with
      | false => exact .inr (.inr (.inr ⟨c, rest, rfl, rfl, step_command hq hf⟩))
      | true => exact .inl ⟨by simp [step, hostStep, hq, hf], by simp⟩

/-- A command word is decoded and run, or answers `IllegalCommand`. -/
theorem runCommand_cases (c : Command) (s : State) :
    (∃ i, decode c = .ok i ∧ runCommand c s = exec i s) ∨ runCommand c s = .next (raiseError .illegalCommand s) := by
  unfold runCommand
  cases decode c with
  | ok i => exact .inl ⟨i, rfl, rfl⟩
  | error e => exact .inr rfl

theorem Inv.runCommand {c : Command} {s t : State} (h : Inv s) (ht : s.transfer = none) (hr : s.response = none)
    (he : runCommand c s = .next t) : Inv t := by
  rcases runCommand_cases c s with ⟨i, -, hrun⟩ | hrun
  · exact h.exec ht hr (hrun ▸ he)
  · cases hrun.symm.trans he
    exact h.withResponse ht fun _ => rfl

/-! ### No command stops -/

theorem finish_of_obeys {G : Prop} {P : State → Prop} {r : Res (Option Pattern)} (h : r.Obeys G P) (hG : G) :
    ∃ (u : State) (x : Response), finish r = .next { u with response := some x } := by
  cases r with
  | done v u => exact ⟨u, ⟨.ok, v⟩, rfl⟩
  | raised k u => exact ⟨u, ⟨k, none⟩, rfl⟩
  | stuck e => exact absurd hG h

theorem command_answers {need : Mode} {body : State → Res (Option Pattern)} {P : State → Prop} {s : State}
    (h : s.mode = need → (body s).Obeys True P) :
    ∃ (u : State) (x : Response), command need body s = .next { u with response := some x } := by
  by_cases hm : s.mode = need
  · rw [command_inMode hm]
    exact finish_of_obeys (h hm) trivial
  · exact ⟨s, ⟨.wrongMode, none⟩, command_wrongMode hm⟩

/-- In a state that meets the invariant every command that needs a mode answers. -/
theorem Inv.exec_answers {i : Instr} {s : State} (h : Inv s) (hi : modeNeeded i ≠ none) :
    ∃ (u : State) (x : Response), Machine.exec i s = .next { u with response := some x } := by
  rcases instr_kinds i with hdec | henc | rfl | ⟨n, rfl⟩
  · obtain ⟨body, hexec, -, hmoved⟩ := exec_dec hdec
    rw [hexec]
    exact command_answers fun hm => (hmoved s h.posLeLen).mono (fun _ => h.decPass hm) fun _ h => h
  · obtain ⟨body, hexec, hext⟩ := exec_enc henc
    rw [hexec]
    exact command_answers fun hm => (hext s).mono (fun _ => h.encPass hm) fun _ h => h
  · exact absurd rfl hi
  · exact absurd rfl hi

/-- Everything `INIT_DEC` can do: refuse a slice longer than the buffer, wait for octets, or load the slice. -/
theorem exec_initDec_cases (n : Nat) (s : State) :
    (s.capBytes < n ∧ exec (.initDec n) s = .next (raiseError .outOfBits s)) ∨
    (n ≤ s.capBytes ∧ s.din.length < n ∧
      exec (.initDec n) s = .next { s with din := [], transfer := some ⟨n, s.din⟩ }) ∨
    (n ≤ s.capBytes ∧ n ≤ s.din.length ∧
      exec (.initDec n) s = .next (endOk none
        { s with
          din := s.din.drop n, transfer := none, buffer := loadSlice s.buffer 0 (s.din.take n)
          bitLength := 8 * n, bitPosition := 0, mode := .dec })) := by
  change _ ∧ execInitDec n s = _ ∨ _ ∧ _ ∧ execInitDec n s = _ ∨ _ ∧ _ ∧ execInitDec n s = _
  unfold execInitDec
  split_ifs with hcap
  · exact .inl ⟨hcap, rfl⟩
  · by_cases hd : s.din.length < n
    · refine .inr (.inl ⟨by omega, hd, ?_⟩)
      rw [receiveSlice_short (by simp; omega)]
      simp [hd.le]
    · refine .inr (.inr ⟨by omega, by omega, ?_⟩)
      rw [receiveSlice_whole (by simp; omega)]
      simp

theorem Inv.exec_next {i : Instr} {s : State} (h : Inv s) :
    ∃ t, Machine.exec i s = .next t ∧
      (t.response.isSome = true ∨
        ∃ n, i = .initDec n ∧ n ≤ s.capBytes ∧ s.din.length < n ∧ t.transfer = some ⟨n, s.din⟩) := by
  rcases instr_kinds i with hdec | henc | rfl | ⟨n, rfl⟩
  · obtain ⟨u, x, he⟩ := h.exec_answers (i := i) (by simp [hdec])
    exact ⟨_, he, .inl rfl⟩
  · obtain ⟨u, x, he⟩ := h.exec_answers (i := i) (by simp [henc])
    exact ⟨_, he, .inl rfl⟩
  · exact ⟨_, rfl, .inl rfl⟩
  · rcases exec_initDec_cases n s with ⟨-, he⟩ | ⟨hcap, hd, he⟩ | ⟨-, -, he⟩
    · exact ⟨_, he, .inl rfl⟩
    · exact ⟨_, he, .inr ⟨n, rfl, hcap, hd, rfl⟩⟩
    · exact ⟨_, he, .inl rfl⟩

end Sys2Proof.Machine
end

section
/-! The statements on invariants, frames, the step and the host, with the frame lemmas they share (10_state.md;
20_memory.md; 30_encoding.md section 1; 60_exceptions.md R159; 70_reset_and_hazards.md). -/

namespace Sys2Proof.Machine

open Sys2Proof

/-! ### The invariant -/

/-- Settles O9: at reset there is no pass, no octet and nothing in flight, as after `rst`. -/
theorem resetMeetsInv : Obligations.ResetMeetsInv where
  capPositive := Nat.le_add_left 1 _
  posLeLen := le_rfl
  lenLeCap := Nat.zero_le _
  bufferWf := .nil
  bufferInCap := fun _ _ => rfl
  octetsHold := fun _ hk => absurd hk (by simp [State.reset, octets])
  nonePass := fun _ => rfl
  decOctets := fun hm => absurd hm (by simp [State.reset])
  encAtEnd := fun _ => rfl
  encTailZero := fun hm => absurd hm (by simp [State.reset])
  transferOpen := fun _ e => absurd e (by simp [State.reset])
  noResultOnError := fun _ e => absurd e (by simp [State.reset])

/-- Settles O10: each of the four things a step can do keeps the invariant. -/
theorem stepKeepsInv : Obligations.StepKeepsInv := by
  intro s t h hstep
  rcases step_cases s with ⟨e, -⟩ | ⟨rest, -, e⟩ | ⟨rest, -, ht, e⟩ | ⟨c, rest, -, hf, e⟩
  · cases hstep.symm.trans e
    exact h.proceed
  · cases hstep.symm.trans e
    exact (h.dequeue rest).applyRst
  · cases hstep.symm.trans e
    exact (h.dequeue rest).clearResponse ht
  · obtain ⟨ht, hr⟩ := inFlight_eq_false.1 hf
    exact (h.dequeue rest).runCommand ht hr (e.symm.trans hstep)

/-- Settles O11: the only fault is a read or write of an octet without a value, and a sound pass meets none. -/
theorem noCommandStopsTheBlock : Obligations.NoCommandStopsTheBlock := by
  refine ⟨fun s h => ?_, fun i s h _ _ => h.exec_next⟩
  rcases step_cases s with ⟨e, -⟩ | ⟨rest, -, e⟩ | ⟨rest, -, -, e⟩ | ⟨c, rest, -, -, e⟩
  · exact ⟨_, e⟩
  · exact ⟨_, e⟩
  · exact ⟨_, e⟩
  · rw [e]
    rcases runCommand_cases c (dequeue rest s) with ⟨i, -, hrun⟩ | hrun
    · obtain ⟨t, he, -⟩ := (h.dequeue rest).exec_next (i := i)
      exact ⟨t, hrun.trans he⟩
    · exact ⟨_, hrun⟩

/-- Settles O12: `POS_W` is the bit length of `CAP_BITS`, the least width that holds it. -/
theorem cursorFitsPosWBits : Obligations.CursorFitsPosWBits := by
  intro s h
  have hcap : capBits s < 2 ^ posW s := lt_pow_bitlen _
  have hlen : s.bitLength < 2 ^ posW s := h.lenLeCap.trans_lt hcap
  exact ⟨h.posLeLen.trans_lt hlen, hlen, fun w => (bitlen_le_iff _ w).2⟩

/-! ### What a step leaves alone -/

/-- Settles O13: a decode body only moves forward, and an encode body only appends. -/
theorem positionNeverFallsWithinAPass : Obligations.PositionNeverFallsWithinAPass := by
  intro i s t hi hpos he
  rcases instr_kinds i with hdec | henc | rfl | ⟨n, rfl⟩
  · obtain ⟨u, r, rfl, -, -, hmoved, -⟩ := exec_dec_cases hdec he
    exact (hmoved hpos).forward
  · obtain ⟨u, r, rfl, -, hext, -⟩ := exec_enc_cases henc he
    exact hext.forward
  · exact absurd rfl hi
  · exact absurd rfl hi

/-- Settles O16: a decode body gives back its state with another cursor, in every state. -/
theorem decodeCommandsChangeOnlyTheCursor : Obligations.DecodeCommandsChangeOnlyTheCursor := by
  intro i s t hi he
  obtain ⟨u, r, rfl, -, honly, -, -⟩ := exec_dec_cases hi he
  rw [honly]
  rfl

/-- Settles O17: an encode body extends its pass, and the pass it extends to is sound. -/
theorem encodeCommandsOnlyAppend : Obligations.EncodeCommandsOnlyAppend := by
  intro i s t hi h hm he
  obtain ⟨u, r, rfl, -, hext, -⟩ := exec_enc_cases hi he
  have hs := h.encPass hm
  have hu := hext.encPass hs
  have hforward := hext.forward
  have hbelow : ∀ k, k < s.bitPosition / 8 → k < octets s.bitPosition := fun k hk => by unfold octets; omega
  refine ⟨?_, hforward, fun j hj => hext.keepsBits hs j (hs.atEnd ▸ hj),
    fun k hk => hext.keepsOctets hs k (.inl hk) (.inl (hbelow k hk)), fun j h1 h2 => ?_,
    fun k hk => hext.keepsOctets hs k (.inr hk) (.inr hk)⟩
  · exact congrArg (fun v : State => { v with response := some r }) (hext.eq_appended hs)
  · exact hu.tailZero j (hu.atEnd.trans_le h1) (hu.atEnd ▸ h2)

/-- The mode, the parameters and `din` after a command that needs a mode are those before it. -/
theorem exec_needsMode_frame {i : Instr} {s t : State} (hi : modeNeeded i ≠ none) (he : exec i s = .next t) :
    t.mode = s.mode ∧ t.capBytes = s.capBytes ∧ t.softPolicy = s.softPolicy ∧ t.hostQueue = s.hostQueue ∧
      t.din = s.din := by
  rcases instr_kinds i with hdec | henc | rfl | ⟨n, rfl⟩
  · rw [decodeCommandsChangeOnlyTheCursor i s t hdec he]
    exact ⟨rfl, rfl, rfl, rfl, rfl⟩
  · obtain ⟨u, r, rfl, -, hext, -⟩ := exec_enc_cases henc he
    obtain ⟨hcap, hpol, hmode, -, -, hdin, hq⟩ := hext.frame
    exact ⟨hmode, hcap, hpol, hq, hdin⟩
  · exact absurd rfl hi
  · exact absurd rfl hi

/-- What any command leaves alone, and what it takes from `din`. -/
theorem exec_frame {i : Instr} {s t : State} (he : exec i s = .next t) :
    t.capBytes = s.capBytes ∧ t.softPolicy = s.softPolicy ∧ t.hostQueue = s.hostQueue ∧
      (t.din = s.din ∨ ∃ n, i = .initDec n ∧ n ≤ s.capBytes ∧ t.din = s.din.drop n) := by
  by_cases hi : modeNeeded i = none
  · rcases instr_kinds i with hdec | henc | rfl | ⟨n, rfl⟩
    · simp [hdec] at hi
    · simp [henc] at hi
    · cases he
      exact ⟨rfl, rfl, rfl, .inl rfl⟩
    · rcases exec_initDec_cases n s with ⟨-, e⟩ | ⟨hcap, hd, e⟩ | ⟨hcap, -, e⟩ <;> cases he.symm.trans e
      · exact ⟨rfl, rfl, rfl, .inl rfl⟩
      · exact ⟨rfl, rfl, rfl, .inr ⟨n, rfl, hcap, (List.drop_eq_nil_of_le hd.le).symm⟩⟩
      · exact ⟨rfl, rfl, rfl, .inr ⟨n, rfl, hcap, rfl⟩⟩
  · obtain ⟨-, hcap, hpol, hq, hdin⟩ := exec_needsMode_frame hi he
    exact ⟨hcap, hpol, hq, .inl hdin⟩

/-- A slice channel changes the mode only when it loads, and then the response is `OK`. -/
theorem receiveSlice_frame (n : Nat) (taken : List Octet) (s : State) :
    (receiveSlice n taken s).capBytes = s.capBytes ∧ (receiveSlice n taken s).softPolicy = s.softPolicy ∧
      ((receiveSlice n taken s).mode = s.mode ∨
        (receiveSlice n taken s).mode = .dec ∧ (receiveSlice n taken s).response = some ⟨.ok, none⟩) := by
  unfold receiveSlice
  dsimp only
  split_ifs
  · exact ⟨rfl, rfl, .inl rfl⟩
  · exact ⟨rfl, rfl, .inr ⟨rfl, rfl⟩⟩

/-- A block without a new command keeps its parameters, and only an `INIT_DEC` in flight changes the mode. -/
theorem proceed_frame (s : State) :
    (proceed s).capBytes = s.capBytes ∧ (proceed s).softPolicy = s.softPolicy ∧
      ((proceed s).mode = s.mode ∨
        s.transfer.isSome = true ∧ (proceed s).mode = .dec ∧ (proceed s).response = some ⟨.ok, none⟩) := by
  unfold proceed
  cases s.transfer with
  | none => exact ⟨rfl, rfl, .inl rfl⟩
  | some t =>
    obtain ⟨hcap, hpol, hmode⟩ := receiveSlice_frame t.nbytes t.taken s
    exact ⟨hcap, hpol, hmode.imp_right fun h => ⟨rfl, h⟩⟩

/-- Settles O14: only `rst`, `INIT_ENC` and a slice that is whole write the mode. -/
theorem modeChangesOnlyAtConstruction : Obligations.ModeChangesOnlyAtConstruction := by
  intro s t hstep hne
  rcases step_cases s with ⟨e, -⟩ | ⟨rest, hq, e⟩ | ⟨rest, -, -, e⟩ | ⟨c, rest, hq, -, e⟩
  · cases hstep.symm.trans e
    obtain ⟨-, -, hmode | ⟨ht, hdec, hr⟩⟩ := proceed_frame s
    · exact absurd hmode hne
    · exact .inr (.inr ⟨hdec, hr, .inl ht⟩)
  · cases hstep.symm.trans e
    exact .inl ⟨rfl, by rw [hq]; rfl⟩
  · cases hstep.symm.trans e
    exact absurd rfl hne
  · have hhead : s.hostQueue.head? = some (.command c) := by rw [hq]; rfl
    rcases runCommand_cases c (dequeue rest s) with ⟨i, hd, hrun⟩ | hrun
    · have he : exec i (dequeue rest s) = .next t := hrun.symm.trans (e.symm.trans hstep)
      rcases instr_kinds i with hdec | henc | rfl | ⟨n, rfl⟩
      · exact absurd (exec_needsMode_frame (by simp [hdec]) he).1 hne
      · exact absurd (exec_needsMode_frame (by simp [henc]) he).1 hne
      · cases he
        exact .inr (.inl ⟨rfl, c, hhead, hd⟩)
      · rcases exec_initDec_cases n (dequeue rest s) with ⟨-, e'⟩ | ⟨-, -, e'⟩ | ⟨-, -, e'⟩ <;> cases he.symm.trans e'
        · exact absurd rfl hne
        · exact absurd rfl hne
        · exact .inr (.inr ⟨rfl, rfl, .inr ⟨c, n, hhead, hd⟩⟩)
    · cases (e.symm.trans hstep).symm.trans hrun
      exact absurd rfl hne

/-- Settles O15: no event writes a parameter, and a command takes octets only through the slice channel. -/
theorem parametersAndSliceChannelFrame : Obligations.ParametersAndSliceChannelFrame := by
  refine ⟨fun s t hstep => ?_, fun i s t he => ?_⟩
  · rcases step_cases s with ⟨e, -⟩ | ⟨rest, -, e⟩ | ⟨rest, -, -, e⟩ | ⟨c, rest, -, -, e⟩
    · cases hstep.symm.trans e
      obtain ⟨hcap, hpol, -⟩ := proceed_frame s
      exact ⟨hcap, hpol⟩
    · cases hstep.symm.trans e
      exact ⟨rfl, rfl⟩
    · cases hstep.symm.trans e
      exact ⟨rfl, rfl⟩
    · rcases runCommand_cases c (dequeue rest s) with ⟨i, -, hrun⟩ | hrun
      · obtain ⟨hcap, hpol, -, -⟩ := exec_frame (hrun.symm.trans (e.symm.trans hstep))
        exact ⟨hcap, hpol⟩
      · cases (e.symm.trans hstep).symm.trans hrun
        exact ⟨rfl, rfl⟩
  · obtain ⟨-, -, hq, hdin⟩ := exec_frame he
    exact ⟨hq, hdin⟩

/-! ### The step and the host -/

/-- Settles O5: an accepted command is decoded and run on the state without its entry. -/
theorem stepRunsDecodedCommand : Obligations.StepRunsDecodedCommand := by
  intro s c rest i hq hf hd
  rw [step_command hq hf, runCommand, hd]
  rfl

/-- Settles O6: with a response pending and no transfer, `proceed` is the identity and only `takeResponse` acts. -/
theorem responseWaitsForTheHost : Obligations.ResponseWaitsForTheHost := by
  intro s r hr ht
  have hidle : proceed s = s := by simp [proceed, ht]
  refine ⟨fun hq => ?_, fun c rest hq => ?_, fun rest hq => ?_⟩
  · simp [step, hostStep, hq, hidle]
  · simp [step, hostStep, hq, inFlight, hr, hidle]
  · simp [step, hostStep, hq, ht, clearResponse, dequeue]

/-- Settles O7: `rst` acts at once, whatever is in flight. -/
theorem rstLeavesNoPassAndNothingInFlight : Obligations.RstLeavesNoPassAndNothingInFlight := by
  intro s rest hq
  exact ⟨applyRst (dequeue rest s), by simp [step, hostStep, hq], rfl, rfl, rfl, rfl, fun _ => rfl, rfl, rfl, rfl, rfl⟩

/-- Settles O8: the fields of the reset state. -/
theorem resetHasNoPass : Obligations.ResetHasNoPass :=
  ⟨rfl, rfl, rfl, rfl, rfl, fun _ => rfl⟩

end Sys2Proof.Machine
end

section
/-! The statements on construction and read-out, with what a list of octets read out is (43_construction.md; 10_state.md
section 2). -/

namespace Sys2Proof.Machine

open Sys2Proof

/-! ### Construction -/

/-- Settles O25: with its octets there `INIT_DEC` loads them, and a load touches the slice's octets only. -/
theorem initDecLoadsTheSlice : Obligations.InitDecLoadsTheSlice := by
  intro n s hcap hdin
  have hlen : (s.din.take n).length = n := List.length_take_of_le hdin
  refine ⟨loadSlice s.buffer 0 (s.din.take n), ?_, fun k hk => ?_, fun k hk => ?_, fun hw => loadSlice_wf hw _ _⟩
  · rcases exec_initDec_cases n s with ⟨h, -⟩ | ⟨-, h, -⟩ | ⟨-, -, e⟩
    · omega
    · omega
    · exact e
  · rw [octetAt_loadSlice, if_pos (by omega)]
    exact List.getElem?_take_of_lt hk
  · rw [octetAt_loadSlice, if_neg (by omega)]

/-- Settles O26: the capacity test comes before any octet is taken. -/
theorem initDecRefusesALongSlice : Obligations.InitDecRefusesALongSlice := by
  intro n s hcap
  rcases exec_initDec_cases n s with ⟨-, e⟩ | ⟨h, -⟩ | ⟨h, -⟩
  · exact e
  · omega
  · omega

/-- The octets an `INIT_DEC` already took, and those it takes now, are those it takes at once from both. -/
theorem receiveSlice_resumed {n : Nat} {taken : List Octet} (s : State) (more : List Octet) (h : taken.length ≤ n) :
    receiveSlice n taken { s with din := more } = receiveSlice n [] { s with din := taken ++ more } := by
  have htake : (taken ++ more).take n = taken ++ more.take (n - taken.length) := by
    rw [List.take_append, List.take_of_length_le h]
  have hdrop : (taken ++ more).drop n = more.drop (n - taken.length) := by
    rw [List.drop_append, List.drop_eq_nil_of_le h, List.nil_append]
  simp [receiveSlice, htake, hdrop]

/-- Settles O27: the transfer holds what `din` held, and each later step resumes it. -/
theorem initDecWaitsForItsSlice : Obligations.InitDecWaitsForItsSlice := by
  intro n s hcap hdin
  refine ⟨?_, fun hhead more => ?_⟩
  · rcases exec_initDec_cases n s with ⟨h, -⟩ | ⟨-, -, e⟩ | ⟨-, h, -⟩
    · omega
    · exact e
    · omega
  · have hstep : step { s with din := more, transfer := some ⟨n, s.din⟩ } =
        .next (proceed { s with din := more, transfer := some ⟨n, s.din⟩ }) := by
      rcases step_cases { s with din := more, transfer := some ⟨n, s.din⟩ } with
        ⟨e, -⟩ | ⟨rest, hq, -⟩ | ⟨rest, -, ht, -⟩ | ⟨c, rest, -, hf, -⟩
      · exact e
      · exact absurd (congrArg List.head? hq) hhead
      · cases ht
      · cases hf
    have hexec : exec (.initDec n) { s with din := s.din ++ more, transfer := some ⟨n, s.din⟩ } =
        .next (receiveSlice n [] { s with din := s.din ++ more, transfer := some ⟨n, s.din⟩ }) := if_neg (by simpa)
    rw [hstep, hexec]
    exact congrArg _ (receiveSlice_resumed { s with transfer := some ⟨n, s.din⟩ } more hdin.le)

/-- Settles O28: `INIT_ENC` has no mode test and no other branch. -/
theorem initEncStartsAnEmptyPass : Obligations.InitEncStartsAnEmptyPass :=
  fun _ => rfl

/-! ### Read-out and outputs -/

/-- The octets read out are those of the buffer, in order. -/
theorem octetsFrom_eq_some {m : Memory} {n : Nat} : ∀ {k : Nat} {os : List Octet}, octetsFrom m k n = some os →
    os.length = n ∧ ∀ j, j < n → os[j]? = octetAt m (k + j) := by
  induction n with
  | zero =>
    rintro k os ⟨⟩
    exact ⟨rfl, fun j hj => absurd hj (Nat.not_lt_zero j)⟩
  | succ n ih =>
    intro k os h
    rw [octetsFrom] at h
    split at h
    · rename_i o os' ho hrest
      cases h
      obtain ⟨hlen, hoct⟩ := ih hrest
      refine ⟨congrArg (· + 1) hlen, fun j hj => ?_⟩
      cases j with
      | zero => exact ho.symm
      | succ j =>
        have hshift : k + (j + 1) = k + 1 + j := by omega
        rw [List.getElem?_cons_succ, hoct j (by omega), hshift]
    · cases h

theorem octetsFrom_isSome {m : Memory} {n : Nat} : ∀ {k : Nat},
    (∀ j, j < n → (octetAt m (k + j)).isSome = true) → ∃ os, octetsFrom m k n = some os := by
  induction n with
  | zero => exact fun _ => ⟨[], rfl⟩
  | succ n ih =>
    intro k h
    obtain ⟨o, ho⟩ := Option.isSome_iff_exists.1 (h 0 (by omega))
    obtain ⟨os, hos⟩ := ih (k := k + 1) fun j hj => by
      have hshift : k + 1 + j = k + (j + 1) := by omega
      rw [hshift]
      exact h (j + 1) (by omega)
    exact ⟨o :: os, by rw [octetsFrom, hos]; simp only [Nat.add_zero] at ho; rw [ho]⟩

/-- Settles O29: below `ceil(bit_length / 8)` every octet holds a value, and the port gives no other. -/
theorem readOutGivesTheOctetsInUse : Obligations.ReadOutGivesTheOctetsInUse := by
  intro s addr n h
  refine ⟨fun hf hin => ?_, fun hout => if_neg (by omega), fun hf => if_neg (by simp [hf]),
    fun hm i h1 h2 => h.encTailZero hm i h1 h2⟩
  obtain ⟨os, hos⟩ := octetsFrom_isSome (m := s.buffer) (k := addr) (n := n) fun j hj =>
    h.octetsHold (addr + j) (by omega)
  obtain ⟨hlen, hoct⟩ := octetsFrom_eq_some hos
  exact ⟨os, (if_pos ⟨hf, hin⟩).trans hos, hlen, hoct⟩

/-- Settles O30: the cursor and the length fit their `POS_W` bits, and only an `OK` response carries a result. -/
theorem statusOutputsShowTheState : Obligations.StatusOutputsShowTheState := by
  intro s h
  obtain ⟨hpos, hlen, -⟩ := cursorFitsPosWBits s h
  refine ⟨fun hf => ?_, fun hf => ?_, rspPort_of_none, fun ht => ?_, fun x hx => rspPort_of_some hx,
    fun k x hx hk => ?_⟩
  · simp [stMode, stPos, stLen, hf, Nat.mod_eq_of_lt hpos, Nat.mod_eq_of_lt hlen]
  · simp [stMode, stPos, stLen, hf]
  · obtain ⟨t, ht⟩ := Option.isSome_iff_exists.1 ht
    obtain ⟨-, -, hr⟩ := h.transferOpen t ht
    exact rspPort_of_none hr
  · obtain rfl : x = none := h.noResultOnError _ hx hk
    exact rspPort_of_some hx

end Sys2Proof.Machine
end

section
/-! SUPPORT. Every command that needs a mode by its body, and what a command answers by how its body ends
(40_bit_cursor.md R77, 30_encoding.md R55). -/

namespace Sys2Proof.Machine

open Sys2Proof

/-- The body behind the mode test of each command (30_encoding.md R54); a construction has no mode test, and nothing is
said here of it. -/
def commandBody : Instr → State → Res (Option Pattern)
  | .initDec _, s => .done none s
  | .initEnc, s => .done none s
  | .decBool, s => ((readBit s).bind fun b s => .done b.toNat s).yieldNat
  | .decBits n, s => (readBits n s).yieldNat
  | .decAlign, s => .done none (align s)
  | .decNslen, s => (decNslen s).yieldNat
  | .decClen lb ub, s => (decClen lb ub s).yieldInt
  | .decUlen, s => (decUlen s).yieldNat
  | .decCwn lb ub, s => (decCwn lb ub s).yieldInt
  | .decScwn lb, s => (decScwn lb s).yieldInt
  | .decUwn, s => (readCountedOctets s).yieldNat
  | .advance count f, s => (advanceBody count f s).yieldNone
  | .encBool f, s => (writeBit f s).yieldNone
  | .encBits n value, s => (writeBits n value s).yieldNone
  | .encAlign, s => (writeAlign s).yieldNone
  | .encNslen value, s => (encNslen value s).yieldNone
  | .encClen value lb ub, s => (encClen value lb ub s).yieldNone
  | .encUlen value, s => (encUlen value s).yieldNone
  | .encCwn value lb ub, s => (encCwn value lb ub s).yieldNone
  | .encScwn value lb, s => (encScwn value lb s).yieldNone
  | .encUwn value, s => (writeCountedOctets value s).yieldNone

theorem exec_eq_commandBody {i : Instr} {m : Mode} (h : modeNeeded i = some m) (s : State) :
    exec i s = command m (commandBody i) s := by
  cases i <;> cases h <;> rfl

/-- In its mode a command is its body and the response. -/
theorem exec_eq_finish {i : Instr} {m : Mode} {s : State} (hm : s.mode = m) (hi : modeNeeded i = some m) :
    exec i s = finish (commandBody i s) := by
  rw [exec_eq_commandBody hi, command_inMode hm]

/-- The body yields: the command answers `OK`. -/
theorem exec_of_done {i : Instr} {m : Mode} {s t u : State} {v : Option Pattern} (hm : s.mode = m)
    (hi : modeNeeded i = some m) (h : commandBody i s = .done v u) (ht : endOk v u = t := by rfl) :
    exec i s = .next t := by
  rw [exec_eq_finish hm hi, h, finish_done, ht]

/-- The body raises: the command answers with that error. -/
theorem exec_of_raised {i : Instr} {m : Mode} {s t u : State} {k : Status} (hm : s.mode = m)
    (hi : modeNeeded i = some m) (h : commandBody i s = .raised k u) (ht : raiseError k u = t := by rfl) :
    exec i s = .next t := by
  rw [exec_eq_finish hm hi, h, finish_raised, ht]

/-- Everything a command that needs a mode can answer. -/
theorem exec_cases {i : Instr} {m : Mode} {s t : State} (hi : modeNeeded i = some m) (h : exec i s = .next t) :
    (s.mode ≠ m ∧ t = raiseError .wrongMode s) ∨
      (s.mode = m ∧ ∃ v u, commandBody i s = .done v u ∧ t = endOk v u) ∨
      (s.mode = m ∧ ∃ k u, commandBody i s = .raised k u ∧ t = raiseError k u) :=
  command_cases ((exec_eq_commandBody hi s).symm.trans h)

theorem yieldNat_eq_done {r : Res Nat} {v : Option Pattern} {t : State} (h : r.yieldNat = .done v t) :
    v.isSome = true := by
  obtain ⟨_, _, -, e⟩ := bind_eq_done.1 h
  cases e
  rfl

theorem yieldInt_eq_done {r : Res Int} {v : Option Pattern} {t : State} (h : r.yieldInt = .done v t) :
    v.isSome = true := by
  obtain ⟨_, _, -, e⟩ := bind_eq_done.1 h
  cases e
  rfl

theorem yieldNone_eq_done {r : Res Unit} {v : Option Pattern} {t : State} (h : r.yieldNone = .done v t) :
    v = none := by
  obtain ⟨_, _, -, e⟩ := bind_eq_done.1 h
  cases e
  rfl

/-- A body yields a pattern exactly where the opcode map gives its command a result (30_encoding.md R54). -/
theorem commandBody_result {i : Instr} (hi : modeNeeded i ≠ none) {s t : State} {v : Option Pattern}
    (h : commandBody i s = .done v t) : v.isSome = hasResult i := by
  cases i with
  | initDec _ => exact absurd rfl hi
  | initEnc => exact absurd rfl hi
  | decBool => exact yieldNat_eq_done h
  | decBits _ => exact yieldNat_eq_done h
  | decAlign => cases h; rfl
  | decNslen => exact yieldNat_eq_done h
  | decClen _ _ => exact yieldInt_eq_done h
  | decUlen => exact yieldNat_eq_done h
  | decCwn _ _ => exact yieldInt_eq_done h
  | decScwn _ => exact yieldInt_eq_done h
  | decUwn => exact yieldNat_eq_done h
  | advance _ _ => rw [yieldNone_eq_done h]; rfl
  | encBool _ => rw [yieldNone_eq_done h]; rfl
  | encBits _ _ => rw [yieldNone_eq_done h]; rfl
  | encAlign => rw [yieldNone_eq_done h]; rfl
  | encNslen _ => rw [yieldNone_eq_done h]; rfl
  | encClen _ _ _ => rw [yieldNone_eq_done h]; rfl
  | encUlen _ => rw [yieldNone_eq_done h]; rfl
  | encCwn _ _ _ => rw [yieldNone_eq_done h]; rfl
  | encScwn _ _ => rw [yieldNone_eq_done h]; rfl
  | encUwn _ => rw [yieldNone_eq_done h]; rfl

end Sys2Proof.Machine
end

section
/-! SUPPORT. Which errors each body can raise (60_exceptions.md R141 to R149), and which refusals come before any bit
moves. -/

namespace Sys2Proof.Machine

open Sys2Proof

/-- Where the body raises, the error and the state satisfy `P`. -/
def Res.Raises {α : Type} (P : Status → State → Prop) : Res α → Prop
  | .raised k t => P k t
  | .done _ _ => True
  | .stuck _ => True

/-- The errors of the body are among `K`. -/
abbrev Res.RaisesIn {α : Type} (K : List Status) (r : Res α) : Prop := r.Raises fun k _ => k ∈ K

@[simp] theorem raises_done {α : Type} (P : Status → State → Prop) (a : α) (t : State) :
    (Res.done a t).Raises P := trivial

@[simp] theorem raises_raised {α : Type} (P : Status → State → Prop) (k : Status) (t : State) :
    (Res.raised k t : Res α).Raises P ↔ P k t := Iff.rfl

@[simp] theorem raises_stuck {α : Type} (P : Status → State → Prop) (e : Fault) :
    (Res.stuck e : Res α).Raises P := trivial

theorem raises_iff {α : Type} {P : Status → State → Prop} {r : Res α} :
    r.Raises P ↔ ∀ k t, r = .raised k t → P k t := by
  cases r <;> simp

theorem Res.Raises.mono {α : Type} {P Q : Status → State → Prop} {r : Res α} (h : r.Raises P)
    (hPQ : ∀ k t, P k t → Q k t) : r.Raises Q :=
  raises_iff.2 fun k t e => hPQ k t (raises_iff.1 h k t e)

theorem raises_bind {α β : Type} {P : Status → State → Prop} {r : Res α} {f : α → State → Res β} (h : r.Raises P)
    (hf : ∀ a t, r = .done a t → (f a t).Raises P) : (r.bind f).Raises P := by
  cases r with
  | done a t => exact hf a t rfl
  | raised k t => exact h
  | stuck e => exact trivial

/-- A longer list of errors. -/
theorem Res.Raises.subset {α : Type} {K K' : List Status} {r : Res α} (h : r.RaisesIn K) (hK : K ⊆ K') :
    r.RaisesIn K' := h.mono fun _ _ hk => hK hk

/-- Only `OutOfBits`: the one error of a primitive whose operands fit. -/
abbrev Res.OnlyOutOfBits {α : Type} (r : Res α) : Prop := r.RaisesIn [.outOfBits]

/-! ### Decode side -/

theorem readBit_raises (s : State) : (readBit s).OnlyOutOfBits := by
  refine raises_iff.2 fun k t e => ?_
  obtain ⟨-, rfl, -⟩ := readBit_eq_raised.1 e
  simp

theorem readBits_raises (n : Nat) (s : State) : (readBits n s).RaisesIn [.outOfBits, .widthTooLarge] := by
  refine raises_iff.2 fun k t e => ?_
  obtain ⟨-, ⟨-, rfl⟩ | ⟨-, -, rfl⟩⟩ := readBits_eq_raised.1 e <;> simp

theorem readBits_raises_of_le {n : Nat} (hn : n ≤ 128) (s : State) : (readBits n s).OnlyOutOfBits := by
  refine raises_iff.2 fun k t e => ?_
  obtain ⟨-, ⟨hn', -⟩ | ⟨-, -, rfl⟩⟩ := readBits_eq_raised.1 e
  · omega
  · simp

theorem addLb_raises (raw : Nat) (lb : Int) (s : State) : (addLb raw lb s).RaisesIn [.valueOverflow] := by
  refine raises_iff.2 fun k t e => ?_
  obtain ⟨-, rfl, -⟩ := addLb_eq_raised.1 e
  simp

theorem readShortBand_raises (r : Nat) (s : State) : (readShortBand r s).OnlyOutOfBits := by
  unfold readShortBand
  split_ifs
  · exact readBits_raises_of_le ((bitsNeeded_le r).trans (by norm_num)) _
  · exact readBits_raises_of_le (by norm_num) _
  · exact readBits_raises_of_le (by norm_num) _

/-- Below a range of 65536 the whole number is read by one of the bands 1 to 3 (41_whole_number.md R93). -/
theorem decCwn_eq_short {lb ub : Int} (h : range lb ub < 65536) (s : State) : decCwn lb ub s = decCwnShort lb ub s := by
  unfold decCwn decCwnShort
  rw [if_pos h]

theorem decClen_eq_decCwn {lb ub : Int} (h : range lb ub < 65536) (s : State) : decClen lb ub s = decCwn lb ub s := by
  rw [decCwn_eq_short h]
  exact if_neg (by omega)

theorem decClen_unsupported {lb ub : Int} (h : 65536 ≤ range lb ub) (s : State) :
    decClen lb ub s = .raised .unsupportedRange s := if_pos h

theorem decCwn_invalidRange {lb ub : Int} (h : ¬RangeOK (range lb ub)) (s : State) :
    decCwn lb ub s = .raised .invalidRange s := if_pos h

/-- The body of `DEC_CWN` behind its range test, by bands. -/
theorem decCwn_shortBand {lb ub : Int} (h1 : 1 ≤ range lb ub) (h2 : range lb ub < 65536) (s : State) :
    decCwn lb ub s = (readShortBand (range lb ub).toNat s).bind fun raw s => addLb raw lb s := by
  have hok : RangeOK (range lb ub) := ⟨h1, h2.le.trans (by norm_num [maxS128])⟩
  rw [decCwn, if_neg (not_not.2 hok), if_pos h2]

theorem decCwn_longBand {lb ub : Int} (h1 : 65536 ≤ range lb ub) (h2 : range lb ub ≤ maxS128) (s : State) :
    decCwn lb ub s = (readLongBand (range lb ub).toNat s).bind fun raw s => addLb raw lb s := by
  have hok : RangeOK (range lb ub) := ⟨by omega, h2⟩
  rw [decCwn, if_neg (not_not.2 hok), if_neg (by omega)]

theorem decCwn_raises_of_supported {lb ub : Int} (h1 : 1 ≤ range lb ub) (h2 : range lb ub < 65536) (s : State) :
    (decCwn lb ub s).RaisesIn [.outOfBits, .valueOverflow] := by
  rw [decCwn_shortBand h1 h2]
  exact raises_bind ((readShortBand_raises _ s).subset (by simp)) fun _ _ _ => (addLb_raises _ _ _).subset (by simp)

/-- The range of the length field of band 4 is a legal one below 65536 (41_whole_number.md R94, R95). -/
theorem range_bytesNeeded {r : Nat} (hlo : 65536 ≤ r) (hhi : r < 2 ^ 127) :
    3 ≤ range 1 (bytesNeeded r) ∧ range 1 (bytesNeeded r) ≤ 16 := by
  obtain ⟨-, -, -, -, h3, h16⟩ := bytesNeededOnBandFour.1 r hlo (by omega)
  rw [range_one]
  omega

theorem readLongBand_raises {r : Nat} (hlo : 65536 ≤ r) (hhi : r < 2 ^ 127) (s : State) :
    (readLongBand r s).RaisesIn [.outOfBits, .widthTooLarge, .valueOverflow] := by
  obtain ⟨h3, h16⟩ := range_bytesNeeded hlo hhi
  refine raises_bind ?_ fun _ _ _ => (readBits_raises _ _).subset (by simp)
  rw [decClen_eq_decCwn (by omega)]
  exact (decCwn_raises_of_supported (by omega) (by omega) s).subset (by simp)

theorem decCwn_raises (lb ub : Int) (s : State) :
    (decCwn lb ub s).RaisesIn [.outOfBits, .invalidRange, .widthTooLarge, .valueOverflow] := by
  by_cases hok : RangeOK (range lb ub)
  · by_cases hlt : range lb ub < 65536
    · exact (decCwn_raises_of_supported hok.1 hlt s).subset (by simp)
    · rw [decCwn_longBand (by omega) hok.2]
      refine raises_bind ?_ fun _ _ _ => (addLb_raises _ _ _).subset (by simp)
      exact (readLongBand_raises (by omega) (toNat_lt_of_rangeOK hok) s).subset (by simp)
  · rw [decCwn_invalidRange hok]
    simp

/-- A constrained length below a range of 65536 has no `UnsupportedRange`. -/
theorem decClen_raises_of_lt {lb ub : Int} (h : range lb ub < 65536) (s : State) :
    (decClen lb ub s).RaisesIn [.outOfBits, .invalidRange, .valueOverflow] := by
  rw [decClen_eq_decCwn h]
  by_cases h1 : 1 ≤ range lb ub
  · exact (decCwn_raises_of_supported h1 h s).subset (by simp)
  · rw [decCwn_invalidRange fun hok => h1 hok.1]
    simp

theorem decClen_raises (lb ub : Int) (s : State) :
    (decClen lb ub s).RaisesIn [.outOfBits, .invalidRange, .unsupportedRange, .valueOverflow] := by
  by_cases h : range lb ub < 65536
  · exact (decClen_raises_of_lt h s).subset (by simp)
  · rw [decClen_unsupported (by omega)]
    simp

theorem decUlen_raises (s : State) : (decUlen s).RaisesIn [.outOfBits, .invalidLengthMultiplier] := by
  refine raises_bind ((readBit_raises _).subset (by simp)) fun b1 t _ => ?_
  split_ifs
  · exact (readBits_raises_of_le (by norm_num) t).subset (by simp)
  · refine raises_bind ((readBit_raises _).subset (by simp)) fun b2 u _ => ?_
    split_ifs
    · exact (readBits_raises_of_le (by norm_num) u).subset (by simp)
    · refine raises_bind ((readBits_raises_of_le (by norm_num) u).subset (by simp)) fun m w _ => ?_
      split_ifs <;> simp

theorem decNslen_raises (s : State) : (decNslen s).RaisesIn [.outOfBits, .invalidLengthMultiplier] := by
  refine raises_bind ((readBit_raises s).subset (by simp)) fun b t _ => ?_
  split_ifs
  · exact raises_bind ((readBits_raises_of_le (by norm_num) t).subset (by simp)) fun _ _ _ => trivial
  · exact decUlen_raises t

theorem readCountedOctets_raises (s : State) :
    (readCountedOctets s).RaisesIn [.outOfBits, .invalidLengthMultiplier, .widthTooLarge] :=
  raises_bind ((decUlen_raises s).subset (by simp)) fun _ _ _ => (readBits_raises _ _).subset (by simp)

theorem decScwn_raises (lb : Int) (s : State) :
    (decScwn lb s).RaisesIn [.outOfBits, .invalidLengthMultiplier, .widthTooLarge, .valueOverflow] :=
  raises_bind ((readCountedOctets_raises s).subset (by simp)) fun _ _ _ => (addLb_raises _ _ _).subset (by simp)

theorem advanceBody_raises (count : Nat) (f : Bool) (s : State) : (advanceBody count f s).OnlyOutOfBits := by
  unfold advanceBody
  split
  · refine raises_iff.2 fun k t e => ?_
    obtain ⟨-, rfl, -⟩ := skip_eq_raised.1 e
    simp
  · split <;> trivial

/-! ### Encode side: the writes behind the tests only run out of bits -/

theorem writeBit_raises (b : Bool) (s : State) : (writeBit b s).OnlyOutOfBits := by
  refine raises_iff.2 fun k t e => ?_
  obtain ⟨-, rfl, -⟩ := writeBit_eq_raised.1 e
  simp

theorem writeAlign_raises (s : State) : (writeAlign s).OnlyOutOfBits :=
  raises_iff.2 fun _ _ e => absurd e writeAlign_ne_raised

theorem writeBits_raises {n v : Nat} (hn : n ≤ 128) (hv : v < 2 ^ n) (s : State) : (writeBits n v s).OnlyOutOfBits := by
  refine raises_iff.2 fun k t e => ?_
  obtain ⟨-, ⟨hn', -⟩ | ⟨-, hv', -⟩ | ⟨-, -, -, rfl⟩⟩ := writeBits_eq_raised.1 e
  · omega
  · omega
  · simp

theorem writeAlignBits_raises {n v : Nat} (hn : n ≤ 128) (hv : v < 2 ^ n) (s : State) :
    ((writeAlign s).bind fun _ s => writeBits n v s).OnlyOutOfBits :=
  raises_bind (writeAlign_raises s) fun _ t _ => writeBits_raises hn hv t

theorem writeShortBand_raises {r v : Nat} (hr : r < 65536) (hv : v < r) (s : State) :
    (writeShortBand r v s).OnlyOutOfBits := by
  unfold writeShortBand
  split_ifs with h1 h2
  · exact writeBits_raises ((bitsNeeded_le r).trans (by norm_num)) (lt_pow_bitsNeeded h1 hv) s
  · exact writeAlignBits_raises (by norm_num) (by omega) s
  · exact writeAlignBits_raises (by norm_num) (by omega) s

/-- Below a range of 65536 the whole number is written by one of the bands 1 to 3 (41_whole_number.md R98). -/
theorem encCwn_eq_short {value lb ub : Int} (h : range lb ub < 65536) (s : State) :
    encCwn value lb ub s = encCwnShort value lb ub s := by
  unfold encCwn encCwnShort
  rw [if_pos h]

theorem encClen_eq_encCwn {value lb ub : Int} (h : range lb ub < 65536) (s : State) :
    encClen value lb ub s = encCwn value lb ub s := by
  rw [encCwn_eq_short h]
  exact if_neg (by omega)

theorem encClen_unsupported {value lb ub : Int} (h : 65536 ≤ range lb ub) (s : State) :
    encClen value lb ub s = .raised .unsupportedRange s := if_pos h

theorem encCwn_invalidRange {value lb ub : Int} (h : ¬RangeOK (range lb ub)) (s : State) :
    encCwn value lb ub s = .raised .invalidRange s := if_pos h

theorem encCwn_valueOutOfRange {value lb ub : Int} (hok : RangeOK (range lb ub)) (h : value < lb ∨ ub < value)
    (s : State) : encCwn value lb ub s = .raised .valueOutOfRange s := by
  rw [encCwn, if_neg (not_not.2 hok), if_pos h]

/-- The body of `ENC_CWN` behind its two tests, by bands. -/
theorem encCwn_shortBand {value lb ub : Int} (hl : lb ≤ value) (hu : value ≤ ub) (h : range lb ub < 65536) (s : State) :
    encCwn value lb ub s = writeShortBand (range lb ub).toNat (value - lb).toNat s := by
  have hok : RangeOK (range lb ub) := ⟨by unfold range; omega, h.le.trans (by norm_num [maxS128])⟩
  rw [encCwn, if_neg (not_not.2 hok), if_neg (by omega), if_pos h]

theorem encCwn_longBand {value lb ub : Int} (hl : lb ≤ value) (hu : value ≤ ub) (h1 : 65536 ≤ range lb ub)
    (h2 : range lb ub ≤ maxS128) (s : State) :
    encCwn value lb ub s = writeLongBand (range lb ub).toNat (value - lb).toNat s := by
  have hok : RangeOK (range lb ub) := ⟨by omega, h2⟩
  rw [encCwn, if_neg (not_not.2 hok), if_neg (by omega), if_neg (by omega)]

theorem encClen_raises_of_fits {value lb ub : Int} (hl : lb ≤ value) (hu : value ≤ ub) (h : range lb ub < 65536)
    (s : State) : (encClen value lb ub s).OnlyOutOfBits := by
  have hlt := offset_lt_range hl hu
  rw [encClen_eq_encCwn h, encCwn_shortBand hl hu h]
  exact writeShortBand_raises (by omega) hlt s

/-- A value field of band 4 of at most 16 octets, and its length as a value of the length field
(41_whole_number.md R98). -/
theorem longBand_bounds {r v : Nat} (hlo : 65536 ≤ r) (hhi : r < 2 ^ 127) (hv : v < r) :
    2 ≤ longBandOctets v ∧ longBandOctets v ≤ bytesNeeded r ∧ bytesNeeded r ≤ 16 ∧ 8 * longBandOctets v ≤ 128 := by
  have h2 := two_le_longBandOctets v
  have hle := longBandOctets_le_bytesNeeded hlo hv
  have h16 := bytesNeeded_le hhi
  omega

theorem writeLongBand_raises {r v : Nat} (hlo : 65536 ≤ r) (hhi : r < 2 ^ 127) (hv : v < r) (s : State) :
    (writeLongBand r v s).OnlyOutOfBits := by
  obtain ⟨h2, hle, h16, hn⟩ := longBand_bounds hlo hhi hv
  refine raises_bind ?_ fun _ t _ => writeAlignBits_raises hn (lt_pow_longBandOctets v) t
  exact encClen_raises_of_fits (by omega) (by omega) (by rw [range_one]; omega) s

theorem encCwn_raises_of_fits {value lb ub : Int} (hl : lb ≤ value) (hu : value ≤ ub) (hok : RangeOK (range lb ub))
    (s : State) : (encCwn value lb ub s).OnlyOutOfBits := by
  have hlt := offset_lt_range hl hu
  by_cases h : range lb ub < 65536
  · rw [encCwn_shortBand hl hu h]
    exact writeShortBand_raises (by omega) hlt s
  · rw [encCwn_longBand hl hu (by omega) hok.2]
    exact writeLongBand_raises (by omega) (toNat_lt_of_rangeOK hok) hlt s

theorem encUlen_valueOutOfRange {l : Nat} (h : ¬ULenOK l) (s : State) :
    encUlen l s = .raised .valueOutOfRange s := if_pos h

theorem encUlen_raises_of_ok {l : Nat} (h : ULenOK l) (s : State) : (encUlen l s).OnlyOutOfBits := by
  rw [encUlen, if_neg (not_not.2 h)]
  refine raises_bind (writeAlign_raises s) fun _ t _ => ?_
  split_ifs with h1 h2
  · exact raises_bind (writeBit_raises _ _) fun _ u _ => writeBits_raises (by norm_num) (by omega) u
  · exact raises_bind (writeBit_raises _ _) fun _ u _ =>
      raises_bind (writeBit_raises _ _) fun _ w _ => writeBits_raises (by norm_num) (by omega) w
  · exact raises_bind (writeBit_raises _ _) fun _ u _ =>
      raises_bind (writeBit_raises _ _) fun _ w _ => writeBits_raises (by norm_num) (by unfold fragmentUnit; omega) w

theorem encNslen_valueOutOfRange {v : Nat} (h : v = 0 ∨ ¬ULenOK v) (s : State) :
    encNslen v s = .raised .valueOutOfRange s := by
  unfold encNslen
  split_ifs with h0 h1 h2
  · rfl
  · rfl
  · omega
  · omega

/-- The small form of `ENC_NSLEN` (42_length_determinant.md R114). -/
theorem encNslen_small {v : Nat} (h1 : 1 ≤ v) (h64 : v ≤ 64) (s : State) :
    encNslen v s = (writeBit false s).bind fun _ s => writeBits 6 (v - 1) s := by
  rw [encNslen, if_neg (by omega), if_neg (by omega), if_pos h64]

/-- The large form of `ENC_NSLEN` (42_length_determinant.md R114). -/
theorem encNslen_large {v : Nat} (h64 : 64 < v) (hv : ULenOK v) (s : State) :
    encNslen v s = (writeBit true s).bind fun _ s => encUlen v s := by
  rw [encNslen, if_neg (by omega), if_neg (fun h => h.2 hv), if_neg (by omega)]

theorem encNslen_raises_of_ok {v : Nat} (h1 : 1 ≤ v) (hv : ULenOK v) (s : State) : (encNslen v s).OnlyOutOfBits := by
  by_cases h64 : v ≤ 64
  · rw [encNslen_small h1 h64]
    exact raises_bind (writeBit_raises _ _) fun _ t _ => writeBits_raises (by norm_num) (by omega) t
  · rw [encNslen_large (by omega) hv]
    exact raises_bind (writeBit_raises _ _) fun _ t _ => encUlen_raises_of_ok hv t

theorem writeCountedOctets_raises_of_lt {v : Nat} (hv : v < 2 ^ 128) (s : State) :
    (writeCountedOctets v s).OnlyOutOfBits := by
  have h16 := minOctets_le hv
  exact raises_bind (encUlen_raises_of_ok (.inl (by omega)) s) fun _ t _ =>
    writeBits_raises (by omega) (lt_pow_minOctets v) t

/-- Whatever the number, the counted octets end with no error but these three. -/
theorem writeCountedOctets_raises (v : Nat) (s : State) :
    (writeCountedOctets v s).RaisesIn [.outOfBits, .widthTooLarge, .valueOutOfRange] := by
  refine raises_bind ?_ fun _ t _ => raises_iff.2 fun k u e => ?_
  · by_cases h : ULenOK (minOctets v)
    · exact (encUlen_raises_of_ok h s).subset (by simp)
    · rw [encUlen_valueOutOfRange h]
      simp
  · obtain ⟨-, ⟨-, rfl⟩ | ⟨-, -, rfl⟩ | ⟨-, -, -, rfl⟩⟩ := writeBits_eq_raised.1 e <;> simp

theorem encScwn_valueOutOfRange {value lb : Int} (h : value < lb) (s : State) :
    encScwn value lb s = .raised .valueOutOfRange s := if_pos h

theorem encScwn_eq_counted {value lb : Int} (h : lb ≤ value) (s : State) :
    encScwn value lb s = writeCountedOctets (value - lb).toNat s := if_neg (by omega)

/-! ### Encode side: a refusal comes before any bit is written -/

/-- The body runs out of bits, or raises an error of `K` in the state `s` it began in. -/
abbrev Res.Refuses {α : Type} (s : State) (K : List Status) (r : Res α) : Prop :=
  r.Raises fun k t => k = .outOfBits ∨ k ∈ K ∧ t = s

theorem Res.Raises.refuses {α : Type} {r : Res α} (h : r.OnlyOutOfBits) (s : State) (K : List Status) :
    r.Refuses s K := h.mono fun _ _ hk => .inl (List.mem_singleton.1 hk)

theorem writeBits_refuses (n v : Nat) (s : State) :
    (writeBits n v s).Refuses s [.widthTooLarge, .valueOutOfRange] := by
  refine raises_iff.2 fun k t e => ?_
  obtain ⟨rfl, ⟨-, rfl⟩ | ⟨-, -, rfl⟩ | ⟨-, -, -, rfl⟩⟩ := writeBits_eq_raised.1 e <;> simp

theorem encCwn_refuses (value lb ub : Int) (s : State) :
    (encCwn value lb ub s).Refuses s [.invalidRange, .valueOutOfRange] := by
  by_cases hok : RangeOK (range lb ub)
  · by_cases hval : value < lb ∨ ub < value
    · rw [encCwn_valueOutOfRange hok hval]
      simp
    · exact (encCwn_raises_of_fits (by omega) (by omega) hok s).refuses s _
  · rw [encCwn_invalidRange hok]
    simp

/-- A constrained length below a range of 65536 has no `UnsupportedRange`. -/
theorem encClen_refuses_of_lt {value lb ub : Int} (h : range lb ub < 65536) (s : State) :
    (encClen value lb ub s).Refuses s [.invalidRange, .valueOutOfRange] := by
  rw [encClen_eq_encCwn h]
  exact encCwn_refuses value lb ub s

theorem encClen_refuses (value lb ub : Int) (s : State) :
    (encClen value lb ub s).Refuses s [.invalidRange, .unsupportedRange, .valueOutOfRange] := by
  by_cases h : range lb ub < 65536
  · have hrow : [Status.invalidRange, .valueOutOfRange] ⊆ [.invalidRange, .unsupportedRange, .valueOutOfRange] := by
      simp
    exact (encClen_refuses_of_lt h s).mono fun k t hk => hk.imp_right fun ⟨hk, ht⟩ => ⟨hrow hk, ht⟩
  · rw [encClen_unsupported (by omega)]
    simp

theorem encUlen_refuses (l : Nat) (s : State) : (encUlen l s).Refuses s [.valueOutOfRange] := by
  by_cases h : ULenOK l
  · exact (encUlen_raises_of_ok h s).refuses s _
  · rw [encUlen_valueOutOfRange h]
    simp

theorem encNslen_refuses (v : Nat) (s : State) : (encNslen v s).Refuses s [.valueOutOfRange] := by
  by_cases h : v = 0 ∨ ¬ULenOK v
  · rw [encNslen_valueOutOfRange h]
    simp
  · exact (encNslen_raises_of_ok (by omega) (by tauto) s).refuses s _

theorem encScwn_refuses {value lb : Int} (h : value - lb < 2 ^ 128) (s : State) :
    (encScwn value lb s).Refuses s [.valueOutOfRange] := by
  by_cases hv : value < lb
  · rw [encScwn_valueOutOfRange hv]
    simp
  · rw [encScwn_eq_counted (by omega)]
    exact (writeCountedOctets_raises_of_lt (by omega) s).refuses s _

/-! ### Every command (60_exceptions.md R160) -/

theorem yield_raises {P : Status → State → Prop} {α : Type} {r : Res α} {f : α → Option Pattern} (h : r.Raises P) :
    (r.bind fun x s => .done (f x) s).Raises P :=
  raises_bind h fun _ _ _ => trivial

/-- The errors of a decode body are those of its row. -/
theorem commandBody_raises_dec {i : Instr} (hi : modeNeeded i = some .dec) (s : State) :
    (commandBody i s).RaisesIn (possibleErrors i) := by
  cases i <;> cases hi
  case decBool =>
    have hbit : ((readBit s).bind fun b s => .done b.toNat s).OnlyOutOfBits :=
      raises_bind (readBit_raises s) fun _ _ _ => trivial
    exact (yield_raises hbit).subset (by simp [possibleErrors])
  case decBits n => exact (yield_raises (readBits_raises n s)).subset (by simp [possibleErrors])
  case decAlign => trivial
  case decNslen => exact (yield_raises (decNslen_raises s)).subset (by simp [possibleErrors])
  case decClen lb ub => exact (yield_raises (decClen_raises lb ub s)).subset (by simp [possibleErrors])
  case decUlen => exact (yield_raises (decUlen_raises s)).subset (by simp [possibleErrors])
  case decCwn lb ub => exact (yield_raises (decCwn_raises lb ub s)).subset (by simp [possibleErrors])
  case decScwn lb => exact (yield_raises (decScwn_raises lb s)).subset (by simp [possibleErrors])
  case decUwn => exact (yield_raises (readCountedOctets_raises s)).subset (by simp [possibleErrors])
  case advance count f => exact (yield_raises (advanceBody_raises count f s)).subset (by simp [possibleErrors])

/-- The number that a command writes as counted octets has at most 128 bits (41_whole_number.md R99, R100); so it is for
every command that has a command word. -/
def CountedFits : Instr → Prop
  | .encScwn value lb => value - lb < 2 ^ 128
  | .encUwn value => value < 2 ^ 128
  | _ => True

theorem countedFits_of_wellFormed {i : Instr} (h : WellFormed i) : CountedFits i := by
  cases i with
  | encScwn value lb =>
    obtain ⟨⟨-, hv⟩, hl, -⟩ := of_decide_eq_true h
    change value - lb < 2 ^ 128
    norm_num
    omega
  | encUwn value => exact of_decide_eq_true (p := FitsU128 value) h
  | _ => trivial

/-- The errors of an encode body are those of its row, and every error but `OutOfBits` leaves the state as it was. -/
theorem commandBody_refuses_enc {i : Instr} (hi : modeNeeded i = some .enc) (hfits : CountedFits i) (s : State) :
    (commandBody i s).Raises fun k t => k ∈ possibleErrors i ∧ (k = .outOfBits ∨ t = s) := by
  have row : ∀ {r : Res Unit} {K : List Status}, r.Refuses s K → .outOfBits ∈ possibleErrors i → K ⊆ possibleErrors i →
      r.yieldNone.Raises fun k t => k ∈ possibleErrors i ∧ (k = .outOfBits ∨ t = s) := by
    intro r K h hout hK
    refine (yield_raises h).mono fun k t hk => ?_
    rcases hk with rfl | ⟨hk, rfl⟩
    · exact ⟨hout, .inl rfl⟩
    · exact ⟨hK hk, .inr rfl⟩
  cases i <;> cases hi
  case encBool f => exact row ((writeBit_raises f s).refuses s []) (by simp [possibleErrors]) (by simp)
  case encBits n v => exact row (writeBits_refuses n v s) (by simp [possibleErrors]) (by simp [possibleErrors])
  case encAlign => exact yield_raises (raises_iff.2 fun _ _ e => absurd e writeAlign_ne_raised)
  case encNslen v => exact row (encNslen_refuses v s) (by simp [possibleErrors]) (by simp [possibleErrors])
  case encClen v lb ub => exact row (encClen_refuses v lb ub s) (by simp [possibleErrors]) (by simp [possibleErrors])
  case encUlen v => exact row (encUlen_refuses v s) (by simp [possibleErrors]) (by simp [possibleErrors])
  case encCwn v lb ub => exact row (encCwn_refuses v lb ub s) (by simp [possibleErrors]) (by simp [possibleErrors])
  case encScwn v lb => exact row (encScwn_refuses hfits s) (by simp [possibleErrors]) (by simp [possibleErrors])
  case encUwn v =>
    exact row ((writeCountedOctets_raises_of_lt hfits s).refuses s []) (by simp [possibleErrors]) (by simp)

/-- The errors of a command that needs a mode are those of its row. -/
theorem commandBody_raised_mem {i : Instr} (hi : modeNeeded i ≠ none) (hfits : CountedFits i) {s t : State} {k : Status}
    (h : commandBody i s = .raised k t) : k ∈ possibleErrors i := by
  rcases instr_kinds i with hdec | henc | rfl | ⟨n, rfl⟩
  · exact raises_iff.1 (commandBody_raises_dec hdec s) k t h
  · exact (raises_iff.1 (commandBody_refuses_enc henc hfits s) k t h).1
  · exact absurd rfl hi
  · exact absurd rfl hi

/-- A number of more than 128 bits ends with one of these three. -/
theorem commandBody_raises_of_not_fits {i : Instr} (h : ¬CountedFits i) (s : State) :
    (commandBody i s).RaisesIn [.outOfBits, .widthTooLarge, .valueOutOfRange] := by
  cases i with
  | encScwn value lb =>
    have hlarge : 2 ^ 128 ≤ value - lb := not_lt.1 h
    refine yield_raises ?_
    rw [encScwn_eq_counted (by omega)]
    exact writeCountedOctets_raises _ s
  | encUwn value => exact yield_raises (writeCountedOctets_raises value s)
  | _ => exact (h trivial).elim

theorem ok_not_mem_possibleErrors (i : Instr) : Status.ok ∉ possibleErrors i := by
  cases i <;> simp [possibleErrors]

theorem wrongMode_mem_possibleErrors {i : Instr} (hi : modeNeeded i ≠ none) : Status.wrongMode ∈ possibleErrors i := by
  cases i <;> simp_all [modeNeeded, possibleErrors]

/-- A body raises an error, never `OK`. -/
theorem commandBody_ne_raised_ok {i : Instr} (hi : modeNeeded i ≠ none) (hfits : CountedFits i) {s t : State} :
    commandBody i s ≠ .raised .ok t :=
  fun h => ok_not_mem_possibleErrors i (commandBody_raised_mem hi hfits h)

end Sys2Proof.Machine
end

section
/-! The statements on errors and refusals (60_exceptions.md section 1; 30_encoding.md R55;
42_length_determinant.md R112, R115). -/

namespace Sys2Proof.Machine

open Sys2Proof

/-- What a response says of the command that gave it, for a command that needs a mode. -/
theorem response_cases {i : Instr} {s t : State} {r : Response} (hi : modeNeeded i ≠ none)
    (he : exec i s = .next t) (hr : t.response = some r) :
    (r = ⟨.wrongMode, none⟩) ∨
      (∃ v u, commandBody i s = .done v u ∧ r = ⟨.ok, v⟩) ∨
      (∃ k u, commandBody i s = .raised k u ∧ r = ⟨k, none⟩ ∧ t = raiseError k u ∧ modeNeeded i = some s.mode) := by
  obtain ⟨m, hm⟩ := Option.ne_none_iff_exists'.1 hi
  rcases exec_cases hm he with ⟨-, rfl⟩ | ⟨-, v, u, hb, rfl⟩ | ⟨hmode, k, u, hb, rfl⟩ <;> cases hr
  · exact .inl rfl
  · exact .inr (.inl ⟨v, u, hb, rfl⟩)
  · exact .inr (.inr ⟨k, u, hb, rfl, rfl, hmode ▸ hm⟩)

/-- What a response says of a construction that gave it. -/
theorem response_cases_construction {i : Instr} {s t : State} {r : Response} (hi : modeNeeded i = none)
    (hs : s.response = none) (he : exec i s = .next t) (hr : t.response = some r) :
    r = ⟨.ok, none⟩ ∨ r = ⟨.outOfBits, none⟩ ∧ ∃ n, i = .initDec n := by
  rcases instr_kinds i with hdec | henc | rfl | ⟨n, rfl⟩
  · simp [hdec] at hi
  · simp [henc] at hi
  · cases he
    cases hr
    exact .inl rfl
  · rcases exec_initDec_cases n s with ⟨-, e⟩ | ⟨-, -, e⟩ | ⟨-, -, e⟩ <;> cases he.symm.trans e
    · cases hr
      exact .inr ⟨rfl, n, rfl⟩
    · cases hs.symm.trans hr
    · cases hr
      exact .inl rfl

/-- Settles O19: the mode test gives `WrongMode`, and the errors of each body are those of its row. -/
theorem commandsEndOnlyWithTheirStatuses : Obligations.CommandsEndOnlyWithTheirStatuses := by
  intro i s t r hwf hs he hr
  by_cases hi : modeNeeded i = none
  · rcases response_cases_construction hi hs he hr with rfl | ⟨rfl, n, rfl⟩
    · exact .inl rfl
    · exact .inr (by simp [possibleErrors])
  · rcases response_cases hi he hr with rfl | ⟨v, u, -, rfl⟩ | ⟨k, u, hb, rfl, -⟩
    · exact .inr (wrongMode_mem_possibleErrors hi)
    · exact .inl rfl
    · exact .inr (commandBody_raised_mem hi (countedFits_of_wellFormed hwf) hb)

theorem hasResult_eq_false {i : Instr} (hi : modeNeeded i ≠ some .dec) : hasResult i = false := by
  cases i <;> simp [modeNeeded, hasResult] at hi ⊢

/-- Settles O20: a body that yields gives a pattern as the opcode map says, and a decode body never raises `OK`. -/
theorem resultExactlyWhenOkAndDefined : Obligations.ResultExactlyWhenOkAndDefined := by
  intro i s t r hs he hr
  by_cases hi : modeNeeded i = none
  · have hres : hasResult i = false := hasResult_eq_false (by simp [hi])
    rcases response_cases_construction hi hs he hr with rfl | ⟨rfl, -⟩ <;> simp [hres]
  · rcases response_cases hi he hr with rfl | ⟨v, u, hb, rfl⟩ | ⟨k, u, hb, rfl, -⟩
    · simp
    · simp [commandBody_result hi hb]
    · by_cases hdec : modeNeeded i = some .dec
      · have hk : k ≠ .ok := fun e =>
          ok_not_mem_possibleErrors i (e ▸ raises_iff.1 (commandBody_raises_dec hdec s) k u hb)
        simp [hk]
      · simp [hasResult_eq_false hdec]

/-- Settles O21: both bodies test the range first, and below 65536 the constrained length is the whole number. -/
theorem invalidRangeMovesNoBit : Obligations.InvalidRangeMovesNoBit := by
  intro lb ub value s
  refine ⟨fun hm hr => exec_of_raised hm rfl (congrArg Res.yieldInt (decCwn_invalidRange hr s)),
    fun hm hr => exec_of_raised hm rfl (congrArg Res.yieldNone (encCwn_invalidRange hr s)), fun hm hr => ?_,
    fun hm hr => ?_⟩
  · have hbad : ¬RangeOK (range lb ub) := fun h => absurd h.1 (by omega)
    exact exec_of_raised hm rfl
      (congrArg Res.yieldInt ((decClen_eq_decCwn (by omega) s).trans (decCwn_invalidRange hbad s)))
  · have hbad : ¬RangeOK (range lb ub) := fun h => absurd h.1 (by omega)
    exact exec_of_raised hm rfl
      (congrArg Res.yieldNone ((encClen_eq_encCwn (by omega) s).trans (encCwn_invalidRange hbad s)))

/-- Only the constrained lengths have `UnsupportedRange` in their row. -/
theorem constrainedLength_of_unsupportedRange {i : Instr} (h : .unsupportedRange ∈ possibleErrors i) :
    (∃ lb ub, i = .decClen lb ub) ∨ ∃ value lb ub, i = .encClen value lb ub := by
  cases i <;> simp [possibleErrors] at h ⊢

/-- A body raises `UnsupportedRange` only as a constrained length with a range of 65536 or more. -/
theorem commandBody_unsupportedRange {i : Instr} (hi : modeNeeded i ≠ none) {s u : State}
    (h : commandBody i s = .raised .unsupportedRange u) :
    ∃ lb ub, 65536 ≤ range lb ub ∧ (i = .decClen lb ub ∨ ∃ value, i = .encClen value lb ub) := by
  by_cases hfits : CountedFits i
  · rcases constrainedLength_of_unsupportedRange (commandBody_raised_mem hi hfits h) with
      ⟨lb, ub, rfl⟩ | ⟨value, lb, ub, rfl⟩
    · refine ⟨lb, ub, not_lt.1 fun hlt => ?_, .inl rfl⟩
      simpa using raises_iff.1 (yield_raises (decClen_raises_of_lt hlt s)) _ u h
    · refine ⟨lb, ub, not_lt.1 fun hlt => ?_, .inr ⟨value, rfl⟩⟩
      simpa using raises_iff.1 (yield_raises (encClen_refuses_of_lt hlt s)) _ u h
  · simpa using raises_iff.1 (commandBody_raises_of_not_fits hfits s) _ u h

/-- Settles O22: the constrained lengths test for it first, and no other row has it. -/
theorem unsupportedRangeOnlyFromConstrainedLength : Obligations.UnsupportedRangeOnlyFromConstrainedLength := by
  have only : ∀ (i : Instr) (s t : State) (r : Option Pattern), s.response = none ∨ modeNeeded i ≠ none →
      exec i s = .next t → t.response = some ⟨.unsupportedRange, r⟩ →
      modeNeeded i = some s.mode ∧
        ∃ lb ub, 65536 ≤ range lb ub ∧ (i = .decClen lb ub ∨ ∃ value, i = .encClen value lb ub) := by
    intro i s t r hs he hr
    by_cases hi : modeNeeded i = none
    · rcases response_cases_construction hi (hs.resolve_right (not_not.2 hi)) he hr with e | ⟨e, -⟩ <;> cases e
    · rcases response_cases hi he hr with e | ⟨v, u, -, e⟩ | ⟨k, u, hb, e, -, hmode⟩ <;> cases e
      exact ⟨hmode, commandBody_unsupportedRange hi hb⟩
  refine ⟨fun lb ub value s => ⟨fun hm hr => ?_, fun hm hr => ?_, fun t r he hr => ?_, fun t r he hr => ?_⟩,
    fun i s t r hs he hr => ?_⟩
  · exact exec_of_raised hm rfl (congrArg Res.yieldInt (decClen_unsupported hr s))
  · exact exec_of_raised hm rfl (congrArg Res.yieldNone (encClen_unsupported hr s))
  · obtain ⟨-, _, _, -, e | ⟨_, e⟩⟩ := only _ s t r (.inr (by simp [modeNeeded])) he hr <;> cases e
  · obtain ⟨-, _, _, -, e | ⟨_, e⟩⟩ := only _ s t r (.inr (by simp [modeNeeded])) he hr <;> cases e
  · obtain ⟨hmode, lb, ub, hrange, rfl | ⟨value, rfl⟩⟩ := only i s t r hs he hr
    · exact ⟨lb, ub, hrange, .inl ⟨rfl, (Option.some.inj hmode).symm⟩⟩
    · exact ⟨lb, ub, hrange, .inr ⟨value, rfl, (Option.some.inj hmode).symm⟩⟩

theorem valueOutOfRange_not_mem_dec {i : Instr} (hi : modeNeeded i = some .dec) :
    Status.valueOutOfRange ∉ possibleErrors i := by
  cases i <;> simp [modeNeeded, possibleErrors] at hi ⊢

/-- Settles O23: no decode command has it in its row, and an encode body that raises it has written nothing. -/
theorem valueOutOfRangeWritesNothing : Obligations.ValueOutOfRangeWritesNothing := by
  intro i s t hwf hs he hr
  by_cases hi : modeNeeded i = none
  · rcases response_cases_construction hi hs he hr with e | ⟨e, -⟩ <;> cases e
  · rcases response_cases hi he hr with e | ⟨v, u, -, e⟩ | ⟨k, u, hb, e, rfl, hmode⟩ <;> cases e
    rcases instr_kinds i with hdec | henc | rfl | ⟨n, rfl⟩
    · exact absurd (commandBody_raised_mem hi (countedFits_of_wellFormed hwf) hb) (valueOutOfRange_not_mem_dec hdec)
    · refine ⟨henc, ?_⟩
      obtain ⟨-, e | rfl⟩ := raises_iff.1 (commandBody_refuses_enc henc (countedFits_of_wellFormed hwf) s) _ u hb
      · cases e
      · rfl
    · exact absurd rfl hi
    · exact absurd rfl hi

/-- Settles O24: each body tests its value, behind its range test where it has one, before it writes. -/
theorem encodersRefuseValuesTheyCannotCarry : Obligations.EncodersRefuseValuesTheyCannotCarry := by
  intro s hm
  have refuse : ∀ {i : Instr} {r : Res Unit}, modeNeeded i = some .enc → commandBody i s = r.yieldNone →
      r = .raised .valueOutOfRange s → exec i s = .next (raiseError .valueOutOfRange s) :=
    fun hi hb hr => exec_of_raised hm hi (hb.trans (congrArg Res.yieldNone hr))
  have small : ∀ {r : Int}, 1 ≤ r → r < 65536 → RangeOK r := fun h1 h2 => ⟨h1, h2.le.trans (by norm_num [maxS128])⟩
  refine ⟨fun n v hn hv => ?_, fun value lb ub hok hv => ?_, fun value lb ub h1 h2 hv => ?_, fun value lb hv => ?_,
    fun v hv => ?_, fun v hv => ?_⟩
  · exact refuse rfl rfl (writeBits_eq_raised.2 ⟨rfl, .inr (.inl ⟨hn, hv, rfl⟩)⟩)
  · exact refuse rfl rfl (encCwn_valueOutOfRange hok hv s)
  · exact refuse rfl rfl ((encClen_eq_encCwn h2 s).trans (encCwn_valueOutOfRange (small h1 h2) hv s))
  · exact refuse rfl rfl (encScwn_valueOutOfRange hv s)
  · exact refuse rfl rfl (encNslen_valueOutOfRange hv s)
  · exact refuse rfl rfl (encUlen_valueOutOfRange hv s)

/-- Settles O44: below 65536 the bodies are equal. -/
theorem constrainedLengthIsConstrainedWholeNumber : Obligations.ConstrainedLengthIsConstrainedWholeNumber := by
  intro lb ub value s h
  have hdec : commandBody (.decClen lb ub) = commandBody (.decCwn lb ub) :=
    funext fun u => congrArg Res.yieldInt (decClen_eq_decCwn h u)
  have henc : commandBody (.encClen value lb ub) = commandBody (.encCwn value lb ub) :=
    funext fun u => congrArg Res.yieldNone (encClen_eq_encCwn h u)
  rw [exec_eq_commandBody (m := .dec) rfl, exec_eq_commandBody (m := .dec) rfl, hdec,
    exec_eq_commandBody (m := .enc) rfl, exec_eq_commandBody (m := .enc) rfl, henc]
  exact ⟨rfl, rfl⟩

end Sys2Proof.Machine
end

section
/-! SUPPORT. Bit fields inside octets (00_scope.md R7, 20_memory.md R32): a field of an octet as a number, fields side
by side, and an octet from its field. -/

namespace Sys2Proof.Machine

open Sys2Proof

theorem rdBits_one (m : Memory) (p : Nat) : rdBits m p 1 = (bitAt m p).map Bool.toNat := by
  rw [rdBits_succ]
  cases bitAt m p <;> simp

/-- Two fields side by side are one field. -/
theorem rdBits_add {m : Memory} {p a b x y : Nat} (hx : rdBits m p a = some x) (hy : rdBits m (p + a) b = some y) :
    rdBits m p (a + b) = some (x * 2 ^ b + y) := by
  induction b generalizing y with
  | zero =>
    cases hy
    simpa using hx
  | succ b ih =>
    rw [rdBits_succ] at hy
    obtain ⟨y', hy', hlast⟩ := Option.bind_eq_some_iff.1 hy
    obtain ⟨c, hc, rfl⟩ := Option.map_eq_some_iff.1 hlast
    rw [← Nat.add_assoc, rdBits_succ, ih hy', ← Nat.add_assoc, hc, pow_succ]
    simp only [Option.bind_some, Option.map_some, Option.some.injEq]
    ring

theorem bitAt_octet {m : Memory} {k : Nat} {o : Octet} (h : octetAt m k = some o) {j : Nat} (hj : j < 8) :
    bitAt m (8 * k + j) = some (o.toNat.testBit (7 - j)) := by
  have hdiv : (8 * k + j) / 8 = k := by omega
  have hbit : bitInOctet (8 * k + j) = 7 - j := by unfold bitInOctet; omega
  rw [bitAt, hdiv, h, hbit]
  rfl

/-- The `n` bits of an octet from its bit `j` on, counted from the most significant. -/
theorem rdBits_octet {m : Memory} {k : Nat} {o : Octet} (h : octetAt m k = some o) {j n : Nat} (hjn : j + n ≤ 8) :
    rdBits m (8 * k + j) n = some (o.toNat / 2 ^ (8 - j - n) % 2 ^ n) := by
  refine rdBits_of_bits (Nat.mod_lt _ (Nat.two_pow_pos n)) fun i hi => ?_
  have hidx : n - 1 - i + (8 - j - n) = 7 - (j + i) := by omega
  have hlt : n - 1 - i < n := by omega
  rw [Nat.add_assoc, bitAt_octet h (by omega), Nat.testBit_mod_two_pow, Nat.testBit_div_two_pow, hidx]
  simp [hlt]

/-- An octet whose eight bits read as a number is that number. -/
theorem octetAt_of_rdBits {m : Memory} {k v : Nat} (h : rdBits m (8 * k) 8 = some v) :
    ∃ o, octetAt m k = some o ∧ o.toNat = v := by
  obtain ⟨-, hbits⟩ := rdBits_spec h
  have hsome : (bitAt m (8 * k)).isSome = true := by rw [← Nat.add_zero (8 * k), hbits 0 (by omega)]; rfl
  rw [bitAt_isSome, Nat.mul_div_cancel_left k (by omega)] at hsome
  obtain ⟨o, ho⟩ := Option.isSome_iff_exists.1 hsome
  have hread := rdBits_octet ho (j := 0) (n := 8) (by omega)
  have hlt := o.isLt
  refine ⟨o, ho, ?_⟩
  rw [Nat.add_zero, h] at hread
  simp only [Nat.sub_zero, Nat.sub_self, pow_zero, Nat.div_one, Option.some.injEq] at hread
  omega

end Sys2Proof.Machine
end

section
/-! SUPPORT. The decode primitives and the unconstrained length determinant as equations: from what stands in the buffer
to how the body ends (40_bit_cursor.md R70 to R72; 42_length_determinant.md R113). -/

namespace Sys2Proof.Machine

open Sys2Proof

theorem readBit_done {s : State} {b : Bool} (h : bitAt s.buffer s.bitPosition = some b)
    (hl : s.bitPosition + 1 ≤ s.bitLength) : readBit s = .done b (setPos (s.bitPosition + 1) s) :=
  readBit_eq_done.2 ⟨hl, h, rfl⟩

theorem readBit_short {s : State} (hl : s.bitLength < s.bitPosition + 1) : readBit s = .raised .outOfBits s :=
  readBit_eq_raised.2 ⟨hl, rfl, rfl⟩

theorem readBits_done {s : State} {n v : Nat} (hn : n ≤ 128) (hl : s.bitPosition + n ≤ s.bitLength)
    (h : rdBits s.buffer s.bitPosition n = some v) : readBits n s = .done v (setPos (s.bitPosition + n) s) :=
  readBits_eq_done.2 ⟨hn, hl, h, rfl⟩

theorem readBits_short {s : State} {n : Nat} (hn : n ≤ 128) (hl : s.bitLength < s.bitPosition + n) :
    readBits n s = .raised .outOfBits s := readBits_eq_raised.2 ⟨rfl, .inr ⟨hn, hl, rfl⟩⟩

theorem readBits_tooWide {s : State} {n : Nat} (hn : 128 < n) : readBits n s = .raised .widthTooLarge s :=
  readBits_eq_raised.2 ⟨rfl, .inl ⟨hn, rfl⟩⟩

theorem addLb_done {raw : Nat} {lb : Int} (s : State) (h : raw + lb ≤ 2 ^ 127 - 1) :
    addLb raw lb s = .done (raw + lb) s := addLb_eq_done.2 ⟨h, rfl, rfl⟩

theorem addLb_overflow {raw : Nat} {lb : Int} (s : State) (h : 2 ^ 127 - 1 < raw + lb) :
    addLb raw lb s = .raised .valueOverflow s := addLb_eq_raised.2 ⟨h, rfl, rfl⟩

/-! ### `DEC_ULEN` by its first octet (42_length_determinant.md R113) -/

theorem testBit_seven (o : Octet) : o.toNat.testBit 7 = decide (128 ≤ o.toNat) := by
  have hlt := o.isLt
  rw [Nat.testBit_eq_decide_div_mod_eq, decide_eq_decide]
  omega

theorem testBit_six (o : Octet) : o.toNat.testBit 6 = decide (64 ≤ o.toNat % 128) := by
  rw [Nat.testBit_eq_decide_div_mod_eq, decide_eq_decide]
  omega

section
variable {s : State} {o : Octet}

/-- Without one bit behind the alignment. -/
theorem decUlen_noOctet (hl : s.bitLength < alignUp s.bitPosition + 1) :
    decUlen s = .raised .outOfBits (setPos (alignUp s.bitPosition) s) := by
  have hbit : readBit (align s) = .raised .outOfBits (align s) := readBit_short hl
  rw [decUlen, hbit, bind_raised]
  rfl

/-- The discriminator bit that every form begins with. -/
theorem readBit_firstOctet (ho : octetAt s.buffer (octets s.bitPosition) = some o)
    (hl : alignUp s.bitPosition + 1 ≤ s.bitLength) :
    readBit (align s) = .done (decide (128 ≤ o.toNat)) (setPos (alignUp s.bitPosition + 1) s) :=
  readBit_done ((bitAt_octet ho (j := 0) (by omega)).trans (congrArg some (testBit_seven o))) hl

/-- The second discriminator bit, of every form but the short one. -/
theorem readBit_firstOctet_second (ho : octetAt s.buffer (octets s.bitPosition) = some o)
    (hl : alignUp s.bitPosition + 2 ≤ s.bitLength) :
    readBit (setPos (alignUp s.bitPosition + 1) s) =
      .done (decide (64 ≤ o.toNat % 128)) (setPos (alignUp s.bitPosition + 2) s) :=
  readBit_done ((bitAt_octet ho (j := 1) (by omega)).trans (congrArg some (testBit_six o))) hl

/-- The short form: a first octet of 0 to 127 is the length. -/
theorem decUlen_short (ho : octetAt s.buffer (octets s.bitPosition) = some o) (h : o.toNat ≤ 0x7F)
    (hl : alignUp s.bitPosition + 8 ≤ s.bitLength) :
    decUlen s = .done o.toNat (setPos (alignUp s.bitPosition + 8) s) := by
  have hfield : rdBits s.buffer (alignUp s.bitPosition + 1) 7 = some o.toNat := by
    refine (rdBits_octet ho (j := 1) (n := 7) (by omega)).trans (congrArg some ?_)
    omega
  have hdisc : decide (128 ≤ o.toNat) = false := decide_eq_false (by omega)
  rw [decUlen, readBit_firstOctet ho (by omega), bind_done, hdisc, if_pos rfl]
  exact readBits_done (by omega) hl hfield

/-- The 2-octet form: 14 bits behind the two discriminator bits. -/
theorem decUlen_long {o' : Octet} (ho : octetAt s.buffer (octets s.bitPosition) = some o) (h : 0xC0 ≤ o.toNat)
    (ho' : octetAt s.buffer (octets s.bitPosition + 1) = some o') (hl : alignUp s.bitPosition + 16 ≤ s.bitLength) :
    decUlen s = .done (o.toNat % 64 * 256 + o'.toNat) (setPos (alignUp s.bitPosition + 16) s) := by
  have hlt' := o'.isLt
  have hhigh : rdBits s.buffer (alignUp s.bitPosition + 2) 6 = some (o.toNat % 64) := by
    refine (rdBits_octet ho (j := 2) (n := 6) (by omega)).trans (congrArg some ?_)
    omega
  have hlow : rdBits s.buffer (alignUp s.bitPosition + 2 + 6) 8 = some o'.toNat := by
    refine (rdBits_octet ho' (j := 0) (n := 8) (by omega)).trans (congrArg some ?_)
    omega
  have hdisc : decide (128 ≤ o.toNat) = true := decide_eq_true (by omega)
  have hdisc' : decide (64 ≤ o.toNat % 128) = true := decide_eq_true (by omega)
  rw [decUlen, readBit_firstOctet ho (by omega), bind_done, hdisc, if_neg (by simp),
    readBit_firstOctet_second ho (by omega), bind_done, hdisc', if_pos rfl]
  exact readBits_done (by omega) hl (rdBits_add hhigh hlow)

/-- The two discriminator bits of a 2-octet form stay consumed where its second octet is missing
(60_exceptions.md R150). -/
theorem decUlen_noSecondOctet (ho : octetAt s.buffer (octets s.bitPosition) = some o) (h : 0xC0 ≤ o.toNat)
    (hl : s.bitLength = alignUp s.bitPosition + 8) :
    decUlen s = .raised .outOfBits (setPos (alignUp s.bitPosition + 2) s) := by
  have hlt := o.isLt
  have hdisc : decide (128 ≤ o.toNat) = true := decide_eq_true (by omega)
  have hdisc' : decide (64 ≤ o.toNat % 128) = true := decide_eq_true (by omega)
  rw [decUlen, readBit_firstOctet ho (by omega), bind_done, hdisc, if_neg (by simp),
    readBit_firstOctet_second ho (by omega), bind_done, hdisc', if_pos rfl]
  refine readBits_short (by omega) ?_
  simp only [setPos_bitLength, setPos_bitPosition]
  omega

/-- The fragment form: the multiplier of 16384, before its test. -/
theorem decUlen_multiplier (ho : octetAt s.buffer (octets s.bitPosition) = some o) (h1 : 0x80 ≤ o.toNat)
    (h2 : o.toNat ≤ 0xBF) (hl : alignUp s.bitPosition + 8 ≤ s.bitLength) :
    decUlen s = if o.toNat % 64 < 1 ∨ o.toNat % 64 > 4 then
      .raised .invalidLengthMultiplier (setPos (alignUp s.bitPosition + 8) s)
      else .done (o.toNat % 64 * 16384) (setPos (alignUp s.bitPosition + 8) s) := by
  have hfield : rdBits s.buffer (alignUp s.bitPosition + 2) 6 = some (o.toNat % 64) := by
    refine (rdBits_octet ho (j := 2) (n := 6) (by omega)).trans (congrArg some ?_)
    omega
  have hread : readBits 6 (setPos (alignUp s.bitPosition + 2) s) =
      .done (o.toNat % 64) (setPos (alignUp s.bitPosition + 8) s) := readBits_done (by omega) hl hfield
  have hdisc : decide (128 ≤ o.toNat) = true := decide_eq_true (by omega)
  have hdisc' : decide (64 ≤ o.toNat % 128) = false := decide_eq_false (by omega)
  rw [decUlen, readBit_firstOctet ho (by omega), bind_done, hdisc, if_neg (by simp),
    readBit_firstOctet_second ho (by omega), bind_done, hdisc', if_neg (by simp), hread]
  rfl

/-- A bad multiplier is refused after its octet is consumed. -/
theorem decUlen_badMultiplier (ho : octetAt s.buffer (octets s.bitPosition) = some o)
    (h : o.toNat = 0x80 ∨ 0x85 ≤ o.toNat ∧ o.toNat ≤ 0xBF) (hl : alignUp s.bitPosition + 8 ≤ s.bitLength) :
    decUlen s = .raised .invalidLengthMultiplier (setPos (alignUp s.bitPosition + 8) s) := by
  rw [decUlen_multiplier ho (by omega) (by omega) hl, if_pos (by omega)]

end

/-- What `lengthAt` gives is what `DEC_ULEN` reads. -/
theorem decUlen_of_lengthAt {s : State} {l c : Nat} (h : lengthAt s.buffer (octets s.bitPosition) = some (l, c))
    (hl : alignUp s.bitPosition + 8 * c ≤ s.bitLength) :
    decUlen s = .done l (setPos (alignUp s.bitPosition + 8 * c) s) := by
  unfold lengthAt at h
  cases ho : octetAt s.buffer (octets s.bitPosition) with
  | none => simp [ho] at h
  | some o =>
    simp only [ho] at h
    split_ifs at h with hshort hlong hfrag
    · cases h
      exact decUlen_short ho hshort hl
    · obtain ⟨o', ho', e⟩ := Option.map_eq_some_iff.1 h
      cases e
      exact decUlen_long ho hlong ho' hl
    · cases h
      rw [decUlen_multiplier ho (by omega) (by omega) hl, if_neg (by omega)]

end Sys2Proof.Machine
end

section
/-! SUPPORT. The bodies of the decode commands as equations (41_whole_number.md R95 to R97; 42_length_determinant.md
R110). -/

namespace Sys2Proof.Machine

open Sys2Proof

/-! ### The last step of a decode, for any raw value before it -/

/-- A body that reads a raw value and adds `lb`, as a result, and where the sum overflows. -/
theorem yieldInt_addLb {r : Res Nat} {raw : Nat} {u : State} (h : r = .done raw u) (lb : Int) :
    (raw + lb ≤ 2 ^ 127 - 1 →
      (r.bind fun raw s => addLb raw lb s).yieldInt = .done (some (pat (raw + lb))) u) ∧
    (2 ^ 127 - 1 < raw + lb → (r.bind fun raw s => addLb raw lb s).yieldInt = .raised .valueOverflow u) := by
  subst h
  refine ⟨fun hle => ?_, fun hgt => ?_⟩
  · rw [bind_done, addLb_done u hle, yieldInt_done]
  · rw [bind_done, addLb_overflow u hgt, yieldInt_raised]

/-! ### The two forms of `DEC_NSLEN` (42_length_determinant.md R110) -/

theorem decNslen_small {s : State} {v : Nat} (hb : bitAt s.buffer s.bitPosition = some false)
    (hl : s.bitPosition + 7 ≤ s.bitLength) (hv : rdBits s.buffer (s.bitPosition + 1) 6 = some v) :
    decNslen s = .done (v + 1) (setPos (s.bitPosition + 7) s) := by
  have hread : readBits 6 (setPos (s.bitPosition + 1) s) = .done v (setPos (s.bitPosition + 7) s) :=
    readBits_done (by omega) hl hv
  rw [decNslen, readBit_done hb (by omega), bind_done, if_pos rfl, hread, bind_done]

theorem decNslen_small_short {s : State} (hb : bitAt s.buffer s.bitPosition = some false)
    (h1 : s.bitPosition + 1 ≤ s.bitLength) (h7 : s.bitLength < s.bitPosition + 7) :
    decNslen s = .raised .outOfBits (setPos (s.bitPosition + 1) s) := by
  have hread : readBits 6 (setPos (s.bitPosition + 1) s) = .raised .outOfBits (setPos (s.bitPosition + 1) s) :=
    readBits_short (by omega) h7
  rw [decNslen, readBit_done hb h1, bind_done, if_pos rfl, hread, bind_raised]

theorem decNslen_large {s : State} (hb : bitAt s.buffer s.bitPosition = some true)
    (h1 : s.bitPosition + 1 ≤ s.bitLength) : decNslen s = decUlen (setPos (s.bitPosition + 1) s) := by
  rw [decNslen, readBit_done hb h1, bind_done, if_neg (by simp)]

theorem decNslen_noFlag {s : State} (h : s.bitLength < s.bitPosition + 1) : decNslen s = .raised .outOfBits s := by
  rw [decNslen, readBit_short h, bind_raised]

/-! ### The bands of `DEC_CWN` (41_whole_number.md R93) -/

theorem readShortBand_bandOne {r : Nat} (h : r < 256) (s : State) :
    readShortBand r s = readBits (bitsNeededForRange r) s := if_pos h

theorem readShortBand_aligned {r w : Nat} (h : r = 256 ∧ w = 8 ∨ 256 < r ∧ w = 16) (s : State) :
    readShortBand r s = readBits w (align s) := by
  unfold readShortBand
  rcases h with ⟨rfl, rfl⟩ | ⟨hr, rfl⟩
  · rfl
  · rw [if_neg (by omega), if_neg (by omega)]

/-- A constrained length is, like a constrained whole number, the body of `DEC_CWN` below a range of 65536. -/
theorem commandBody_constrained {i : Instr} {lb ub : Int} (hi : i = .decCwn lb ub ∨ i = .decClen lb ub)
    (h1 : 1 ≤ range lb ub) (h2 : range lb ub < 65536) (s : State) :
    modeNeeded i = some .dec ∧
      commandBody i s = ((readShortBand (range lb ub).toNat s).bind fun raw s => addLb raw lb s).yieldInt := by
  rcases hi with rfl | rfl
  · exact ⟨rfl, congrArg Res.yieldInt (decCwn_shortBand h1 h2 s)⟩
  · exact ⟨rfl, congrArg Res.yieldInt ((decClen_eq_decCwn h2 s).trans (decCwn_shortBand h1 h2 s))⟩

/-- What `DEC_CWN` and `DEC_CLEN` answer by how their band ends. -/
theorem exec_constrained {i : Instr} {lb ub : Int} {s : State} (hi : i = .decCwn lb ub ∨ i = .decClen lb ub)
    (hm : s.mode = .dec) (h1 : 1 ≤ range lb ub) (h2 : range lb ub < 65536) :
    (∀ raw u, readShortBand (range lb ub).toNat s = .done raw u →
      (raw + lb ≤ 2 ^ 127 - 1 → exec i s = .next (endOk (some (pat (raw + lb))) u)) ∧
      (2 ^ 127 - 1 < raw + lb → exec i s = .next (raiseError .valueOverflow u))) ∧
    (∀ k u, readShortBand (range lb ub).toNat s = .raised k u → exec i s = .next (raiseError k u)) := by
  obtain ⟨hdec, hbody⟩ := commandBody_constrained hi h1 h2 s
  refine ⟨fun raw u hread => ?_, fun k u hread => ?_⟩
  · obtain ⟨hok, hover⟩ := yieldInt_addLb hread lb
    exact ⟨fun h => exec_of_done hm hdec (hbody.trans (hok h)), fun h => exec_of_raised hm hdec (hbody.trans (hover h))⟩
  · exact exec_of_raised hm hdec (hbody.trans (by rw [hread]; rfl))

/-- The length field of band 4 has the width for `bytes_needed`, and holds the length less 1
(41_whole_number.md R95). -/
theorem decClen_lengthField {r : Nat} (hlo : 65536 ≤ r) (hhi : r < 2 ^ 127) (s : State) :
    decClen 1 (bytesNeeded r) s =
      (readBits (bitsNeededForRange (bytesNeeded r)) s).bind fun raw s => addLb raw 1 s := by
  obtain ⟨h3, h16⟩ := range_bytesNeeded hlo hhi
  rw [decClen_eq_decCwn (by omega), decCwn_shortBand (by omega) (by omega), range_one] at *
  rw [Int.toNat_natCast, readShortBand_bandOne (by omega)]

/-- Band 4 behind its length field. -/
theorem readLongBand_field {r k : Nat} (hlo : 65536 ≤ r) (hhi : r < 2 ^ 127) {s u : State}
    (h : readBits (bitsNeededForRange (bytesNeeded r)) s = .done k u) :
    readLongBand r s = readBits (8 * (k + 2)) (align u) := by
  obtain ⟨-, -, hk, -⟩ := readBits_eq_done.1 h
  have hw := bitsNeeded_le (bytesNeeded r)
  have hlt : k < 2 ^ 8 := (rdBits_spec hk).1.trans_le (Nat.pow_le_pow_right (by omega) hw)
  have hlen : ((k : Int) + 1).toNat + 1 = k + 2 := by omega
  rw [readLongBand, decClen_lengthField hlo hhi, h, bind_done, addLb_done u (by omega), bind_done, hlen, Nat.mul_comm]

theorem readLongBand_noField {r : Nat} (hlo : 65536 ≤ r) (hhi : r < 2 ^ 127) {s u : State} {k : Status}
    (h : readBits (bitsNeededForRange (bytesNeeded r)) s = .raised k u) : readLongBand r s = .raised k u := by
  rw [readLongBand, decClen_lengthField hlo hhi, h]
  rfl

/-! ### Counted octets (41_whole_number.md R96, R97) -/

theorem readCountedOctets_of_length {s u : State} {l : Nat} (h : decUlen s = .done l u) :
    readCountedOctets s = readBits (8 * l) u := by
  rw [readCountedOctets, h, bind_done, Nat.mul_comm]

theorem readCountedOctets_of_raised {s u : State} {k : Status} (h : decUlen s = .raised k u) :
    readCountedOctets s = .raised k u := by
  rw [readCountedOctets, h, bind_raised]

/-- `DEC_UWN` and `DEC_SCWN` end with the error that their counted octets end with. -/
theorem exec_counted_of_raised {i : Instr} {lb : Int} {s u : State} {k : Status} (hi : i = .decUwn ∨ i = .decScwn lb)
    (hm : s.mode = .dec) (h : readCountedOctets s = .raised k u) : exec i s = .next (raiseError k u) := by
  rcases hi with rfl | rfl
  · exact exec_of_raised hm rfl (congrArg Res.yieldNat h)
  · exact exec_of_raised hm rfl (congrArg (fun r => (r.bind fun raw s => addLb raw lb s).yieldInt) h)

end Sys2Proof.Machine
end

section
/-! The statements on the decode commands (40_bit_cursor.md section 3; 41_whole_number.md section 2;
42_length_determinant.md section 2). -/

namespace Sys2Proof.Machine

open Sys2Proof

/-- Settles O31: `ReadBit` at the cursor, and the pattern of a bit. -/
theorem decBoolReadsTheNextBit : Obligations.DecBoolReadsTheNextBit := by
  intro s b hm
  refine ⟨fun hl hb => ?_, fun hl => exec_of_raised hm rfl ?_⟩
  · have hpat : pat b.toNat = if b then 1 else 0 := by cases b <;> rfl
    have hbody : commandBody .decBool s = .done (some (pat b.toNat)) (setPos (s.bitPosition + 1) s) := by
      rw [commandBody, readBit_done hb hl]
      rfl
    rw [← hpat]
    exact exec_of_done hm rfl hbody
  · rw [commandBody, readBit_short hl]
    rfl

/-- Settles O32: `ReadBits` tests the width, then the bound, and reads the number its bits spell. -/
theorem decBitsReadsTheNextBits : Obligations.DecBitsReadsTheNextBits := by
  intro n v s hm
  refine ⟨fun hn hl hv hbits => ?_, fun hn => exec_decBits_tooWide hn hm, fun hn hl => ?_⟩
  · exact exec_of_done hm rfl (congrArg Res.yieldNat (readBits_done hn hl (rdBits_of_bits hv hbits)))
  · exact exec_of_raised hm rfl (congrArg Res.yieldNat (readBits_short hn hl))

/-- Settles O33: the cursor moves to `alignUp`. -/
theorem decAlignMovesToTheNextOctet : Obligations.DecAlignMovesToTheNextOctet := by
  intro s hm
  exact ⟨alignUp s.bitPosition, exec_of_done hm rfl rfl, alignUp_mod _, le_alignUp _, alignUp_lt _⟩

/-- Settles O34: with enough bits, or where it must succeed, `ADVANCE` is `Skip`; else the policy decides. -/
theorem advanceSkipsOrObeysThePolicy : Obligations.AdvanceSkipsOrObeysThePolicy := by
  intro count s hm
  refine ⟨fun hl f => ?_, fun hl => ⟨?_, fun hp => ?_, fun hp => ?_⟩⟩
  · have hbody : advanceBody count f s = .done () (setPos (s.bitPosition + count) s) := by
      rw [advanceBody, if_pos (.inr hl)]
      exact skip_eq_done.2 ⟨hl, rfl⟩
    exact exec_of_done hm rfl (congrArg Res.yieldNone hbody)
  · have hbody : advanceBody count true s = .raised .outOfBits s := by
      rw [advanceBody, if_pos (.inl rfl)]
      exact skip_eq_raised.2 ⟨hl, rfl, rfl⟩
    exact exec_of_raised hm rfl (congrArg Res.yieldNone hbody)
  · have hbody : advanceBody count false s = .done () s := by
      rw [advanceBody, if_neg (by simp; omega), hp]
    exact exec_of_done hm rfl (congrArg Res.yieldNone hbody)
  · have hbody : advanceBody count false s = .done () (setPos s.bitLength s) := by
      rw [advanceBody, if_neg (by simp; omega), hp]
    exact exec_of_done hm rfl (congrArg Res.yieldNone hbody)

/-- Settles O38: the rows of the table are the forms of the first octet. -/
theorem decUlenReadsTheTableOfFirstOctets : Obligations.DecUlenReadsTheTableOfFirstOctets := by
  intro s hm
  exact ⟨fun l c hlen hl => exec_of_done hm rfl (congrArg Res.yieldNat (decUlen_of_lengthAt hlen hl)),
    fun o ho hbad hl => exec_of_raised hm rfl (congrArg Res.yieldNat (decUlen_badMultiplier ho hbad hl))⟩

/-- Settles O39: the failing primitive is the first bit, or the 14 bits behind the discriminator bits. -/
theorem decUlenShortInputKeepsWhatItConsumed : Obligations.DecUlenShortInputKeepsWhatItConsumed := by
  intro s hm
  exact ⟨fun hl => exec_of_raised hm rfl (congrArg Res.yieldNat (decUlen_noOctet hl)),
    fun o ho h hl => exec_of_raised hm rfl (congrArg Res.yieldNat (decUlen_noSecondOctet ho h hl))⟩

/-- Settles O40: the flag chooses six bits behind it, or `DEC_ULEN` from behind it. -/
theorem decNslenReadsBothForms : Obligations.DecNslenReadsBothForms := by
  intro s hm
  refine ⟨fun v hb hl hv => ?_, fun l c hb hlen hl => ?_, fun hb h1 => ?_, fun hl => ?_, fun hb h1 h7 => ?_⟩
  · exact exec_of_done hm rfl (congrArg Res.yieldNat (decNslen_small hb hl hv))
  · have h1 : s.bitPosition + 1 ≤ s.bitLength := (le_alignUp _).trans ((Nat.le_add_right _ _).trans hl)
    have hread := decUlen_of_lengthAt (s := setPos (s.bitPosition + 1) s) hlen hl
    exact exec_of_done hm rfl (congrArg Res.yieldNat ((decNslen_large hb h1).trans hread))
  · calc exec .decNslen s
        = finish (decNslen s).yieldNat := exec_eq_finish hm rfl
      _ = finish (decUlen (setPos (s.bitPosition + 1) s)).yieldNat := by rw [decNslen_large hb h1]
      _ = exec .decUlen (setPos (s.bitPosition + 1) s) :=
        (exec_eq_finish (i := .decUlen) (s := setPos (s.bitPosition + 1) s) hm rfl).symm
  · exact exec_of_raised hm rfl (congrArg Res.yieldNat (decNslen_noFlag hl))
  · exact exec_of_raised hm rfl (congrArg Res.yieldNat (decNslen_small_short hb h1 h7))

/-- Settles O45: band 1 is one unaligned field of the table's width. -/
theorem decCwnBandOne : Obligations.DecCwnBandOne := by
  intro i lb ub w s hi hm h1 h2 hw
  have hband : readShortBand (range lb ub).toNat s = readBits w s := hw ▸ readShortBand_bandOne (by omega) s
  have hw128 : w ≤ 128 := hw ▸ (bitsNeeded_le _).trans (by norm_num)
  obtain ⟨hdone, hraised⟩ := exec_constrained hi hm h1 (by omega)
  exact ⟨fun raw hl hread => hdone raw _ (hband.trans (readBits_done hw128 hl hread)),
    fun hl => hraised _ _ (hband.trans (readBits_short hw128 hl))⟩

/-- Settles O46: bands 2 and 3 are one field behind the alignment. -/
theorem decCwnBandsTwoAndThree : Obligations.DecCwnBandsTwoAndThree := by
  intro i lb ub w q s hi hm hr hq
  subst hq
  have hband : readShortBand (range lb ub).toNat s = readBits w (align s) := readShortBand_aligned (by omega) s
  have hw128 : w ≤ 128 := by omega
  obtain ⟨hdone, hraised⟩ := exec_constrained hi hm (by omega) (by omega)
  exact ⟨fun raw hl hread => hdone raw _ (hband.trans (readBits_done hw128 hl hread)),
    fun hl => hraised _ _ (hband.trans (readBits_short hw128 hl))⟩

/-- Settles O47: band 4 is its length field and the octets it counts, behind the alignment. -/
theorem decCwnBandFour : Obligations.DecCwnBandFour := by
  intro lb ub lw q s hm h1 h2 hlw hq
  subst hq hlw
  have hlo : 65536 ≤ (range lb ub).toNat := by omega
  have hhi : (range lb ub).toNat < 2 ^ 127 := by omega
  have hw128 : bitsNeededForRange (bytesNeeded (range lb ub).toNat) ≤ 128 := (bitsNeeded_le _).trans (by norm_num)
  have hbody : commandBody (.decCwn lb ub) s =
      ((readLongBand (range lb ub).toNat s).bind fun raw s => addLb raw lb s).yieldInt :=
    congrArg Res.yieldInt (decCwn_longBand h1 h2 s)
  have fails : ∀ {k u}, readLongBand (range lb ub).toNat s = .raised k u →
      exec (.decCwn lb ub) s = .next (raiseError k u) :=
    fun h => exec_of_raised hm rfl (hbody.trans (by rw [h]; rfl))
  refine ⟨fun hl => fails (readLongBand_noField hlo hhi (readBits_short hw128 hl)), fun k hl hk => ?_⟩
  have hfield : readLongBand (range lb ub).toNat s =
      readBits (8 * (k + 2))
        (setPos (alignUp (s.bitPosition + bitsNeededForRange (bytesNeeded (range lb ub).toNat))) s) :=
    readLongBand_field hlo hhi (readBits_done hw128 hl hk)
  refine ⟨fun raw hk14 hl' hraw => ?_, fun hk14 hl' => ?_, fun hk14 => ?_⟩
  · obtain ⟨hok, hover⟩ := yieldInt_addLb (hfield.trans (readBits_done (by omega) hl' hraw)) lb
    exact ⟨fun h => exec_of_done hm rfl (hbody.trans (hok h)), fun h => exec_of_raised hm rfl (hbody.trans (hover h))⟩
  · exact fails (hfield.trans (readBits_short (by omega) hl'))
  · exact fails (hfield.trans (readBits_tooWide (by omega)))

/-- Settles O48: both read the determinant and the octets it counts, and an error of either read is theirs. -/
theorem decScwnAndUwnReadCountedOctets : Obligations.DecScwnAndUwnReadCountedOctets := by
  intro lb s hm
  refine ⟨fun l c p hlen hp hl => ?_, fun i hi => ?_⟩
  · subst hp
    have hocts : readCountedOctets s = readBits (8 * l) (setPos (alignUp s.bitPosition + 8 * c) s) :=
      readCountedOctets_of_length (decUlen_of_lengthAt hlen hl)
    have fails : ∀ {k u}, readBits (8 * l) (setPos (alignUp s.bitPosition + 8 * c) s) = .raised k u →
        exec .decUwn s = .next (raiseError k u) ∧ exec (.decScwn lb) s = .next (raiseError k u) :=
      fun h => ⟨exec_counted_of_raised (lb := lb) (.inl rfl) hm (hocts.trans h),
        exec_counted_of_raised (.inr rfl) hm (hocts.trans h)⟩
    refine ⟨fun raw h16 hl' hraw => ?_, fun h16 hl' => fails (readBits_short (by omega) hl'),
      fun h16 => fails (readBits_tooWide (by omega))⟩
    have hread := hocts.trans (readBits_done (by omega) hl' hraw)
    obtain ⟨hok, hover⟩ := yieldInt_addLb hread lb
    exact ⟨exec_of_done hm rfl (congrArg Res.yieldNat hread), fun h => exec_of_done hm rfl (hok h),
      fun h => exec_of_raised hm rfl (hover h)⟩
  · have fails : ∀ {k u}, decUlen s = .raised k u → exec i s = .next (raiseError k u) :=
      fun h => exec_counted_of_raised hi hm (readCountedOctets_of_raised h)
    refine ⟨fun t k he hr hk => ?_, fun o ho hbad hl => fails (decUlen_badMultiplier ho hbad hl),
      fun hl => fails (decUlen_noOctet hl), fun o ho h hl => fails (decUlen_noSecondOctet ho h hl)⟩
    rcases exec_cases (m := .dec) rfl he with ⟨hne, -⟩ | ⟨-, v, u, -, rfl⟩ | ⟨-, k', u, hb, rfl⟩
    · exact absurd hm hne
    · cases hr
      exact absurd rfl hk
    · rcases bind_eq_raised.1 hb with hraised | ⟨a, u', -, e⟩
      · exact fails hraised
      · cases e

end Sys2Proof.Machine
end

section
/-! SUPPORT. Fields in the buffer that an encode body wrote: fields split and joined, pad bits, and the determinant that
stands in one or two octets (20_memory.md R32; 42_length_determinant.md R113). -/

namespace Sys2Proof.Machine

open Sys2Proof

/-- One field taken apart into two side by side. -/
theorem rdBits_split {m : Memory} {p a b x y : Nat} (h : rdBits m p (a + b) = some (x * 2 ^ b + y)) (hy : y < 2 ^ b) :
    rdBits m p a = some x ∧ rdBits m (p + a) b = some y := by
  obtain ⟨hlt, hbits⟩ := rdBits_spec h
  have hx : x < 2 ^ a := by
    rw [pow_add] at hlt
    exact Nat.lt_of_mul_lt_mul_right ((Nat.le_add_right _ _).trans_lt hlt)
  have hdiv : (x * 2 ^ b + y) / 2 ^ b = x := by
    rw [Nat.mul_comm, Nat.mul_add_div (Nat.two_pow_pos b), Nat.div_eq_of_lt hy, Nat.add_zero]
  have hmod : (x * 2 ^ b + y) % 2 ^ b = y := by
    rw [Nat.mul_comm, Nat.mul_add_mod, Nat.mod_eq_of_lt hy]
  generalize x * 2 ^ b + y = v at *
  subst hdiv hmod
  refine ⟨rdBits_of_bits hx fun k hk => ?_, rdBits_of_bits hy fun k hk => ?_⟩
  · have hidx : a - 1 - k + b = a + b - 1 - k := by omega
    rw [hbits k (by omega), Nat.testBit_div_two_pow, hidx]
  · have hidx : a + b - 1 - (a + k) = b - 1 - k := by omega
    have hlow : b - 1 - k < b := by omega
    rw [Nat.add_assoc, hbits (a + k) (by omega), Nat.testBit_mod_two_pow, hidx]
    simp [hlow]

theorem bitAt_of_rdBits_one {m : Memory} {p : Nat} {b : Bool} (h : rdBits m p 1 = some b.toNat) :
    bitAt m p = some b := by
  rw [rdBits_one] at h
  obtain ⟨c, hc, e⟩ := Option.map_eq_some_iff.1 h
  have hcb : c = b := by
    revert e
    cases c <;> cases b <;> decide
  rw [hc, hcb]

theorem lengthAt_of_short {m : Memory} {k l : Nat} (h : rdBits m (8 * k) 8 = some l) (hl : l ≤ 127) :
    lengthAt m k = some (l, 1) := by
  obtain ⟨o, ho, rfl⟩ := octetAt_of_rdBits h
  simp only [lengthAt, ho]
  rw [if_pos hl]

theorem lengthAt_of_fragment {m : Memory} {k f : Nat} (h : rdBits m (8 * k) 8 = some (128 + f)) (h1 : 1 ≤ f)
    (h4 : f ≤ 4) : lengthAt m k = some (f * 16384, 1) := by
  obtain ⟨o, ho, hf⟩ := octetAt_of_rdBits h
  have hmod : (128 + f) % 64 = f := by omega
  simp only [lengthAt, ho, hf]
  rw [if_neg (by omega), if_neg (by omega), if_pos (by omega), hmod]

theorem lengthAt_of_long {m : Memory} {k l : Nat} (h : rdBits m (8 * k) 16 = some (49152 + l)) (hl : l < 16384) :
    lengthAt m k = some (l, 2) := by
  have hsplit : 49152 + l = (192 + l / 256) * 2 ^ 8 + l % 256 := by omega
  rw [hsplit] at h
  obtain ⟨hhigh, hlow⟩ := rdBits_split (a := 8) (b := 8) h (Nat.mod_lt _ (by norm_num))
  obtain ⟨o, ho, hoval⟩ := octetAt_of_rdBits hhigh
  obtain ⟨o', ho', hoval'⟩ := octetAt_of_rdBits (k := k + 1) hlow
  have hval : (192 + l / 256) % 64 * 256 + l % 256 = l := by omega
  simp only [lengthAt, ho, ho', hoval, hoval', Option.map_some]
  rw [if_neg (by omega), if_pos (by omega), hval]

/-- A determinant depends on the octets it takes and on nothing else. -/
theorem lengthAt_congr {m m' : Memory} {k l c : Nat} (h : lengthAt m k = some (l, c))
    (hm : ∀ j, j < c → octetAt m' (k + j) = octetAt m (k + j)) : lengthAt m' k = some (l, c) := by
  cases ho : octetAt m k with
  | none => simp [lengthAt, ho] at h
  | some o =>
    have hfirst : 0 < c → octetAt m' k = some o := fun hc => (hm 0 hc).trans ho
    simp only [lengthAt, ho] at h
    split_ifs at h with hshort hlong hfrag
    · cases h
      simp only [lengthAt, hfirst (by omega), if_pos hshort]
    · obtain ⟨o', ho', e⟩ := Option.map_eq_some_iff.1 h
      cases e
      have hsecond : octetAt m' (k + 1) = some o' := (hm 1 (by omega)).trans ho'
      simp only [lengthAt, hfirst (by omega), hsecond, if_neg hshort, if_pos hlong, Option.map_some]
    · cases h
      simp only [lengthAt, hfirst (by omega), if_neg hshort, if_neg hlong, if_pos hfrag]

end Sys2Proof.Machine
end

section
/-! SUPPORT. What an encode body leaves behind it: the cursor, the fields it wrote, and the fields written before, which
stay (10_state.md R15; 40_bit_cursor.md R73 to R75). -/

namespace Sys2Proof.Machine

open Sys2Proof

/-- `t` extends the encode pass `s`, is itself a sound pass, and its cursor stands at `q`. -/
structure Grew (s t : State) (q : Nat) : Prop where
  ext : Extended s t
  pass : EncPass t
  pos : t.bitPosition = q

theorem Grew.trans {s t u : State} {p q : Nat} (h : Grew s t p) (h' : Grew t u q) : Grew s u q :=
  ⟨h.ext.trans h'.ext, h'.pass, h'.pos⟩

theorem Grew.capBits {s t : State} {q : Nat} (h : Grew s t q) : capBits t = capBits s := by
  obtain ⟨hcap, -⟩ := h.ext.frame
  simp only [Machine.capBits, hcap]

/-- What was written before stays. -/
theorem Grew.bitAt {s t : State} {q : Nat} (hs : EncPass s) (h : Grew s t q) {i : Nat} (hi : i < s.bitPosition) :
    bitAt t.buffer i = Machine.bitAt s.buffer i := h.ext.keepsBits hs i (hs.atEnd ▸ hi)

theorem Grew.rdBits {s t : State} {q : Nat} (hs : EncPass s) (h : Grew s t q) {p n : Nat}
    (hpn : p + n ≤ s.bitPosition) : rdBits t.buffer p n = Machine.rdBits s.buffer p n :=
  rdBits_congr fun _ _ hi => h.bitAt hs (by omega)

theorem Grew.padZero {s t : State} {q : Nat} (hs : EncPass s) (h : Grew s t q) {p p' : Nat}
    (hp : p' ≤ s.bitPosition) (hpad : PadZero s.buffer p p') : PadZero t.buffer p p' :=
  fun i h1 h2 => (h.bitAt hs (by omega)).trans (hpad i h1 h2)

theorem Grew.octetAt {s t : State} {q : Nat} (hs : EncPass s) (h : Grew s t q) {k : Nat}
    (hk : 8 * k + 8 ≤ s.bitPosition) : octetAt t.buffer k = Machine.octetAt s.buffer k :=
  h.ext.keepsOctets hs k (.inl (by omega)) (.inl (by unfold octets; omega))

/-- An encode command that ends `OK` behind such a body has done what `WroteTo` says. -/
theorem Grew.wroteTo {s t : State} {q : Nat} (hs : EncPass s) (h : Grew s t q) : WroteTo s (endOk none t) q where
  only := by
    have e := h.ext.eq_appended hs
    rw [h.pos] at e
    exact congrArg (fun u : State => { u with response := some ⟨.ok, none⟩ }) e
  bitsBelow := fun _ hi => h.bitAt hs hi
  octetsBelow := fun k hk => h.ext.keepsOctets hs k (.inl hk) (.inl (by unfold octets; omega))
  octetsBeyond := fun k hk => h.ext.keepsOctets hs k (.inr (h.pos ▸ hk)) (.inr (h.pos ▸ hk))

/-! ### Writes of one field -/

/-- With room for `n` bits, `w` writes the `n`-bit field `v` at the cursor. -/
def Writes (w : State → Res Unit) (n v : Nat) : Prop :=
  ∀ s, EncPass s → s.bitPosition + n ≤ capBits s →
    ∃ t, w s = .done () t ∧ Grew s t (s.bitPosition + n) ∧ rdBits t.buffer s.bitPosition n = some v

theorem appendBits_grew {n v : Nat} {s : State} (hs : EncPass s) (hcap : s.bitPosition + n ≤ capBits s)
    (hv : v < 2 ^ n) :
    ∃ t, appendBits n v s = .done () t ∧ Grew s t (s.bitPosition + n) ∧ rdBits t.buffer s.bitPosition n = some v := by
  obtain ⟨m, hm, hdone⟩ := appendBits_isDone (n := n) (v := v) hs
  have hext := appendBits_extended hm fun _ => hcap
  exact ⟨_, hdone, ⟨hext, hext.encPass hs, rfl⟩, rdBits_of_wrBits hm hv⟩

theorem writes_writeBits {n v : Nat} (hn : n ≤ 128) (hv : v < 2 ^ n) : Writes (writeBits n v) n v := by
  intro s hs hcap
  have happend : writeBits n v s = appendBits n v s := by
    unfold writeBits maxN
    rw [if_neg (by omega), if_neg (by omega), if_neg (by omega)]
  rw [happend]
  exact appendBits_grew hs hcap hv

theorem writes_writeBit (b : Bool) : Writes (writeBit b) 1 b.toNat := by
  intro s hs hcap
  have happend : writeBit b s = appendBits 1 b.toNat s := if_neg (by omega)
  rw [happend]
  exact appendBits_grew hs hcap (by cases b <;> decide)

/-- Two writes one after the other write their fields side by side. -/
theorem Writes.bind {w w' : State → Res Unit} {n v n' v' : Nat} (h : Writes w n v) (h' : Writes w' n' v') :
    Writes (fun s => (w s).bind fun _ s => w' s) (n + n') (v * 2 ^ n' + v') := by
  intro s hs hcap
  obtain ⟨t, hw, hgrew, hfield⟩ := h s hs (by omega)
  have hroom : t.bitPosition + n' ≤ capBits t := by rw [hgrew.pos, hgrew.capBits]; omega
  obtain ⟨u, hw', hgrew', hfield'⟩ := h' t hgrew.pass hroom
  rw [hgrew.pos] at hgrew' hfield'
  have hkept : rdBits u.buffer s.bitPosition n = some v :=
    (hgrew'.rdBits hgrew.pass hgrew.pos.ge).trans hfield
  exact ⟨u, (congrArg (Res.bind · fun _ s => w' s) hw).trans hw', Nat.add_assoc _ n n' ▸ hgrew.trans hgrew',
    rdBits_add hkept hfield'⟩

theorem writeBits_full {n v : Nat} {s : State} (hn : n ≤ 128) (hv : v < 2 ^ n) (h : capBits s < s.bitPosition + n) :
    writeBits n v s = .raised .outOfBits s :=
  writeBits_eq_raised.2 ⟨rfl, .inr (.inr ⟨hn, hv, h, rfl⟩)⟩

theorem writeBit_full {b : Bool} {s : State} (h : capBits s < s.bitPosition + 1) :
    writeBit b s = .raised .outOfBits s := writeBit_eq_raised.2 ⟨h, rfl, rfl⟩

/-! ### Writes behind the alignment -/

theorem writeAlign_grew {s : State} (hs : EncPass s) :
    ∃ t, writeAlign s = .done () t ∧ Grew s t (alignUp s.bitPosition) ∧
      PadZero t.buffer s.bitPosition (alignUp s.bitPosition) := by
  have hcap : s.bitPosition + (8 - s.bitPosition % 8) % 8 ≤ capBits s := by
    have hlen := hs.lenLeCap
    rw [hs.atEnd] at hlen
    unfold capBits at *
    omega
  obtain ⟨t, hw, hgrew, hfield⟩ := appendBits_grew (v := 0) hs hcap (Nat.two_pow_pos _)
  rw [← alignUp_eq_add] at hgrew
  refine ⟨t, hw, hgrew, fun i h1 h2 => ?_⟩
  rw [alignUp_eq_add] at h2
  obtain ⟨-, hbits⟩ := rdBits_spec hfield
  obtain ⟨k, rfl⟩ := Nat.exists_eq_add_of_le h1
  rw [hbits k (by omega), Nat.zero_testBit]

/-- A field behind the alignment, with room for it. -/
theorem writeAlign_then_writes {w : State → Res Unit} {n v : Nat} (h : Writes w n v) {s : State} (hs : EncPass s)
    (hcap : alignUp s.bitPosition + n ≤ capBits s) :
    ∃ t, ((writeAlign s).bind fun _ s => w s) = .done () t ∧ Grew s t (alignUp s.bitPosition + n) ∧
      PadZero t.buffer s.bitPosition (alignUp s.bitPosition) ∧ rdBits t.buffer (alignUp s.bitPosition) n = some v := by
  obtain ⟨t, halign, hgrew, hpad⟩ := writeAlign_grew hs
  obtain ⟨u, hw, hgrew', hfield⟩ := h t hgrew.pass (by rw [hgrew.pos, hgrew.capBits]; exact hcap)
  rw [hgrew.pos] at hgrew' hfield
  exact ⟨u, by rw [halign, bind_done, hw], hgrew.trans hgrew', hgrew'.padZero hgrew.pass hgrew.pos.ge hpad, hfield⟩

/-- A body behind the alignment that writes nothing: the padding stays (60_exceptions.md R150). -/
theorem writeAlign_then_raises {w : State → Res Unit} {s : State} (hs : EncPass s)
    (h : ∀ t, Grew s t (alignUp s.bitPosition) → w t = .raised .outOfBits t) :
    ∃ t, ((writeAlign s).bind fun _ s => w s) = .raised .outOfBits t ∧ Grew s t (alignUp s.bitPosition) ∧
      PadZero t.buffer s.bitPosition (alignUp s.bitPosition) := by
  obtain ⟨t, halign, hgrew, hpad⟩ := writeAlign_grew hs
  exact ⟨t, by rw [halign, bind_done, h t hgrew], hgrew, hpad⟩

end Sys2Proof.Machine
end

section
/-! SUPPORT. The bodies of the encode commands as equations: what they write with room, and what stays where the room
ends (41_whole_number.md R98 to R100; 42_length_determinant.md R114, R116; 60_exceptions.md R150). -/

namespace Sys2Proof.Machine

open Sys2Proof

/-! ### `ENC_ULEN` (42_length_determinant.md R116) -/

theorem encUlen_short {l : Nat} (h : l ≤ 127) (s : State) :
    encUlen l s = (writeAlign s).bind fun _ s => (writeBit false s).bind fun _ s => writeBits 7 l s := by
  rw [encUlen, if_neg (not_not.2 (.inl (by omega)))]
  simp only [if_pos h]

theorem encUlen_long {l : Nat} (h1 : 128 ≤ l) (h2 : l ≤ 16383) (s : State) :
    encUlen l s = (writeAlign s).bind fun _ s =>
      (writeBit true s).bind fun _ s => (writeBit true s).bind fun _ s => writeBits 14 l s := by
  have hlong : ¬l ≤ 127 := by omega
  rw [encUlen, if_neg (not_not.2 (.inl h2))]
  simp only [if_neg hlong, if_pos h2]

theorem encUlen_fragment {f : Nat} (h1 : 1 ≤ f) (h4 : f ≤ 4) (s : State) :
    encUlen (f * 16384) s = (writeAlign s).bind fun _ s =>
      (writeBit true s).bind fun _ s => (writeBit false s).bind fun _ s => writeBits 6 f s := by
  have hok : ULenOK (f * 16384) := by omega
  have hlong : ¬f * 16384 ≤ 127 := by omega
  have hfrag : ¬f * 16384 ≤ 16383 := by omega
  have hdiv : f * 16384 / fragmentUnit = f := Nat.mul_div_cancel f (by decide)
  rw [encUlen, if_neg (not_not.2 hok)]
  simp only [if_neg hlong, if_neg hfrag, hdiv]

/-- The three forms of a length that one determinant can carry. -/
theorem ulenOK_cases {l : Nat} (h : ULenOK l) :
    l ≤ 127 ∨ (128 ≤ l ∧ l ≤ 16383) ∨ ∃ f, 1 ≤ f ∧ f ≤ 4 ∧ l = f * 16384 := by
  by_cases hl : l ≤ 16383
  · omega
  · exact .inr (.inr ⟨l / 16384, by omega, by omega, by omega⟩)

theorem lengthOctets_eq_one_of_le {l : Nat} (h : l ≤ 127) : lengthOctets l = 1 := if_neg (by omega)

theorem lengthOctets_eq_two {l : Nat} (h1 : 128 ≤ l) (h2 : l ≤ 16383) : lengthOctets l = 2 := if_pos ⟨h1, h2⟩

theorem lengthOctets_fragment {f : Nat} (h : 1 ≤ f) : lengthOctets (f * 16384) = 1 := if_neg (by omega)

theorem lengthOctets_eq_two_iff {l : Nat} : lengthOctets l = 2 ↔ 128 ≤ l ∧ l ≤ 16383 := by
  unfold lengthOctets
  split_ifs with h <;> simp [h]

/-- With room for it the shortest form is written. -/
theorem encUlen_room {l : Nat} (hok : ULenOK l) {s : State} (hs : EncPass s)
    (hcap : alignUp s.bitPosition + 8 * lengthOctets l ≤ capBits s) :
    ∃ t, encUlen l s = .done () t ∧ Grew s t (alignUp s.bitPosition + 8 * lengthOctets l) ∧
      PadZero t.buffer s.bitPosition (alignUp s.bitPosition) ∧
      lengthAt t.buffer (octets s.bitPosition) = some (l, lengthOctets l) := by
  rcases ulenOK_cases hok with h | ⟨h1, h2⟩ | ⟨f, h1, h4, rfl⟩
  · rw [lengthOctets_eq_one_of_le h] at hcap ⊢
    have hw := (writes_writeBit false).bind (writes_writeBits (n := 7) (v := l) (by norm_num) (by omega))
    obtain ⟨t, hdone, hgrew, hpad, hfield⟩ := writeAlign_then_writes hw hs hcap
    refine ⟨t, (encUlen_short h s).trans hdone, hgrew, hpad, lengthAt_of_short (hfield.trans ?_) h⟩
    simp
  · rw [lengthOctets_eq_two h1 h2] at hcap ⊢
    have hw := (writes_writeBit true).bind
      ((writes_writeBit true).bind (writes_writeBits (n := 14) (v := l) (by norm_num) (by omega)))
    obtain ⟨t, hdone, hgrew, hpad, hfield⟩ := writeAlign_then_writes hw hs hcap
    refine ⟨t, (encUlen_long h1 h2 s).trans hdone, hgrew, hpad,
      lengthAt_of_long (hfield.trans (congrArg some ?_)) (by omega)⟩
    simp only [Bool.toNat_true]
    omega
  · rw [lengthOctets_fragment h1] at hcap ⊢
    have hw := (writes_writeBit true).bind
      ((writes_writeBit false).bind (writes_writeBits (n := 6) (v := f) (by norm_num) (by omega)))
    obtain ⟨t, hdone, hgrew, hpad, hfield⟩ := writeAlign_then_writes hw hs hcap
    refine ⟨t, (encUlen_fragment h1 h4 s).trans hdone, hgrew, hpad, lengthAt_of_fragment (hfield.trans ?_) h1 h4⟩
    simp

/-- In a full buffer the padding stays. -/
theorem encUlen_full {l : Nat} (hok : ULenOK l) {s : State} (hs : EncPass s)
    (hcap : capBits s < alignUp s.bitPosition + 8) :
    ∃ t, encUlen l s = .raised .outOfBits t ∧ Grew s t (alignUp s.bitPosition) ∧
      PadZero t.buffer s.bitPosition (alignUp s.bitPosition) := by
  have full : ∀ (b : Bool) (w : State → Res Unit) (t : State), Grew s t (alignUp s.bitPosition) →
      ((writeBit b t).bind fun _ s => w s) = .raised .outOfBits t := by
    intro b w t hgrew
    have haligned := alignUp_mod s.bitPosition
    have hbit : capBits t < t.bitPosition + 1 := by
      rw [hgrew.pos, hgrew.capBits]
      unfold capBits at *
      omega
    rw [writeBit_full hbit, bind_raised]
  rcases ulenOK_cases hok with h | ⟨h1, h2⟩ | ⟨f, h1, h4, rfl⟩
  · simp only [encUlen_short h]
    exact writeAlign_then_raises hs (full false _)
  · simp only [encUlen_long h1 h2]
    exact writeAlign_then_raises hs (full true _)
  · simp only [encUlen_fragment h1 h4]
    exact writeAlign_then_raises hs (full true _)

theorem bind_assoc {α β γ : Type} (r : Res α) (f : α → State → Res β) (g : β → State → Res γ) :
    (r.bind f).bind g = r.bind fun a s => (f a s).bind g := by
  cases r <;> rfl

/-- Where only the second octet is missing, the discriminator bits stay too. -/
theorem encUlen_noSecondOctet {l : Nat} (hl : lengthOctets l = 2) {s : State} (hs : EncPass s)
    (hcap : capBits s = alignUp s.bitPosition + 8) :
    ∃ t, encUlen l s = .raised .outOfBits t ∧ Grew s t (alignUp s.bitPosition + 2) ∧
      PadZero t.buffer s.bitPosition (alignUp s.bitPosition) ∧ rdBits t.buffer (alignUp s.bitPosition) 2 = some 3 := by
  obtain ⟨h1, h2⟩ := lengthOctets_eq_two_iff.1 hl
  have hw := (writes_writeBit true).bind (writes_writeBit true)
  obtain ⟨t, hdone, hgrew, hpad, hfield⟩ := writeAlign_then_writes hw hs (by omega)
  have hfull : writeBits 14 l t = .raised .outOfBits t := by
    refine writeBits_full (by norm_num) (by omega) ?_
    rw [hgrew.pos, hgrew.capBits]
    omega
  have hsteps : encUlen l s = ((writeAlign s).bind fun _ s => (writeBit true s).bind fun _ s => writeBit true s).bind
      fun _ s => writeBits 14 l s := by
    rw [encUlen_long h1 h2, bind_assoc]
    simp only [bind_assoc]
  exact ⟨t, by rw [hsteps, hdone, bind_done, hfull], hgrew, hpad, hfield⟩

/-! ### The bands of `ENC_CWN` (41_whole_number.md R98) -/

theorem writeShortBand_bandOne {r : Nat} (h : r < 256) (v : Nat) (s : State) :
    writeShortBand r v s = writeBits (bitsNeededForRange r) v s := if_pos h

theorem writeShortBand_aligned {r w : Nat} (h : r = 256 ∧ w = 8 ∨ 256 < r ∧ w = 16) (v : Nat) (s : State) :
    writeShortBand r v s = (writeAlign s).bind fun _ s => writeBits w v s := by
  unfold writeShortBand
  rcases h with ⟨rfl, rfl⟩ | ⟨hr, rfl⟩
  · rfl
  · rw [if_neg (by omega), if_neg (by omega)]

/-- A constrained length is, like a constrained whole number, one of the bands 1 to 3 below a range of 65536. -/
theorem commandBody_constrained_enc {i : Instr} {value lb ub : Int}
    (hi : i = .encCwn value lb ub ∨ i = .encClen value lb ub) (hl : lb ≤ value) (hu : value ≤ ub)
    (hr : range lb ub < 65536) (s : State) :
    modeNeeded i = some .enc ∧
      commandBody i s = (writeShortBand (range lb ub).toNat (value - lb).toNat s).yieldNone := by
  rcases hi with rfl | rfl
  · exact ⟨rfl, congrArg Res.yieldNone (encCwn_shortBand hl hu hr s)⟩
  · exact ⟨rfl, congrArg Res.yieldNone ((encClen_eq_encCwn hr s).trans (encCwn_shortBand hl hu hr s))⟩

/-- The length field of band 4: `o - 2` in the width for `bytes_needed`, where `o` is the count of value octets. -/
theorem encClen_lengthField {r v : Nat} (hlo : 65536 ≤ r) (hhi : r < 2 ^ 127) (hv : v < r) (s : State) :
    encClen ((longBandOctets v : Int) - 1) 1 (bytesNeeded r) s =
      writeBits (bitsNeededForRange (bytesNeeded r)) (longBandOctets v - 2) s := by
  obtain ⟨h2, hle, h16, -⟩ := longBand_bounds hlo hhi hv
  have hrange : range 1 (bytesNeeded r) < 65536 := by rw [range_one]; omega
  have hsub : ((longBandOctets v : Int) - 1 - 1).toNat = longBandOctets v - 2 := by omega
  rw [encClen_eq_encCwn hrange, encCwn_shortBand (by omega) (by omega) hrange, range_one, Int.toNat_natCast, hsub,
    writeShortBand_bandOne (by omega)]

theorem writeLongBand_eq {r v : Nat} (hlo : 65536 ≤ r) (hhi : r < 2 ^ 127) (hv : v < r) (s : State) :
    writeLongBand r v s =
      (writeBits (bitsNeededForRange (bytesNeeded r)) (longBandOctets v - 2) s).bind fun _ s =>
        (writeAlign s).bind fun _ s => writeBits (8 * longBandOctets v) v s := by
  rw [writeLongBand, encClen_lengthField hlo hhi hv]

/-- The length field holds `o - 2`, for every count of value octets that a value below the range takes. -/
theorem writes_lengthField {r v : Nat} (hlo : 65536 ≤ r) (hhi : r < 2 ^ 127) (hv : v < r) :
    bitsNeededForRange (bytesNeeded r) ≤ 128 ∧ longBandOctets v - 2 < 2 ^ bitsNeededForRange (bytesNeeded r) := by
  obtain ⟨h2, hle, h16, -⟩ := longBand_bounds hlo hhi hv
  exact ⟨(bitsNeeded_le _).trans (by norm_num), lt_pow_bitsNeeded (by omega) (by omega)⟩

/-! ### Counted octets (41_whole_number.md R99, R100) -/

/-- What the counted octets of a number of at most 128 bits leave behind, with room and without. -/
theorem writeCountedOctets_cases {v : Nat} (hv : v < 2 ^ 128) {s : State} (hs : EncPass s) :
    (alignUp s.bitPosition + 8 + 8 * minOctets v ≤ capBits s →
      ∃ t, writeCountedOctets v s = .done () t ∧ Grew s t (alignUp s.bitPosition + 8 + 8 * minOctets v) ∧
        PadZero t.buffer s.bitPosition (alignUp s.bitPosition) ∧
        lengthAt t.buffer (octets s.bitPosition) = some (minOctets v, 1) ∧
        rdBits t.buffer (alignUp s.bitPosition + 8) (8 * minOctets v) = some v) ∧
    (alignUp s.bitPosition + 8 ≤ capBits s → capBits s < alignUp s.bitPosition + 8 + 8 * minOctets v →
      ∃ t, writeCountedOctets v s = .raised .outOfBits t ∧ t.bitPosition = alignUp s.bitPosition + 8 ∧
        lengthAt t.buffer (octets s.bitPosition) = some (minOctets v, 1)) ∧
    (capBits s < alignUp s.bitPosition + 8 →
      ∃ t, writeCountedOctets v s = .raised .outOfBits t ∧ t.bitPosition = alignUp s.bitPosition ∧
        PadZero t.buffer s.bitPosition (alignUp s.bitPosition)) := by
  have h16 := minOctets_le hv
  have hok : ULenOK (minOctets v) := .inl (by omega)
  have hone : lengthOctets (minOctets v) = 1 := lengthOctets_eq_one_of_le (by omega)
  have hroom := encUlen_room hok hs
  rw [hone] at hroom
  refine ⟨fun hcap => ?_, fun hcap hcap' => ?_, fun hcap => ?_⟩
  · obtain ⟨t, hdone, hgrew, hpad, hlen⟩ := hroom (by omega)
    have hw := writes_writeBits (n := 8 * minOctets v) (v := v) (by omega) (lt_pow_minOctets v)
    obtain ⟨u, hdone', hgrew', hfield⟩ := hw t hgrew.pass (by rw [hgrew.pos, hgrew.capBits]; omega)
    rw [hgrew.pos] at hgrew' hfield
    refine ⟨u, by rw [writeCountedOctets, hdone, bind_done, hdone'], hgrew.trans hgrew',
      hgrew'.padZero hgrew.pass (by rw [hgrew.pos]; omega) hpad, lengthAt_congr hlen fun j hj => ?_, hfield⟩
    refine hgrew'.octetAt hgrew.pass ?_
    rw [hgrew.pos]
    unfold alignUp
    omega
  · obtain ⟨t, hdone, hgrew, -, hlen⟩ := hroom hcap
    have hfull : writeBits (8 * minOctets v) v t = .raised .outOfBits t := by
      refine writeBits_full (by omega) (lt_pow_minOctets v) ?_
      rw [hgrew.pos, hgrew.capBits]
      exact hcap'
    exact ⟨t, by rw [writeCountedOctets, hdone, bind_done, hfull], hgrew.pos, hlen⟩
  · obtain ⟨t, hraised, hgrew, hpad⟩ := encUlen_full hok hs hcap
    exact ⟨t, by rw [writeCountedOctets, hraised, bind_raised], hgrew.pos, hpad⟩

end Sys2Proof.Machine
end

section
/-! The statements on the encode commands (40_bit_cursor.md section 4; 41_whole_number.md section 3;
42_length_determinant.md section 3). -/

namespace Sys2Proof.Machine

open Sys2Proof

/-! ### What an encode command answers by how its body ends -/

section
variable {i : Instr} {s t : State} {r : Res Unit}

theorem exec_enc_done (hm : s.mode = .enc) (hi : modeNeeded i = some .enc) (hb : commandBody i s = r.yieldNone)
    (h : r = .done () t) : exec i s = .next (endOk none t) :=
  exec_of_done hm hi (hb.trans (congrArg Res.yieldNone h))

theorem exec_enc_raised {k : Status} (hm : s.mode = .enc) (hi : modeNeeded i = some .enc)
    (hb : commandBody i s = r.yieldNone) (h : r = .raised k t) : exec i s = .next (raiseError k t) :=
  exec_of_raised hm hi (hb.trans (congrArg Res.yieldNone h))

end

/-! ### Bit Cursor commands -/

theorem writeBit_room (b : Bool) {s : State} (hs : EncPass s) (hcap : s.bitPosition + 1 ≤ capBits s) :
    ∃ t, writeBit b s = .done () t ∧ Grew s t (s.bitPosition + 1) ∧ bitAt t.buffer s.bitPosition = some b := by
  obtain ⟨t, hdone, hgrew, hfield⟩ := writes_writeBit b s hs hcap
  exact ⟨t, hdone, hgrew, bitAt_of_rdBits_one hfield⟩

/-- Settles O35: `WriteBit` appends one bit or finds no room. -/
theorem encBoolAppendsItsBit : Obligations.EncBoolAppendsItsBit := by
  intro f s h hm
  have hs := h.encPass hm
  refine ⟨fun hcap => ?_, fun hcap => exec_enc_raised hm rfl rfl (writeBit_full hcap)⟩
  obtain ⟨t, hdone, hgrew, hbit⟩ := writeBit_room f hs hcap
  exact ⟨_, exec_enc_done hm rfl rfl hdone, hgrew.wroteTo hs, hbit⟩

/-- Settles O36: `WriteBits` appends a field or finds no room. -/
theorem encBitsAppendsTheValue : Obligations.EncBitsAppendsTheValue := by
  intro n v s h hm hn hv
  have hs := h.encPass hm
  refine ⟨fun hcap => ?_, fun hcap => exec_enc_raised hm rfl rfl (writeBits_full hn hv hcap)⟩
  obtain ⟨t, hdone, hgrew, hfield⟩ := writes_writeBits hn hv s hs hcap
  exact ⟨_, exec_enc_done hm rfl rfl hdone, hgrew.wroteTo hs, (rdBits_spec hfield).2⟩

/-- Settles O37: the padding reaches the next multiple of 8, which is never past the buffer. -/
theorem encAlignPadsWithZeros : Obligations.EncAlignPadsWithZeros := by
  intro s h hm
  have hs := h.encPass hm
  obtain ⟨t, hdone, hgrew, hpad⟩ := writeAlign_grew hs
  exact ⟨_, exec_enc_done hm rfl rfl hdone, hgrew.wroteTo hs, hpad⟩

/-! ### Length determinants -/

/-- Settles O42: the shortest form with room for it, and what stays where the buffer ends in it. -/
theorem encUlenWritesTheShortestForm : Obligations.EncUlenWritesTheShortestForm := by
  intro l s h hm hok
  have hs := h.encPass hm
  refine ⟨fun hcap => ?_, fun hcap => ?_, fun hl hcap => ?_⟩
  · obtain ⟨t, hdone, hgrew, hpad, hlen⟩ := encUlen_room hok hs hcap
    exact ⟨_, exec_enc_done hm rfl rfl hdone, hgrew.wroteTo hs, hpad, hlen⟩
  · obtain ⟨t, hraised, hgrew, hpad⟩ := encUlen_full hok hs hcap
    exact ⟨_, exec_enc_raised hm rfl rfl hraised, hgrew.pos, rfl, hpad⟩
  · obtain ⟨t, hraised, hgrew, -, hfield⟩ := encUlen_noSecondOctet hl hs hcap
    exact ⟨_, exec_enc_raised hm rfl rfl hraised, hgrew.pos, rfl, hfield⟩

/-- The flag of the large form, from which `ENC_ULEN` goes on (42_length_determinant.md R114). -/
theorem encNslen_large_flag {v : Nat} (h64 : 64 < v) (hv : ULenOK v) {s : State} (hs : EncPass s)
    (hcap : s.bitPosition + 1 ≤ capBits s) :
    ∃ t, encNslen v s = encUlen v t ∧ Grew s t (s.bitPosition + 1) ∧
      ∀ u q, Grew t u q → bitAt u.buffer s.bitPosition = some true := by
  obtain ⟨t, hdone, hgrew, hbit⟩ := writeBit_room true hs hcap
  refine ⟨t, by rw [encNslen_large h64 hv, hdone, bind_done], hgrew, fun u q hu => ?_⟩
  exact (hu.bitAt hgrew.pass (by rw [hgrew.pos]; omega)).trans hbit

/-- Settles O43: the flag and six bits, or the flag and `ENC_ULEN`, each with room and at the end of the buffer. -/
theorem encNslenChoosesTheForm : Obligations.EncNslenChoosesTheForm := by
  intro v s h hm
  have hs := h.encPass hm
  refine ⟨fun h1 h64 hcap => ?_, fun h64 hv hcap => ?_, fun h1 hv hcap => ?_, fun h1 h64 hcap hcap' => ?_,
    fun h64 hv hcap hcap' => ?_, fun h64 hl hcap => ?_⟩
  · have hw := (writes_writeBit false).bind (writes_writeBits (n := 6) (v := v - 1) (by norm_num) (by omega))
    obtain ⟨t, hdone, hgrew, hfield⟩ := hw s hs hcap
    obtain ⟨hflag, hval⟩ := rdBits_split hfield (by omega)
    exact ⟨_, exec_enc_done hm rfl rfl ((encNslen_small h1 h64 s).trans hdone), hgrew.wroteTo hs,
      bitAt_of_rdBits_one hflag, hval⟩
  · have hflagRoom : s.bitPosition + 1 ≤ capBits s := (le_alignUp _).trans (by omega)
    obtain ⟨t, hsteps, hgrew, hbit⟩ := encNslen_large_flag h64 hv hs hflagRoom
    have hroom := encUlen_room hv hgrew.pass
    rw [hgrew.pos, hgrew.capBits] at hroom
    obtain ⟨u, hdone, hgrew', hpad, hlen⟩ := hroom hcap
    exact ⟨_, exec_enc_done hm rfl rfl (hsteps.trans hdone), (hgrew.trans hgrew').wroteTo hs, hbit u _ hgrew', hpad,
      hlen⟩
  · have hfull : ∀ b, writeBit b s = .raised .outOfBits s := fun b => writeBit_full hcap
    by_cases h64 : v ≤ 64
    · exact exec_enc_raised hm rfl rfl (by rw [encNslen_small h1 h64, hfull, bind_raised])
    · exact exec_enc_raised hm rfl rfl (by rw [encNslen_large (by omega) hv, hfull, bind_raised])
  · obtain ⟨t, hdone, hgrew, hbit⟩ := writeBit_room false hs hcap
    have hfull : writeBits 6 (v - 1) t = .raised .outOfBits t := by
      refine writeBits_full (by norm_num) (by omega) ?_
      rw [hgrew.pos, hgrew.capBits]
      omega
    exact ⟨_, exec_enc_raised hm rfl rfl (by rw [encNslen_small h1 h64, hdone, bind_done, hfull]), hgrew.pos, rfl, hbit⟩
  · obtain ⟨t, hsteps, hgrew, hbit⟩ := encNslen_large_flag h64 hv hs hcap
    have hfull := encUlen_full hv hgrew.pass
    rw [hgrew.pos, hgrew.capBits] at hfull
    obtain ⟨u, hraised, hgrew', hpad⟩ := hfull hcap'
    exact ⟨_, exec_enc_raised hm rfl rfl (hsteps.trans hraised), hgrew'.pos, rfl, hbit u _ hgrew', hpad⟩
  · obtain ⟨-, hmax⟩ := lengthOctets_eq_two_iff.1 hl
    have hflagRoom : s.bitPosition + 1 ≤ capBits s := (le_alignUp _).trans (by omega)
    obtain ⟨t, hsteps, hgrew, hbit⟩ := encNslen_large_flag h64 (.inl hmax) hs hflagRoom
    have hshort := encUlen_noSecondOctet hl hgrew.pass
    rw [hgrew.pos, hgrew.capBits] at hshort
    obtain ⟨u, hraised, hgrew', hpad, hfield⟩ := hshort hcap
    exact ⟨_, exec_enc_raised hm rfl rfl (hsteps.trans hraised), hgrew'.pos, rfl, hbit u _ hgrew', hpad, hfield⟩

/-! ### Whole numbers -/

/-- Settles O49: band 1 is one unaligned field of the table's width. -/
theorem encCwnBandOne : Obligations.EncCwnBandOne := by
  intro i value lb ub w s hi h hm hr hl hu hw
  have hs := h.encPass hm
  have hlt := offset_lt_range hl hu
  obtain ⟨henc, hbody⟩ := commandBody_constrained_enc hi hl hu (by omega) s
  rw [writeShortBand_bandOne (by omega), ← hw] at hbody
  have hw128 : w ≤ 128 := hw ▸ (bitsNeeded_le _).trans (by norm_num)
  have hv : (value - lb).toNat < 2 ^ w := hw ▸ lt_pow_bitsNeeded (by omega) hlt
  refine ⟨fun hcap => ?_, fun hcap => exec_enc_raised hm henc hbody (writeBits_full hw128 hv hcap)⟩
  obtain ⟨t, hdone, hgrew, hfield⟩ := writes_writeBits hw128 hv s hs hcap
  exact ⟨_, exec_enc_done hm henc hbody hdone, hgrew.wroteTo hs, hfield⟩

/-- Settles O50: bands 2 and 3 are one field behind the padding. -/
theorem encCwnBandsTwoAndThree : Obligations.EncCwnBandsTwoAndThree := by
  intro i value lb ub w q s hi h hm hr hl hu hq
  subst hq
  have hs := h.encPass hm
  have hlt := offset_lt_range hl hu
  obtain ⟨henc, hbody⟩ := commandBody_constrained_enc hi hl hu (by omega) s
  rw [writeShortBand_aligned (w := w) (by omega)] at hbody
  have hw128 : w ≤ 128 := by omega
  have hv : (value - lb).toNat < 2 ^ w := by
    rcases hr with ⟨hr, rfl⟩ | ⟨-, hr, rfl⟩ <;> omega
  refine ⟨fun hcap => ?_, fun hcap => ?_⟩
  · obtain ⟨t, hdone, hgrew, hpad, hfield⟩ := writeAlign_then_writes (writes_writeBits hw128 hv) hs hcap
    exact ⟨_, exec_enc_done hm henc hbody hdone, hgrew.wroteTo hs, hpad, hfield⟩
  · obtain ⟨t, hraised, hgrew, hpad⟩ := writeAlign_then_raises hs fun t hgrew =>
      writeBits_full hw128 hv (by rw [hgrew.pos, hgrew.capBits]; exact hcap)
    exact ⟨_, exec_enc_raised hm henc hbody hraised, hgrew.pos, rfl, hpad⟩

/-- `max(2, ceil(bitlen(v) / 8))` is the least count of at least 2 octets that holds `v`. -/
theorem longBandOctets_least {v o : Nat} (h2 : 2 ≤ o) (hv : v < 2 ^ (8 * o)) : longBandOctets v ≤ o :=
  max_le h2 ((octets_bitlen_le_iff v o).2 hv)

/-- Settles O51: the length field, the padding and the value octets, with room and at the end of the buffer. -/
theorem encCwnBandFour : Obligations.EncCwnBandFour := by
  intro value lb ub o lw q s h hm h1 h2 hl hu ho hlw hq
  subst hq
  have hs := h.encPass hm
  have hlo : 65536 ≤ (range lb ub).toNat := by omega
  have hhi : (range lb ub).toNat < 2 ^ 127 := by omega
  have hlt := offset_lt_range hl hu
  obtain ⟨ho2, -, -, ho128⟩ := longBand_bounds hlo hhi hlt
  obtain ⟨hlw128, hfits⟩ := writes_lengthField hlo hhi hlt
  have hsteps := (encCwn_longBand hl hu h1 h2 s).trans (writeLongBand_eq hlo hhi hlt s)
  have hv := lt_pow_longBandOctets (value - lb).toNat
  have hleast := fun o' => longBandOctets_least (v := (value - lb).toNat) (o := o')
  rw [← ho] at ho2 ho128 hfits hsteps hv hleast
  rw [← hlw] at hlw128 hfits hsteps
  have hfield := writes_writeBits hlw128 hfits s hs
  refine ⟨⟨ho2, hv, hleast⟩, fun hcap => ?_, fun hcap hcap' => ?_, fun hcap => ?_⟩
  · have hroom : s.bitPosition + lw ≤ capBits s := (le_alignUp _).trans (by omega)
    obtain ⟨t, hdone, hgrew, hlen⟩ := hfield hroom
    have hoctets := writeAlign_then_writes (writes_writeBits ho128 hv) hgrew.pass
    rw [hgrew.pos, hgrew.capBits] at hoctets
    obtain ⟨u, hdone', hgrew', hpad, hval⟩ := hoctets hcap
    exact ⟨_, exec_enc_done hm rfl rfl (by rw [hsteps, hdone, bind_done, hdone']), (hgrew.trans hgrew').wroteTo hs,
      (hgrew'.rdBits hgrew.pass hgrew.pos.ge).trans hlen, hpad, hval⟩
  · obtain ⟨t, hdone, hgrew, hlen⟩ := hfield hcap
    have hshort := writeAlign_then_raises (w := writeBits (8 * o) (value - lb).toNat) hgrew.pass fun u hu =>
      writeBits_full ho128 hv (by rw [hu.pos, hu.capBits, hgrew.pos, hgrew.capBits]; exact hcap')
    rw [hgrew.pos] at hshort
    obtain ⟨u, hraised, hgrew', hpad⟩ := hshort
    exact ⟨_, exec_enc_raised hm rfl rfl (by rw [hsteps, hdone, bind_done, hraised]), hgrew'.pos, rfl,
      (hgrew'.rdBits hgrew.pass hgrew.pos.ge).trans hlen, hpad⟩
  · exact exec_enc_raised hm rfl rfl (by rw [hsteps, writeBits_full hlw128 hfits hcap, bind_raised])

/-- The shape that `ENC_SCWN` and `ENC_UWN` share: counted octets of `v` as the body of the command. -/
theorem exec_counted_enc {i : Instr} {v o p : Nat} {s : State} (h : Inv s) (hm : s.mode = .enc)
    (hi : modeNeeded i = some .enc) (hb : commandBody i s = (writeCountedOctets v s).yieldNone) (hv : v < 2 ^ 128)
    (ho : o = minOctets v) (hp : p = alignUp s.bitPosition + 8) :
    (p + 8 * o ≤ capBits s →
      ∃ t, exec i s = .next t ∧ WroteTo s t (p + 8 * o) ∧ PadZero t.buffer s.bitPosition (alignUp s.bitPosition) ∧
        lengthAt t.buffer (octets s.bitPosition) = some (o, 1) ∧ rdBits t.buffer p (8 * o) = some v) ∧
    (p ≤ capBits s → capBits s < p + 8 * o →
      ∃ t, exec i s = .next t ∧ t.bitPosition = p ∧ t.response = some ⟨.outOfBits, none⟩ ∧
        lengthAt t.buffer (octets s.bitPosition) = some (o, 1)) ∧
    (capBits s < p →
      ∃ t, exec i s = .next t ∧ t.bitPosition = alignUp s.bitPosition ∧ t.response = some ⟨.outOfBits, none⟩ ∧
        PadZero t.buffer s.bitPosition (alignUp s.bitPosition)) := by
  subst ho hp
  have hs := h.encPass hm
  obtain ⟨hroom, hshort, hfull⟩ := writeCountedOctets_cases hv hs
  refine ⟨fun hcap => ?_, fun hcap hcap' => ?_, fun hcap => ?_⟩
  · obtain ⟨t, hdone, hgrew, hpad, hlen, hval⟩ := hroom hcap
    exact ⟨_, exec_enc_done hm hi hb hdone, hgrew.wroteTo hs, hpad, hlen, hval⟩
  · obtain ⟨t, hraised, hpos, hlen⟩ := hshort hcap hcap'
    exact ⟨_, exec_enc_raised hm hi hb hraised, hpos, rfl, hlen⟩
  · obtain ⟨t, hraised, hpos, hpad⟩ := hfull hcap
    exact ⟨_, exec_enc_raised hm hi hb hraised, hpos, rfl, hpad⟩

/-- Settles O52: behind its test `ENC_SCWN` writes the counted octets of `value - lb`. -/
theorem encScwnWritesTheLeastOctets : Obligations.EncScwnWritesTheLeastOctets := by
  intro value lb o p s h hm hl hlt ho hp
  exact exec_counted_enc h hm rfl (congrArg Res.yieldNone (encScwn_eq_counted hl s)) (by omega) ho hp

/-- Settles O53: `ENC_UWN` writes the counted octets of its value. -/
theorem encUwnWritesTheShortestUnsignedForm : Obligations.EncUwnWritesTheShortestUnsignedForm := by
  intro v o p s h hm hv ho hp
  exact exec_counted_enc h hm rfl rfl hv ho hp

end Sys2Proof.Machine
end

section
/-! SUPPORT. What each encode body wrote, the decode body of its mirror reads back (41_whole_number.md R101;
42_length_determinant.md R118): from the laws of the primitives, one lemma for each pair of bodies. -/

namespace Sys2Proof.Machine

open Sys2Proof

theorem extended_of_done {α : Type} {s t : State} {r : Res α} {a : α} (ho : r.Obeys (EncPass s) (Extended s))
    (h : r = .done a t) : Extended s t := by
  rw [h] at ho
  exact ho

theorem Covers.refl (s : State) : Covers s s := ⟨le_rfl, fun _ _ => rfl⟩

theorem Covers.trans {s t d : State} (h : Covers s t) (h' : Covers t d) : Covers s d :=
  ⟨h.length.trans h'.length, fun i hi => (h'.bits i (hi.trans_le h.length)).trans (h.bits i hi)⟩

theorem Extended.covers {s t : State} (hs : EncPass s) (h : Extended s t) : Covers s t :=
  (Covers.refl t).of_extended hs h

/-! ### Bands -/

theorem readBits_align_of_writeAlign {n v : Nat} {s t d : State} {u : Unit}
    (h : ((writeAlign s).bind fun _ s => writeBits n v s) = .done u t) (hc : Covers t d)
    (hp : d.bitPosition = s.bitPosition) : readBits n (align d) = .done v (setPos t.bitPosition d) := by
  obtain ⟨_, s₁, halign, hbits⟩ := bind_eq_done.1 h
  rw [align_of_writeAlign halign hp]
  exact readBits_of_writeBits hbits (hc.setPos _) rfl

theorem readShortBand_of_writeShortBand {r v : Nat} {s t d : State} {u : Unit}
    (h : writeShortBand r v s = .done u t) (hc : Covers t d) (hp : d.bitPosition = s.bitPosition) :
    readShortBand r d = .done v (setPos t.bitPosition d) := by
  unfold writeShortBand at h
  unfold readShortBand
  split_ifs at h ⊢
  · exact readBits_of_writeBits h hc hp
  · exact readBits_align_of_writeAlign h hc hp
  · exact readBits_align_of_writeAlign h hc hp

theorem readLongBand_of_writeLongBand {r v : Nat} (hlo : 65536 ≤ r) (hhi : r < 2 ^ 127) (hv : v < r)
    {s t d : State} {u : Unit} (hs : EncPass s) (h : writeLongBand r v s = .done u t) (hc : Covers t d)
    (hp : d.bitPosition = s.bitPosition) : readLongBand r d = .done v (setPos t.bitPosition d) := by
  rw [writeLongBand_eq hlo hhi hv] at h
  obtain ⟨_, s₁, hfield, hrest⟩ := bind_eq_done.1 h
  have hs₁ : EncPass s₁ := (extended_of_done (writeBits_obeys _ _ s) hfield).encPass hs
  have hext : Extended s₁ t := extended_of_done
    (obeys_bind (writeAlign_obeys s₁) fun _ _ hu => hu.obeys (writeBits_obeys _ _ _)) hrest
  have hlen : longBandOctets v - 2 + 2 = longBandOctets v := Nat.sub_add_cancel (two_le_longBandOctets v)
  rw [readLongBand_field hlo hhi (readBits_of_writeBits hfield (hc.of_extended hs₁ hext) hp), hlen]
  exact readBits_align_of_writeAlign hrest (hc.setPos _) rfl

/-- The whole number in any band, behind both tests. -/
theorem decCwn_of_encCwn {value lb ub : Int} (hvalue : value ≤ maxS128) {s t d : State} {u : Unit} (hs : EncPass s)
    (h : encCwn value lb ub s = .done u t) (hc : Covers t d) (hp : d.bitPosition = s.bitPosition) :
    decCwn lb ub d = .done value (setPos t.bitPosition d) := by
  by_cases hok : RangeOK (range lb ub)
  · by_cases hval : value < lb ∨ ub < value
    · rw [encCwn_valueOutOfRange hok hval] at h
      cases h
    · have hl : lb ≤ value := by omega
      have hu : value ≤ ub := by omega
      have hoffset : (((value - lb).toNat : Nat) : Int) + lb = value := by omega
      have hadd : addLb (value - lb).toNat lb (setPos t.bitPosition d) = .done value (setPos t.bitPosition d) :=
        addLb_eq_done.2 ⟨hoffset.trans_le hvalue, hoffset.symm, rfl⟩
      by_cases hr : range lb ub < 65536
      · rw [encCwn_shortBand hl hu hr] at h
        rw [decCwn_shortBand hok.1 hr, readShortBand_of_writeShortBand h hc hp, bind_done, hadd]
      · rw [encCwn_longBand hl hu (by omega) hok.2] at h
        rw [decCwn_longBand (by omega) hok.2, readLongBand_of_writeLongBand (by omega) (toNat_lt_of_rangeOK hok)
          (offset_lt_range hl hu) hs h hc hp, bind_done, hadd]
  · rw [encCwn_invalidRange hok] at h
    cases h

theorem decClen_of_encClen {value lb ub : Int} (hvalue : value ≤ maxS128) {s t d : State} {u : Unit} (hs : EncPass s)
    (h : encClen value lb ub s = .done u t) (hc : Covers t d) (hp : d.bitPosition = s.bitPosition) :
    decClen lb ub d = .done value (setPos t.bitPosition d) := by
  by_cases hr : range lb ub < 65536
  · rw [encClen_eq_encCwn hr] at h
    rw [decClen_eq_decCwn hr]
    exact decCwn_of_encCwn hvalue hs h hc hp
  · rw [encClen_unsupported (by omega)] at h
    cases h

/-! ### Length determinants -/

/-- A bit and what follows it: the bit is read back, and the rest is written from behind it. -/
theorem readBit_of_writeBit_then {b : Bool} {w : State → Res Unit}
    (hw : ∀ s, (w s).Obeys (EncPass s) (Extended s)) {s t d : State} {u : Unit} (hs : EncPass s)
    (h : ((writeBit b s).bind fun _ s => w s) = .done u t) (hc : Covers t d) (hp : d.bitPosition = s.bitPosition) :
    ∃ s₁, readBit d = .done b (setPos s₁.bitPosition d) ∧ w s₁ = .done u t ∧ EncPass s₁ := by
  obtain ⟨_, s₁, hbit, hrest⟩ := bind_eq_done.1 h
  have hs₁ : EncPass s₁ := (extended_of_done (writeBit_obeys b s) hbit).encPass hs
  have hc₁ : Covers s₁ d := hc.of_extended hs₁ (extended_of_done (hw s₁) hrest)
  exact ⟨s₁, readBit_of_writeBit hbit hc₁ hp, hrest, hs₁⟩

/-- The discriminator bits and the value of each form are read back in the order they were written. -/
theorem decUlen_of_encUlen {l : Nat} {s t d : State} {u : Unit} (hs : EncPass s) (h : encUlen l s = .done u t)
    (hc : Covers t d) (hp : d.bitPosition = s.bitPosition) : decUlen d = .done l (setPos t.bitPosition d) := by
  have behind : ∀ {w : State → Res Unit}, encUlen l s = ((writeAlign s).bind fun _ s => w s) →
      ∃ s₁, align d = setPos s₁.bitPosition d ∧ w s₁ = .done u t ∧ EncPass s₁ := by
    intro w hsteps
    obtain ⟨_, s₁, halign, hrest⟩ := bind_eq_done.1 (hsteps.symm.trans h)
    exact ⟨s₁, align_of_writeAlign halign hp, hrest, (extended_of_done (writeAlign_obeys s) halign).encPass hs⟩
  have tail : ∀ (b : Bool) (n v : Nat) (s : State),
      ((writeBit b s).bind fun _ s => writeBits n v s).Obeys (EncPass s) (Extended s) :=
    fun b n v s => obeys_bind (writeBit_obeys b s) fun _ _ ht => ht.obeys (writeBits_obeys n v _)
  by_cases hok : ULenOK l
  · rcases ulenOK_cases hok with hl | ⟨h1, h2⟩ | ⟨f, h1, h4, rfl⟩
    · obtain ⟨s₁, halign, h₁, hs₁⟩ := behind (encUlen_short hl s)
      obtain ⟨s₂, hbit, h₂, -⟩ := readBit_of_writeBit_then (writeBits_obeys 7 l) hs₁ h₁ (hc.setPos _) rfl
      rw [decUlen, halign, hbit, bind_done, if_pos rfl]
      exact readBits_of_writeBits h₂ (hc.setPos _) rfl
    · obtain ⟨s₁, halign, h₁, hs₁⟩ := behind (encUlen_long h1 h2 s)
      obtain ⟨s₂, hbit, h₂, hs₂⟩ := readBit_of_writeBit_then (tail true 14 l) hs₁ h₁ (hc.setPos _) rfl
      obtain ⟨s₃, hbit', h₃, -⟩ := readBit_of_writeBit_then (writeBits_obeys 14 l) hs₂ h₂ (hc.setPos _) rfl
      rw [decUlen, halign, hbit, bind_done, if_neg (by simp), setPos_setPos, hbit', bind_done, if_pos rfl]
      exact readBits_of_writeBits h₃ (hc.setPos _) rfl
    · obtain ⟨s₁, halign, h₁, hs₁⟩ := behind (encUlen_fragment h1 h4 s)
      obtain ⟨s₂, hbit, h₂, hs₂⟩ := readBit_of_writeBit_then (tail false 6 f) hs₁ h₁ (hc.setPos _) rfl
      obtain ⟨s₃, hbit', h₃, -⟩ := readBit_of_writeBit_then (writeBits_obeys 6 f) hs₂ h₂ (hc.setPos _) rfl
      rw [decUlen, halign, hbit, bind_done, if_neg (by simp), setPos_setPos, hbit', bind_done, if_neg (by simp),
        setPos_setPos, readBits_of_writeBits h₃ (hc.setPos _) rfl, bind_done, if_neg (by omega)]
      rfl
  · rw [encUlen_valueOutOfRange hok] at h
    cases h

theorem decNslen_of_encNslen {v : Nat} {s t d : State} {u : Unit} (hs : EncPass s) (h : encNslen v s = .done u t)
    (hc : Covers t d) (hp : d.bitPosition = s.bitPosition) : decNslen d = .done v (setPos t.bitPosition d) := by
  by_cases hbad : v = 0 ∨ ¬ULenOK v
  · rw [encNslen_valueOutOfRange hbad] at h
    cases h
  · by_cases h64 : v ≤ 64
    · rw [encNslen_small (by omega) h64] at h
      obtain ⟨s₁, hbit, h₁, -⟩ := readBit_of_writeBit_then (writeBits_obeys 6 (v - 1)) hs h hc hp
      have hval : v - 1 + 1 = v := by omega
      rw [decNslen, hbit, bind_done, if_pos rfl, readBits_of_writeBits h₁ (hc.setPos _) rfl, bind_done, hval]
      rfl
    · rw [encNslen_large (by omega) (by tauto)] at h
      obtain ⟨s₁, hbit, h₁, hs₁⟩ := readBit_of_writeBit_then (encUlen_obeys v) hs h hc hp
      rw [decNslen, hbit, bind_done, if_neg (by simp)]
      exact decUlen_of_encUlen hs₁ h₁ (hc.setPos _) rfl

/-! ### Counted octets -/

theorem readCountedOctets_of_write {v : Nat} {s t d : State} {u : Unit} (hs : EncPass s)
    (h : writeCountedOctets v s = .done u t) (hc : Covers t d) (hp : d.bitPosition = s.bitPosition) :
    readCountedOctets d = .done v (setPos t.bitPosition d) := by
  obtain ⟨_, s₁, hlen, hbits⟩ := bind_eq_done.1 h
  have hs₁ : EncPass s₁ := (extended_of_done (encUlen_obeys _ s) hlen).encPass hs
  have hc₁ : Covers s₁ d := hc.of_extended hs₁ (extended_of_done (writeBits_obeys _ _ s₁) hbits)
  rw [readCountedOctets_of_length (decUlen_of_encUlen hs hlen hc₁ hp)]
  exact readBits_of_writeBits hbits (hc.setPos _) rfl

theorem decScwn_of_encScwn {value lb : Int} (hvalue : value ≤ maxS128) {s t d : State} {u : Unit} (hs : EncPass s)
    (h : encScwn value lb s = .done u t) (hc : Covers t d) (hp : d.bitPosition = s.bitPosition) :
    decScwn lb d = .done value (setPos t.bitPosition d) := by
  by_cases hlt : value < lb
  · rw [encScwn_valueOutOfRange hlt] at h
    cases h
  · rw [encScwn_eq_counted (by omega)] at h
    have hoffset : (((value - lb).toNat : Nat) : Int) + lb = value := by omega
    rw [decScwn, readCountedOctets_of_write hs h hc hp, bind_done]
    exact addLb_eq_done.2 ⟨hoffset.trans_le hvalue, hoffset.symm, rfl⟩

/-! ### Every command -/

theorem done_of_yieldNone {r : Res Unit} {v : Option Pattern} {t : State} (h : r.yieldNone = .done v t) :
    r = .done () t := by
  obtain ⟨_, _, hr, e⟩ := bind_eq_done.1 h
  cases e
  exact hr

/-- The body of the mirror reads back what the body of an encode command wrote, and ends where it ended. -/
theorem commandBody_mirror {i j : Instr} (hwf : WellFormed i) (hj : mirror i = some j) {s t d : State}
    {v : Option Pattern} (hs : EncPass s) (h : commandBody i s = .done v t) (hc : Covers t d)
    (hp : d.bitPosition = s.bitPosition) : commandBody j d = .done (encodedValue i) (setPos t.bitPosition d) := by
  cases i <;> cases hj <;> have h := done_of_yieldNone h
  case encBool f =>
    rw [commandBody, readBit_of_writeBit h hc hp]
    rfl
  case encBits n value => exact congrArg Res.yieldNat (readBits_of_writeBits h hc hp)
  case encAlign => exact congrArg (Res.done none) (align_of_writeAlign h hp)
  case encNslen value => exact congrArg Res.yieldNat (decNslen_of_encNslen hs h hc hp)
  case encClen value lb ub =>
    obtain ⟨⟨-, hvalue⟩, -⟩ := of_decide_eq_true hwf
    exact congrArg Res.yieldInt (decClen_of_encClen hvalue hs h hc hp)
  case encUlen value => exact congrArg Res.yieldNat (decUlen_of_encUlen hs h hc hp)
  case encCwn value lb ub =>
    obtain ⟨⟨-, hvalue⟩, -⟩ := of_decide_eq_true hwf
    exact congrArg Res.yieldInt (decCwn_of_encCwn hvalue hs h hc hp)
  case encScwn value lb =>
    obtain ⟨⟨-, hvalue⟩, -⟩ := of_decide_eq_true hwf
    exact congrArg Res.yieldInt (decScwn_of_encScwn hvalue hs h hc hp)
  case encUwn value => exact congrArg Res.yieldNat (readCountedOctets_of_write hs h hc hp)

theorem modeNeeded_of_mirror {i j : Instr} (h : mirror i = some j) :
    modeNeeded i = some .enc ∧ modeNeeded j = some .dec := by
  cases i <;> cases h <;> exact ⟨rfl, rfl⟩

end Sys2Proof.Machine
end

section
/-! The statements on round trips (40_bit_cursor.md section 5; 41_whole_number.md R101; 42_length_determinant.md R117;
43_construction.md R134). -/

namespace Sys2Proof.Machine

open Sys2Proof

theorem ReadsBack.covers {t d : State} {p : Nat} (h : ReadsBack t d p) : Covers t d := ⟨h.length, h.bits⟩

/-- Settles O58: an `OK` without a result means that the body was done, and the mirror's body reads back what it
wrote. -/
theorem everyEncodeIsReadBack : Obligations.EveryEncodeIsReadBack := by
  intro i j s t d hwf hj h hm he hr hback
  obtain ⟨henc, hdec⟩ := modeNeeded_of_mirror hj
  rcases exec_cases henc he with ⟨hne, -⟩ | ⟨-, v, u, hb, rfl⟩ | ⟨-, k, u, hb, rfl⟩
  · exact absurd hm hne
  · have hc : Covers u d := ⟨hback.length, hback.bits⟩
    exact exec_of_done hback.mode hdec (commandBody_mirror hwf hj (h.encPass hm) hb hc hback.position)
  · obtain rfl : k = .ok := by
      cases hr
      rfl
    exact absurd hb (commandBody_ne_raised_ok (by simp [henc]) (countedFits_of_wellFormed hwf))

/-! ### A whole pass -/

/-- One command of a run, and the run behind it. -/
theorem runOk_cons {i : Instr} {is : List Instr} {s t : State} {xs : List (Option Pattern × Nat)} :
    runOk (i :: is) s = some (xs, t) ↔
      ∃ u r ys, exec i s = .next u ∧ u.response = some ⟨.ok, r⟩ ∧ runOk is u = some (ys, t) ∧
        xs = (r, u.bitPosition) :: ys := by
  constructor
  · intro h
    rw [runOk] at h
    split at h
    · rename_i u he
      split at h
      · rename_i r hr
        obtain ⟨⟨ys, t'⟩, hrest, e⟩ := Option.map_eq_some_iff.1 h
        cases e
        exact ⟨u, r, ys, he, hr, hrest, rfl⟩
      · cases h
    · cases h
  · rintro ⟨u, r, ys, he, hr, hrest, rfl⟩
    simp [runOk, he, hr, hrest]

/-- An encode command in mode `ENC` keeps the pass going: what a run of them needs of the state. -/
structure Encoding (s : State) : Prop where
  inv : Inv s
  mode : s.mode = .enc
  idle : s.transfer = none

theorem Encoding.exec {i : Instr} {s t : State} (h : Encoding s) (hi : modeNeeded i = some .enc)
    (he : exec i s = .next t) : Encoding t ∧ Covers s t := by
  have hinv : Inv t := h.inv.exec_needsMode h.idle (by simp [hi]) he
  obtain ⟨u, r, rfl, -, hext, -⟩ := exec_enc_cases hi he
  obtain ⟨-, -, hmode, -, htrans, -, -⟩ := hext.frame
  obtain ⟨hlen, hbits⟩ := hext.covers (h.inv.encPass h.mode)
  exact ⟨⟨hinv, hmode.trans h.mode, htrans.trans h.idle⟩, hlen, hbits⟩

/-- What a run of encode commands wrote in the end holds what was written before it. -/
theorem runOk_covers {is : List Instr} : ∀ {s t : State} {xs : List (Option Pattern × Nat)}, Encoding s →
    (∀ i, i ∈ is → (mirror i).isSome = true) → runOk is s = some (xs, t) → Covers s t := by
  induction is with
  | nil =>
    intro s t xs _ _ h
    cases h
    exact Covers.refl s
  | cons i is ih =>
    intro s t xs hs hi h
    obtain ⟨u, r, ys, he, -, hrest, -⟩ := runOk_cons.1 h
    obtain ⟨j, hj⟩ := Option.isSome_iff_exists.1 (hi i (List.mem_cons_self ..))
    obtain ⟨hu, hcovers⟩ := hs.exec (modeNeeded_of_mirror hj).1 he
    exact hcovers.trans (ih hu (fun i' hi' => hi i' (List.mem_cons_of_mem i hi')) hrest)

/-- An encode command that answers `OK` answers without a result. -/
theorem response_ok_of_enc {i : Instr} {s t : State} {r : Option Pattern} (hi : modeNeeded i = some .enc)
    (he : exec i s = .next t) (hr : t.response = some ⟨.ok, r⟩) : r = none := by
  have hres : hasResult i = false := hasResult_eq_false (by simp [hi])
  rcases response_cases (by simp [hi]) he hr with e | ⟨v, u, hb, e⟩ | ⟨k, u, -, e, -⟩ <;> cases e
  · exact Option.isNone_iff_eq_none.1 (by simpa [hres] using commandBody_result (by simp [hi]) hb)
  · rfl

/-- Settles O59: by induction on the commands; each is read back from its own position, and the rest of the run leaves
what it wrote. -/
theorem wholePassIsReadBack : Obligations.WholePassIsReadBack := by
  intro is
  induction is with
  | nil =>
    intro s t d xs _ _ _ _ h hback
    cases h
    exact ⟨d, rfl, hback.position⟩
  | cons i is ih =>
    intro s t d xs hi hinv hm hidle h hback
    obtain ⟨u, r, ys, he, hr, hrest, rfl⟩ := runOk_cons.1 h
    obtain ⟨hwf, hsome⟩ := hi i (List.mem_cons_self ..)
    have hi' : ∀ i', i' ∈ is → WellFormed i' ∧ (mirror i').isSome = true :=
      fun i' h' => hi i' (List.mem_cons_of_mem i h')
    obtain ⟨j, hj⟩ := Option.isSome_iff_exists.1 hsome
    obtain ⟨henc, -⟩ := modeNeeded_of_mirror hj
    obtain ⟨hu, -⟩ := Encoding.exec ⟨hinv, hm, hidle⟩ henc he
    obtain ⟨hlen, hbits⟩ := (runOk_covers hu (fun i' h' => (hi' i' h').2) hrest).trans hback.covers
    obtain rfl := response_ok_of_enc henc he hr
    have hread := everyEncodeIsReadBack i j s u d hwf hj hinv hm he hr ⟨hback.mode, hback.position, hlen, hbits⟩
    obtain ⟨d', hrun, hpos⟩ := ih u t { d with bitPosition := u.bitPosition, response := some ⟨.ok, encodedValue i⟩ }
      ys hi' hu.inv hu.mode hu.idle hrest ⟨hback.mode, rfl, hback.length, hback.bits⟩
    refine ⟨d', ?_, hpos⟩
    rw [List.filterMap_cons_some hj]
    exact runOk_cons.2 ⟨_, _, _, hread, rfl, hrun, rfl⟩

/-! ### Read-out and the slice -/

/-- Settles O60: the slice holds the octets of the pass, so each bit of the pass stands at its offset. -/
theorem sliceOfReadOutReadsBack : Obligations.SliceOfReadOutReadsBack := by
  intro s d u os rest h hread hdin hcap he
  have hos : octetsFrom s.buffer 0 (octets s.bitLength) = some os := by
    unfold memRead at hread
    split_ifs at hread with hfree
    exact hread
  obtain ⟨hlen, hoct⟩ := octetsFrom_eq_some hos
  have htake : d.din.take os.length = os := by rw [hdin, List.take_left]
  have hdinLen : os.length ≤ d.din.length := by rw [hdin, List.length_append]; omega
  rcases exec_initDec_cases os.length d with ⟨hlt, -⟩ | ⟨-, hlt, -⟩ | ⟨-, -, e⟩
  · omega
  · omega
  · cases he.symm.trans e
    refine ⟨rfl, rfl, hlen ▸ le_octets s.bitLength, fun i hi => ?_⟩
    have hk : i / 8 < octets s.bitLength := by unfold octets; omega
    have hoctet : octetAt (loadSlice d.buffer 0 (d.din.take os.length)) (i / 8) = octetAt s.buffer (i / 8) := by
      rw [htake, octetAt_loadSlice, if_pos (by omega), Nat.sub_zero, hoct _ hk, Nat.zero_add]
    exact congrArg (Option.map fun o : Octet => o.getLsbD (bitInOctet i)) hoctet

/-! ### The lengths of `ULenOK` -/

/-- An empty encode pass over a buffer of two octets, which hold every determinant. -/
def emptyEncPass : State := { State.reset with capBytes := 2, mode := .enc }

theorem emptyEncPass_encPass : EncPass emptyEncPass where
  atEnd := rfl
  lenLeCap := Nat.zero_le _
  wf := .nil
  inCap := fun _ _ => rfl
  hold := fun _ hk => absurd hk (by simp [emptyEncPass, State.reset, octets])
  tailZero := fun _ _ hi => absurd hi (by simp [emptyEncPass, State.reset, alignUp, octets])

/-- Settles O41: each form reads a length of its own part of `ULenOK`, and every such length is read back from the pass
that `ENC_ULEN` writes it to. -/
theorem uLenOKIsWhatDecUlenCanReturn : Obligations.ULenOKIsWhatDecUlenCanReturn := by
  intro l
  constructor
  · intro hok
    have hocts : lengthOctets l ≤ 2 := by unfold lengthOctets; split_ifs <;> omega
    have hcap : alignUp emptyEncPass.bitPosition + 8 * lengthOctets l ≤ capBits emptyEncPass := by
      change 0 + 8 * lengthOctets l ≤ 16
      omega
    obtain ⟨t, hdone, -⟩ := encUlen_room hok emptyEncPass_encPass hcap
    exact ⟨setPos 0 t, _, decUlen_of_encUlen emptyEncPass_encPass hdone ((Covers.refl t).setPos 0) rfl⟩
  · rintro ⟨s, t, h⟩
    obtain ⟨b, s₁, -, h⟩ := bind_eq_done.1 h
    split_ifs at h
    · obtain ⟨-, -, hv, -⟩ := readBits_eq_done.1 h
      have hlt := (rdBits_spec hv).1
      exact .inl (by omega)
    · obtain ⟨b', s₂, -, h⟩ := bind_eq_done.1 h
      split_ifs at h
      · obtain ⟨-, -, hv, -⟩ := readBits_eq_done.1 h
        have hlt := (rdBits_spec hv).1
        exact .inl (by omega)
      · obtain ⟨m, s₃, -, h⟩ := bind_eq_done.1 h
        split_ifs at h with hbad
        cases h
        unfold fragmentUnit
        omega

end Sys2Proof.Machine
end
